-- ==== Sys2Proof/Word.lean ====
section
/-!
DEFINITION. The word types of the model: the 32-bit command word of 30_encoding.md R80, the 8-bit
register value of 20_memory.md R60 and the signed 16-bit sample of 10_state.md R44.
-/

namespace Sys2Proof

/-- A host command word (R80). -/
abbrev Word := BitVec 32

/-- A register address or value, a status byte or a byte of host memory (R60, R62, R64). -/
abbrev Byte := BitVec 8

/-- A signed 16-bit sample, held as its two's-complement bits (R44). -/
abbrev Sample := BitVec 16

/-- The number of a slot, 0..17 (R13). -/
abbrev SlotId := Fin 18

/-- The number of a channel, 0..8 (R13). -/
abbrev ChanId := Fin 9

end Sys2Proof
end

