-- ==== Sys2Proof/Config.lean ====
section
/-!
DEFINITION. What the spec leaves to the implementation or to the launch (00_scope.md R9). An `opaque`
constant has no value Lean could use: a statement about it holds whatever it is.
-/

namespace Sys2Proof.Config

/-- One less than `MAX_BATCH`, unknown (R9, R361: an OPEN parameter; log 5). -/
opaque maxBatchPred : Nat

/-- `MAX_BATCH`, "OPEN parameter (positive integer)" (R9; log 5): no value is known but that it is positive. -/
def maxBatch : Nat := maxBatchPred + 1

/-- `CLOCK_HZ` of the instance State.reset holds: an argument of `new` (R9), DESIGN CHOICE (log 2):
the constructor argument the spec's source and its vectors use (95_test_vectors.md E9). -/
def resetClockHz : Nat := 3579552

/-- `RATE_HZ` of the instance State.reset holds: an argument of `new` (R9), DESIGN CHOICE (log 2). -/
def resetRateHz : Nat := 49716

end Sys2Proof.Config
end

