-- ==== Sys2Proof/Machine/State.lean ====
section
/-!
DEFINITION. The state of the machine, as plain data: the instance (`Chip`, 10_state.md), and beside
it whether an instance exists, the fault record (R47), the parameter `MAX_BATCH`, host memory, and
the host's side of the interface (commands not yet executed, launch arguments, the last value
returned). INVENTORY.md lists every field with its rule and reset value.
-/

namespace Sys2Proof.Machine

/-- The four envelope states (R36). -/
inductive EgState where
  | attack | decay | sustain | release
  deriving DecidableEq, Repr

/-- `dirty[s]`: the derived fields of a slot pending recompute (R41). -/
structure Dirty where
  wave   : Bool
  tll    : Bool
  rks    : Bool
  egRate : Bool
  deriving DecidableEq, Repr

/-- One slot (operator): patch fields (R35), envelope (R36, R37), phase (R38), output history (R39),
the derived-field cache (R40, R72) and its dirty flags (R41). -/
structure Slot where
  am : Bool
  pm : Bool
  eg : Bool
  kr : Bool
  ml : BitVec 4
  kl : BitVec 2
  tl : BitVec 6
  ar : BitVec 4
  dr : BitVec 4
  sl : BitVec 4
  rr : BitVec 4
  ws : BitVec 2
  egState : EgState
  /-- attenuation, 0 loudest, at most `EG_MUTE` = 511 in every state a run reaches (R37) -/
  egOut : Nat
  phase : BitVec 21
  out1 : Int
  out2 : Int
  /-- derived: total level plus key-scale level (R231) -/
  tll : Nat
  /-- derived: rate key scale (R191) -/
  rks : Nat
  /-- derived: effective rate (R193) -/
  egRateH : Nat
  egRateL : Nat
  /-- derived: update interval exponent (R194) -/
  egShift : Nat
  /-- derived: waveform selector (R234) -/
  wave : BitVec 2
  dirty : Dirty
  deriving DecidableEq, Repr

/-- One channel (R34). -/
structure Channel where
  fnum  : BitVec 10
  block : BitVec 3
  key   : Bool
  fb    : BitVec 3
  alg   : Bool
  deriving DecidableEq, Repr

/-- One timer (R27); `w` is the width of its prescaler: 2 for timer 1, 4 for timer 2. -/
structure Timer (w : Nat) where
  latch : Byte
  mask  : Bool
  run   : Bool
  cnt   : Byte
  pre   : BitVec w
  flag  : Bool
  deriving DecidableEq, Repr

/-- The rate converter (R43). `timerNum` is the numerator of `conv_timer` over 72 * `rate_hz` (log 8);
`buf` is `conv_buf[0..15]`. -/
structure Converter where
  timerNum : Nat
  buf : Vector Sample 16
  deriving DecidableEq, Repr

/-- The instance: the chip state record of 10_state.md. -/
structure Chip where
  /-- the raw register bank (R24) -/
  reg : Vector Byte 256
  /-- native tick counter (R20) -/
  tick : BitVec 16
  /-- pacing of `calcOne` (R22) -/
  outTime : Nat
  outStep : Nat
  inpStep : Nat
  /-- configuration (R23) -/
  clockHz : Nat
  rateHz : Nat
  /-- test and mode latches (R25) -/
  wse : Bool
  csm : Bool
  nts : Bool
  /-- rhythm and LFO-depth latches (R26); `rkey` is BD, SD, TOM, TC, HH in bits 4..0 -/
  dam : Bool
  dvb : Bool
  rhythm : Bool
  rkey : BitVec 5
  /-- timers (R27) -/
  t1 : Timer 2
  t2 : Timer 4
  /-- CSM key pulse (R28) -/
  csmPulse : Bool
  /-- LFO positions (R29) -/
  amPos : Nat
  pmPos : BitVec 3
  /-- noise LFSR (R30) -/
  noise : BitVec 23
  /-- key state last applied to each slot (R31) -/
  keyMask : BitVec 18
  /-- mute mask (R32, R320) -/
  muteMask : BitVec 14
  chan : Vector Channel 9
  slot : Vector Slot 18
  /-- the converter, when present: `conv_present` is `conv.isSome` (R43) -/
  conv : Option Converter
  /-- last mixed native sample (R44) -/
  mixOut : Sample
  deriving DecidableEq, Repr

/-- Why a command faulted (R360, R361). -/
inductive FaultReason where
  /-- `F_RATE_MISMATCH` (R360) -/
  | rateMismatch
  /-- `F_BATCH_TOO_LARGE` with the count `n` (R361) -/
  | batchTooLarge (n : Nat)
  deriving DecidableEq, Repr

/-- One entry of the fault record: the reason and the command word that raised it (R47). -/
structure FaultEntry where
  reason : FaultReason
  word : Word
  deriving DecidableEq, Repr

/-- The out-of-band arguments of a command (R80): the caller's buffer (R63) with its address and its
length in elements, the clock and rate of `new` (R400), and whether the host issues the command while
another one is in progress or the shared tables are being built (R70, R362; log 4). -/
structure LaunchArgs where
  buf : Nat
  bufLen : Nat
  clock : Nat
  rate : Nat
  overlaps : Bool
  deriving DecidableEq, Repr

/-- A command the host issues: its word (R80) and its launch arguments. -/
structure HostCall where
  word : Word
  args : LaunchArgs
  deriving DecidableEq, Repr

/-- A value a command returns to the host: a sample of `calcOne` (R310) or the byte of `status` (R321). -/
inductive Reply where
  | sample (x : Sample)
  | status (b : Byte)
  deriving DecidableEq, Repr

/-- Host memory (R63): address and byte pairs in rising order of address; an address that is not
listed has no value (log 6). -/
abbrev Memory := List Host.Cell

/-- The state of the machine. -/
structure State where
  /-- an instance exists: `new` has run (R362 `R_NO_INSTANCE`) -/
  created : Bool
  chip : Chip
  /-- the fault record, oldest first (R47) -/
  faults : List FaultEntry
  /-- the parameter `MAX_BATCH`; no command changes it (R9; log 5) -/
  maxBatch : Nat
  mem : Memory
  /-- the host's commands not yet executed, oldest first (R21; log 1) -/
  pending : List HostCall
  /-- launch arguments of the command being executed (R80; log 1) -/
  args : LaunchArgs
  /-- the value the last `calcOne` or `status` returned (log 7) -/
  reply : Option Reply
  deriving DecidableEq, Repr

/-- What stops the machine. -/
inductive Fault where
  /-- A command is issued to an instance that has faulted: "no further command executes" (R47, R360).
  Raised by every command. Safe: the spec gives no later state. -/
  | stopped (first : FaultEntry)
  /-- The pacing loop of `calcOne` (R310) does not end because `inp_step` is 0. No command makes such
  a state (R23, log 11). Raised by `calcOne`. Safe: the model stops where the pseudocode loops. -/
  | pacingNeverEnds
  deriving DecidableEq, Repr

/-- Commands the spec gives no meaning: they change no state and end the run (R362). -/
inductive Refusal where
  /-- An instruction without a meaning in this model, by its mnemonic. No arm uses it. Safe. -/
  | notModelled (mnemonic : String)
  /-- `R_CONCURRENT` (R362): raised by every command. Safe. -/
  | concurrent
  /-- `R_BUFFER` (R362, R65): raised by `calcBuffer` and `calcBufferStereo`. Safe. -/
  | buffer
  /-- `R_ENCODING` (R362): raised at decode, and by `setRate` and `new` with a zero argument (R400, R403). Safe. -/
  | encoding
  /-- `R_NO_INSTANCE` (R362): raised by every command but `new`. Safe. -/
  | noInstance
  deriving DecidableEq, Repr

/-! ## Reset values (70_reset_and_hazards.md R401) -/

/-- All dirty flags set (R41). -/
def Dirty.all : Dirty := ⟨true, true, true, true⟩

/-- No dirty flag set: the flags a commit leaves (R41). -/
def Dirty.none : Dirty := ⟨false, false, false, false⟩

/-- A slot after reset (R401). -/
def Slot.initial : Slot where
  am := false
  pm := false
  eg := false
  kr := false
  ml := 0
  kl := 0
  tl := 0
  ar := 0
  dr := 0
  sl := 0
  rr := 0
  ws := 0
  egState := .release
  egOut := 511
  phase := 0
  out1 := 0
  out2 := 0
  tll := 0
  rks := 0
  egRateH := 0
  egRateL := 0
  egShift := 0
  wave := 0
  dirty := Dirty.all

/-- A channel after reset (R401). -/
def Channel.initial : Channel where
  fnum := 0
  block := 0
  key := false
  fb := 0
  alg := false

/-- A timer after reset (R401). -/
def Timer.initial (w : Nat) : Timer w where
  latch := 0
  mask := false
  run := false
  cnt := 0
  pre := 0
  flag := false

/-- A converter after `new`, `reset` or `setRate` (R339). -/
def Converter.initial : Converter where
  timerNum := 0
  buf := Vector.replicate 16 0

/-- The instance as `RESET_STATE` leaves it (R401), for the given preserved fields: clock, rate and
whether the converter is present. -/
def Chip.initial (clock rate : Nat) (convPresent : Bool) : Chip where
  reg := Vector.replicate 256 0
  tick := 0
  outTime := 0
  outStep := clock
  inpStep := 72 * rate
  clockHz := clock
  rateHz := rate
  wse := false
  csm := false
  nts := false
  dam := false
  dvb := false
  rhythm := false
  rkey := 0
  t1 := Timer.initial 2
  t2 := Timer.initial 4
  csmPulse := false
  amPos := 0
  pmPos := 0
  noise := 1
  keyMask := 0
  muteMask := 0
  chan := Vector.replicate 9 Channel.initial
  slot := Vector.replicate 18 Slot.initial
  conv := if convPresent then some Converter.initial else none
  mixOut := 0

/-- Launch arguments at reset (log 1): an aligned buffer at address 0 that holds any 24-bit count of
elements, the clock and rate of log 2, no overlap. -/
def LaunchArgs.initial : LaunchArgs where
  buf := 0
  bufLen := 2 ^ 24
  clock := Config.resetClockHz
  rate := Config.resetRateHz
  overlaps := false

/-- The machine right after reset: R401's table for the instance that `new(3579552, 49716)` makes
(log 2), where the converter is absent (R330). -/
def State.reset : State where
  created := true
  chip := Chip.initial Config.resetClockHz Config.resetRateHz false
  faults := []
  maxBatch := Config.maxBatch
  mem := []
  pending := []
  args := LaunchArgs.initial
  reply := none

/-- The machine before `new` has run: no instance exists, and every command but `new` is refused
(R362 `R_NO_INSTANCE`). -/
def State.powerOn : State := { State.reset with created := false }

end Sys2Proof.Machine
end

