-- ==== Sys2Proof/Machine/Flags.lean ====
section
/-!
DEFINITION. Flags: the status byte (10_state.md R33), the timer flags (60_exceptions.md R371, R377)
and the dirty flags of the derived-field cache (R41, R142).
-/

namespace Sys2Proof.Machine

/-- `irq` = `t1_flag | t2_flag` (R33). -/
def Chip.irq (c : Chip) : Bool := c.t1.flag || c.t2.flag

/-- The status byte, `(irq << 7) | (t1_flag << 6) | (t2_flag << 5)`; bits 4..0 read 0 (R33). -/
def Chip.statusByte (c : Chip) : Byte :=
  BitVec.ofBool c.irq ++ (BitVec.ofBool c.t1.flag ++ (BitVec.ofBool c.t2.flag ++ 0#5))

/-- `IRQ_RESET()`: both timer flags cleared (R124, R377). -/
def Chip.irqReset (c : Chip) : Chip :=
  { c with t1 := { c.t1 with flag := false }, t2 := { c.t2 with flag := false } }

/-- The flag after an overflow: set unless the timer is masked (R371, R373). -/
def Timer.overflowFlag {w : Nat} (t : Timer w) : Bool := t.flag || !t.mask

/-- Dirty flags are ORed in (R41). -/
def Dirty.or (a b : Dirty) : Dirty :=
  ⟨a.wave || b.wave, a.tll || b.tll, a.rks || b.rks, a.egRate || b.egRate⟩

/-- {WAVE} (R135). -/
def Dirty.forWave : Dirty := ⟨true, false, false, false⟩
/-- {TLL} (R128). -/
def Dirty.forTll : Dirty := ⟨false, true, false, false⟩
/-- {EGRATE} (R129, R130, R205, R206). -/
def Dirty.forRate : Dirty := ⟨false, false, false, true⟩
/-- {RKS, EGRATE} (R126, R127). -/
def Dirty.forKeyScale : Dirty := ⟨false, false, true, true⟩
/-- {TLL, RKS, EGRATE} (R131, R132). -/
def Dirty.forPitch : Dirty := ⟨false, true, true, true⟩

/-- `dirty[s] |= d` (R41). -/
def Slot.markDirty (d : Dirty) (sl : Slot) : Slot := { sl with dirty := sl.dirty.or d }

end Sys2Proof.Machine
end

