-- ==== Sys2Proof/Syntax.lean ====
section
/-!
DEFINITION. The syntax: one constructor per row of spec/opcode_table.json, the sixteen register-write
classes of 40_register_writes.md and the eight host commands of 30_encoding.md R80.

A register write keeps its whole value byte, because `reg[a]` stores it whole (40_register_writes.md
R120). The rows of register 0x04 fix bit 7 of the value and keep the other seven. Slot and channel
numbers are decoded once (R84, R85). Out-of-band arguments (the buffer of a render command, the
clock and rate of `new`) are not part of the word (R80): they are launch arguments in the state.
-/

namespace Sys2Proof

inductive Instr where
  /-- `writeReg(0x04, v)` with `v[7]` = 1 (R124); `v` is bits 6..0. -/
  | irqReset (v : BitVec 7)
  /-- `writeReg(0x01, v)` (R121). -/
  | test (v : Byte)
  /-- `writeReg(0x02, v)` (R122). -/
  | timer1 (v : Byte)
  /-- `writeReg(0x03, v)` (R123). -/
  | timer2 (v : Byte)
  /-- `writeReg(0x04, v)` with `v[7]` = 0 (R125); `v` is bits 6..0. -/
  | timerCtl (v : BitVec 7)
  /-- `writeReg(0x08, v)` (R126). -/
  | mode (v : Byte)
  /-- `writeReg(0xBD, v)` (R133). -/
  | rhythm (v : Byte)
  /-- `writeReg(0x20+off, v)` (R127). -/
  | amVib (s : SlotId) (v : Byte)
  /-- `writeReg(0x40+off, v)` (R128). -/
  | kslTl (s : SlotId) (v : Byte)
  /-- `writeReg(0x60+off, v)` (R129). -/
  | arDr (s : SlotId) (v : Byte)
  /-- `writeReg(0x80+off, v)` (R130). -/
  | slRr (s : SlotId) (v : Byte)
  /-- `writeReg(0xE0+off, v)` (R135). -/
  | ws (s : SlotId) (v : Byte)
  /-- `writeReg(0xA0+c, v)` (R131). -/
  | fnumLo (c : ChanId) (v : Byte)
  /-- `writeReg(0xB0+c, v)` (R132). -/
  | keyBlock (c : ChanId) (v : Byte)
  /-- `writeReg(0xC0+c, v)` (R134). -/
  | fbAlg (c : ChanId) (v : Byte)
  /-- `writeReg(a, v)` for a reserved address (R136). -/
  | reserved (a : Byte) (v : Byte)
  /-- `calcOne()` (R310). -/
  | calcOne
  /-- `calcBuffer(buf, n)`, `buf` a launch argument (R311). -/
  | calcBuffer (n : BitVec 24)
  /-- `calcBufferStereo(buf, n)`, `buf` a launch argument (R312). -/
  | calcBufferStereo (n : BitVec 24)
  /-- `status()` (R321). -/
  | status
  /-- `setMask(m)` (R320). -/
  | setMask (m : BitVec 14)
  /-- `reset()` (R401). -/
  | reset
  /-- `setRate(r)`, in Hz (R403). -/
  | setRate (r : BitVec 24)
  /-- `new(clock, rate)`, both launch arguments (R400). -/
  | new
  deriving DecidableEq, Repr

end Sys2Proof
end

