-- ==== Sys2Proof/WellFormed.lean ====
section
/-!
DEFINITION. Which terms of `Instr` are commands. Slot and channel numbers and field widths are right
by their types; what is left is that a reserved write names a reserved address (30_encoding.md R88).
-/

namespace Sys2Proof

/-- The slot-group offsets that name no slot: 0x06, 0x07, 0x0E, 0x0F, 0x16..0x1F (R88). -/
def offsetNamesNoSlot (off : Nat) : Bool :=
  off == 0x06 || off == 0x07 || off == 0x0E || off == 0x0F || decide (0x16 ≤ off)

/-- The reserved addresses, as R88 lists them. -/
def reservedAddr (a : Byte) : Bool :=
  let n := a.toNat
  n == 0x00 || decide (0x05 ≤ n ∧ n ≤ 0x07) || decide (0x09 ≤ n ∧ n ≤ 0x1F)
    || decide (0xA9 ≤ n ∧ n ≤ 0xAF) || decide (0xB9 ≤ n ∧ n ≤ 0xBC) || n == 0xBE || n == 0xBF
    || decide (0xC9 ≤ n ∧ n ≤ 0xDF)
    || (decide (0x20 ≤ n ∧ n ≤ 0x9F) && offsetNamesNoSlot (n % 32))
    || (decide (0xE0 ≤ n) && offsetNamesNoSlot (n % 32))

/-- A term is well formed when a reserved write names a reserved address (R88). -/
def Instr.wellFormed : Instr → Bool
  | .irqReset _ => true
  | .test _ => true
  | .timer1 _ => true
  | .timer2 _ => true
  | .timerCtl _ => true
  | .mode _ => true
  | .rhythm _ => true
  | .amVib _ _ => true
  | .kslTl _ _ => true
  | .arDr _ _ => true
  | .slRr _ _ => true
  | .ws _ _ => true
  | .fnumLo _ _ => true
  | .keyBlock _ _ => true
  | .fbAlg _ _ => true
  | .reserved a _ => reservedAddr a
  | .calcOne => true
  | .calcBuffer _ => true
  | .calcBufferStereo _ => true
  | .status => true
  | .setMask _ => true
  | .reset => true
  | .setRate _ => true
  | .new => true

end Sys2Proof
end

