-- ==== Sys2Proof/Decode.lean ====
section
/-!
DEFINITION. Decoding of command words (30_encoding.md R80 to R91), total, and the encoder. A word
whose code is not in R80's table, or whose must-be-zero bits are not zero, decodes to nothing: the
step refuses it (`R_ENCODING`, 60_exceptions.md R362).
-/

namespace Sys2Proof

/-- `SLOT_OF(off)` (R84), none where the offset names no slot. -/
def slotOf (off : BitVec 5) : Option SlotId :=
  if h : off.toNat % 8 < 6 ∧ off.toNat < 0x16 then
    some ⟨off.toNat / 8 * 6 + off.toNat % 8, by omega⟩
  else none

/-- `OFF(s)`, the register offset of slot `s` (R92). -/
def offsetOf (s : SlotId) : Nat := s.val / 6 * 8 + s.val % 6

/-- The channel number of a channel-group address, `c = a & 0x0F` for `c` in 0..8 (R83). -/
def chanOf (a : Byte) : Option ChanId :=
  if h : a.toNat % 16 < 9 then some ⟨a.toNat % 16, h⟩ else none

/-- A slot-group write, or a reserved one where the offset names no slot (R88). -/
def slotWrite (mk : SlotId → Byte → Instr) (a v : Byte) : Instr :=
  match slotOf (a.extractLsb' 0 5) with
  | some s => mk s v
  | none => .reserved a v

/-- A channel-group write, or a reserved one where `c` > 8 (R88). -/
def chanWrite (mk : ChanId → Byte → Instr) (a v : Byte) : Instr :=
  match chanOf a with
  | some c => mk c v
  | none => .reserved a v

/-- The register-write dispatch in the order of R89. -/
def decodeWrite (a v : Byte) : Instr :=
  if a = 0x04 ∧ v.msb = true then .irqReset (v.extractLsb' 0 7)
  else if a = 0x01 then .test v
  else if a = 0x02 then .timer1 v
  else if a = 0x03 then .timer2 v
  else if a = 0x04 then .timerCtl (v.extractLsb' 0 7)
  else if a = 0x08 then .mode v
  else if a = 0xBD then .rhythm v
  else if a.extractLsb' 5 3 = 1 then slotWrite .amVib a v
  else if a.extractLsb' 5 3 = 2 then slotWrite .kslTl a v
  else if a.extractLsb' 5 3 = 3 then slotWrite .arDr a v
  else if a.extractLsb' 5 3 = 4 then slotWrite .slRr a v
  else if a.extractLsb' 5 3 = 7 then slotWrite .ws a v
  else if a.extractLsb' 4 4 = 0xA then chanWrite .fnumLo a v
  else if a.extractLsb' 4 4 = 0xB then chanWrite .keyBlock a v
  else if a.extractLsb' 4 4 = 0xC then chanWrite .fbAlg a v
  else .reserved a v

/-- A command whose 24 operand bits are all zero (R80). -/
def bare (i : Instr) (operand : BitVec 24) : Option Instr :=
  if operand = 0 then some i else none

/-- The decoder: the command code selects the command, the low 24 bits are its operand (R80). -/
def decode (w : Word) : Option Instr :=
  let code := w.extractLsb' 24 8
  let operand := w.extractLsb' 0 24
  if code = 0x01 then
    if w.extractLsb' 16 8 = 0 then some (decodeWrite (w.extractLsb' 8 8) (w.extractLsb' 0 8)) else none
  else if code = 0x02 then bare .calcOne operand
  else if code = 0x03 then some (.calcBuffer operand)
  else if code = 0x04 then some (.calcBufferStereo operand)
  else if code = 0x05 then bare .status operand
  else if code = 0x06 then
    if w.extractLsb' 14 10 = 0 then some (.setMask (w.extractLsb' 0 14)) else none
  else if code = 0x07 then bare .reset operand
  else if code = 0x08 then some (.setRate operand)
  else if code = 0x09 then bare .new operand
  else none

/-- The word of a command code and its operand (R80). -/
def commandWord (code : Byte) (operand : BitVec 24) : Word := code ++ operand

/-- The word of `writeReg(a, v)` (R80, R81). -/
def writeWord (a v : Byte) : Word := commandWord 0x01 (0#8 ++ (a ++ v))

/-- The address of slot `s` in the slot group that starts at `base` (R82, R92). -/
def slotAddr (base : Byte) (s : SlotId) : Byte := base + BitVec.ofNat 8 (offsetOf s)

/-- The address of channel `c` in the channel group that starts at `base` (R83). -/
def chanAddr (base : Byte) (c : ChanId) : Byte := base + BitVec.ofNat 8 c.val

/-- The encoder: the command word of an instruction. -/
def encode : Instr → Word
  | .irqReset v => writeWord 0x04 (1#1 ++ v)
  | .test v => writeWord 0x01 v
  | .timer1 v => writeWord 0x02 v
  | .timer2 v => writeWord 0x03 v
  | .timerCtl v => writeWord 0x04 (0#1 ++ v)
  | .mode v => writeWord 0x08 v
  | .rhythm v => writeWord 0xBD v
  | .amVib s v => writeWord (slotAddr 0x20 s) v
  | .kslTl s v => writeWord (slotAddr 0x40 s) v
  | .arDr s v => writeWord (slotAddr 0x60 s) v
  | .slRr s v => writeWord (slotAddr 0x80 s) v
  | .ws s v => writeWord (slotAddr 0xE0 s) v
  | .fnumLo c v => writeWord (chanAddr 0xA0 c) v
  | .keyBlock c v => writeWord (chanAddr 0xB0 c) v
  | .fbAlg c v => writeWord (chanAddr 0xC0 c) v
  | .reserved a v => writeWord a v
  | .calcOne => commandWord 0x02 0
  | .calcBuffer n => commandWord 0x03 n
  | .calcBufferStereo n => commandWord 0x04 n
  | .status => commandWord 0x05 0
  | .setMask m => commandWord 0x06 (0#10 ++ m)
  | .reset => commandWord 0x07 0
  | .setRate r => commandWord 0x08 r
  | .new => commandWord 0x09 0

/-- The instruction the decoder reads from a word whose bits are `w`, numbered as the opcode table
numbers them; bits from `nbits` up are zero. -/
def decodeTableWord (nbits w : Nat) : Option Instr := decode (BitVec.ofNat 32 (w % 2 ^ nbits))

/-- The word of the host call `writeReg(reg, value)` on integers, both masked to 8 bits on ingestion
(20_memory.md R61, 40_register_writes.md R120). -/
def writeRegCall (reg value : Nat) : Word := writeWord (BitVec.ofNat 8 reg) (BitVec.ofNat 8 value)

/-- The pseudo-command `noteOn(c, f, b)` (R92). -/
def noteOn (c : ChanId) (f : BitVec 10) (b : BitVec 3) : List Word :=
  [writeRegCall (0xA0 + c.val) (f.toNat % 256), writeRegCall (0xB0 + c.val) (0x20 + b.toNat * 4 + f.toNat / 256)]

/-- The pseudo-command `noteOff(c, f, b)` (R92). -/
def noteOff (c : ChanId) (f : BitVec 10) (b : BitVec 3) : List Word :=
  [writeRegCall (0xB0 + c.val) (b.toNat * 4 + f.toNat / 256)]

/-- The pseudo-command `setSlot(s, r, v)` for a slot group base `r` (R92). -/
def setSlot (s : SlotId) (r v : Byte) : List Word := [writeWord (slotAddr r s) v]

/-- The pseudo-command `render(n)`: `calcBufferStereo(scratch, n)` (R92); the scratch buffer is a launch argument. -/
def renderWords (n : BitVec 24) : List Word := [commandWord 0x04 n]

end Sys2Proof
end

