-- ==== Sys2Proof/Machine/Operands.lean ====
section
/-!
DEFINITION. Operand forms: the bit fields of a register value (30_encoding.md R87, R90), the pairing
of slots and channels (R85, R86), and the host buffer of a render command (20_memory.md R63, R65).
No field is signed or scaled at decode (R90).
-/

namespace Sys2Proof.Machine

/-- The bits `hi` down to `lo` of a value, `v[hi:lo]`, where the field is `w` = `hi - lo + 1` bits wide (R10). -/
def field (v : Byte) (lo w : Nat) : BitVec w := v.extractLsb' lo w

/-- Bit `i` of a value, `v[i]` (R10). -/
def bit (v : Byte) (i : Nat) : Bool := v.getLsbD i

/-- The value byte of a register 0x04 write, whose bit 7 the row fixes (R124, R125). -/
def timerByte (top : Bool) (v : BitVec 7) : Byte := BitVec.ofBool top ++ v

/-- `MOD(c)` (R85). -/
def modSlot (c : ChanId) : SlotId := ⟨c.val / 3 * 6 + c.val % 3, by omega⟩

/-- `CAR(c)` = `MOD(c) + 3` (R85). -/
def carSlot (c : ChanId) : SlotId := ⟨c.val / 3 * 6 + c.val % 3 + 3, by omega⟩

/-- The channel of a slot (R85, over slot numbers). -/
def chanOfSlot (s : SlotId) : ChanId := ⟨s.val / 6 * 3 + s.val % 3, by omega⟩

/-- A slot is its channel's modulator when its offset's low three bits are below 3 (R85). -/
def isModulator (s : SlotId) : Bool := decide (s.val % 6 < 3)

/-- `fnum` assembled from its high and low parts (R90). -/
def assembleFnum (hi : BitVec 2) (lo : Byte) : BitVec 10 := hi ++ lo

/-- Bytes per element of the two render commands: a 16-bit sample, a 32-bit frame (R63). -/
def sampleBytes : Nat := 2
def frameBytes : Nat := 4

/-- The buffer of a render command is aligned to its element and holds at least `n` elements (R65). -/
def bufferOk (a : LaunchArgs) (elemBytes n : Nat) : Bool :=
  decide (a.buf % elemBytes = 0) && decide (n ≤ a.bufLen)

/-- A stereo frame: the sample in both halves, `zext_16(s) | (zext_16(s) << 16)` (R63, R312). -/
def stereoFrame (x : Sample) : BitVec 32 := x.setWidth 32 ||| (x.setWidth 32 <<< 16)

/-- The bytes of a word of `8 * n` bits at increasing addresses, least significant first (R64). -/
def bytesLE (n : Nat) (w : BitVec (8 * n)) : List Byte :=
  (List.range n).map fun i => w.extractLsb' (8 * i) 8

/-- The two bytes of a sample (R64). -/
def sampleLE (x : Sample) : List Byte := bytesLE 2 x

/-- The four bytes of a stereo frame (R64). -/
def frameLE (x : Sample) : List Byte := bytesLE 4 (stereoFrame x)

end Sys2Proof.Machine
end

