-- ==== Sys2Proof/Machine/Tables.lean ====
section
/-!
DEFINITION. The derived constant tables (10_state.md R46) and the fixed sizes of 00_scope.md R9, each
written out as the spec lists it.
-/

namespace Sys2Proof.Machine

/-- `EG_MUTE` (R9): the greatest attenuation. -/
def egMute : Nat := 511

/-- `RHYTHM_GAIN` (R9, R277). -/
def rhythmGain : Int := 2

/-- Input clocks per native tick (R290, R430). -/
def clocksPerTick : Nat := 72

/-- `LW` = 2 * `SINC_HALF_WIDTH` taps (R331). -/
def sincWidth : Nat := 16

/-- `SINC_RESO` (R331). -/
def sincReso : Nat := 256

/-- `SINC_AMP_BITS` (R331). -/
def sincAmpBits : Nat := 12

/-- `ML_TABLE` (R160): twice the frequency multiple. -/
def mlTable : List Nat := [1, 2, 4, 6, 8, 10, 12, 14, 16, 18, 20, 20, 24, 24, 30, 30]

/-- `ML_TABLE[ml]` (R160). -/
def multiple (ml : BitVec 4) : Nat := mlTable.getD ml.toNat 0

/-- `PM_TABLE` (R167), full depth: row `r` the top three bits of fnum, column `p` = `pm_pos`. -/
def pmTable : List (List Int) :=
  [[0, 0, 0, 0, 0, 0, 0, 0],
   [0, 0, 1, 0, 0, 0, -1, 0],
   [0, 1, 2, 1, 0, -1, -2, -1],
   [0, 1, 3, 1, 0, -1, -3, -1],
   [0, 2, 4, 2, 0, -2, -4, -2],
   [0, 2, 5, 2, 0, -2, -5, -2],
   [0, 3, 6, 3, 0, -3, -6, -3],
   [0, 3, 7, 3, 0, -3, -7, -3]]

/-- `AM_TABLE[i]` (R172): the 210-entry triangular ramp `T(i) >> 2`. -/
def amTable (i : Nat) : Nat := (if i < 105 then i else 210 - i) >>> 2

/-- `STEP_SLOW` (R195), rates 1 to 12. -/
def stepSlow : List (List Nat) :=
  [[0, 1, 0, 1, 0, 1, 0, 1],
   [0, 1, 0, 1, 1, 1, 0, 1],
   [0, 1, 1, 1, 0, 1, 1, 1],
   [0, 1, 1, 1, 1, 1, 1, 1]]

/-- `STEP_FAST` (R195), rate 13; rate 14 uses twice these. -/
def stepFast : List (List Nat) :=
  [[1, 1, 1, 1, 1, 1, 1, 1],
   [2, 1, 1, 1, 2, 1, 1, 1],
   [2, 1, 2, 1, 2, 1, 2, 1],
   [2, 2, 2, 1, 2, 2, 2, 1]]

/-- `KSL_ROM` (R231). -/
def kslRom : List Nat := [0, 32, 40, 45, 48, 51, 53, 55, 56, 58, 59, 60, 61, 62, 63, 64]

/-- `KSL_SHIFT` (R231). -/
def kslShift : List Nat := [8, 1, 2, 0]

/-- `LOGSIN` (R230). -/
def logSinTable : List Nat :=
  [2137, 1731, 1543, 1419, 1326, 1252, 1190, 1137, 1091, 1050, 1013, 979, 949, 920, 894, 869]
  ++ [846, 825, 804, 785, 767, 749, 732, 717, 701, 687, 672, 659, 646, 633, 621, 609]
  ++ [598, 587, 576, 566, 556, 546, 536, 527, 518, 509, 501, 492, 484, 476, 468, 461]
  ++ [453, 446, 439, 432, 425, 418, 411, 405, 399, 392, 386, 380, 375, 369, 363, 358]
  ++ [352, 347, 341, 336, 331, 326, 321, 316, 311, 307, 302, 297, 293, 289, 284, 280]
  ++ [276, 271, 267, 263, 259, 255, 251, 248, 244, 240, 236, 233, 229, 226, 222, 219]
  ++ [215, 212, 209, 205, 202, 199, 196, 193, 190, 187, 184, 181, 178, 175, 172, 169]
  ++ [167, 164, 161, 159, 156, 153, 151, 148, 146, 143, 141, 138, 136, 134, 131, 129]
  ++ [127, 125, 122, 120, 118, 116, 114, 112, 110, 108, 106, 104, 102, 100, 98, 96]
  ++ [94, 92, 91, 89, 87, 85, 83, 82, 80, 78, 77, 75, 74, 72, 70, 69]
  ++ [67, 66, 64, 63, 62, 60, 59, 57, 56, 55, 53, 52, 51, 49, 48, 47]
  ++ [46, 45, 43, 42, 41, 40, 39, 38, 37, 36, 35, 34, 33, 32, 31, 30]
  ++ [29, 28, 27, 26, 25, 24, 23, 23, 22, 21, 20, 20, 19, 18, 17, 17]
  ++ [16, 15, 15, 14, 13, 13, 12, 12, 11, 10, 10, 9, 9, 8, 8, 7]
  ++ [7, 7, 6, 6, 5, 5, 5, 4, 4, 4, 3, 3, 3, 2, 2, 2]
  ++ [2, 1, 1, 1, 1, 1, 1, 1, 0, 0, 0, 0, 0, 0, 0, 0]

/-- `LOGSIN[x]` (R230). -/
def logSin (x : BitVec 8) : Nat := logSinTable.getD x.toNat 0

/-- `EXP_TABLE` (R232). -/
def expTable : List Nat :=
  [0, 3, 6, 8, 11, 14, 17, 20, 22, 25, 28, 31, 34, 37, 40, 42]
  ++ [45, 48, 51, 54, 57, 60, 63, 66, 69, 72, 75, 78, 81, 84, 87, 90]
  ++ [93, 96, 99, 102, 105, 108, 111, 114, 117, 120, 123, 126, 130, 133, 136, 139]
  ++ [142, 145, 148, 152, 155, 158, 161, 164, 168, 171, 174, 177, 181, 184, 187, 190]
  ++ [194, 197, 200, 204, 207, 210, 214, 217, 220, 224, 227, 231, 234, 237, 241, 244]
  ++ [248, 251, 255, 258, 262, 265, 268, 272, 276, 279, 283, 286, 290, 293, 297, 300]
  ++ [304, 308, 311, 315, 318, 322, 326, 329, 333, 337, 340, 344, 348, 352, 355, 359]
  ++ [363, 367, 370, 374, 378, 382, 385, 389, 393, 397, 401, 405, 409, 412, 416, 420]
  ++ [424, 428, 432, 436, 440, 444, 448, 452, 456, 460, 464, 468, 472, 476, 480, 484]
  ++ [488, 492, 496, 501, 505, 509, 513, 517, 521, 526, 530, 534, 538, 542, 547, 551]
  ++ [555, 560, 564, 568, 572, 577, 581, 585, 590, 594, 599, 603, 607, 612, 616, 621]
  ++ [625, 630, 634, 639, 643, 648, 652, 657, 661, 666, 670, 675, 680, 684, 689, 693]
  ++ [698, 703, 708, 712, 717, 722, 726, 731, 736, 741, 745, 750, 755, 760, 765, 770]
  ++ [774, 779, 784, 789, 794, 799, 804, 809, 814, 819, 824, 829, 834, 839, 844, 849]
  ++ [854, 859, 864, 869, 874, 880, 885, 890, 895, 900, 906, 911, 916, 921, 927, 932]
  ++ [937, 942, 948, 953, 959, 964, 969, 975, 980, 986, 991, 996, 1002, 1007, 1013, 1018]

/-- `EXP_TABLE[x]` (R232). -/
def expEntry (x : BitVec 8) : Nat := expTable.getD x.toNat 0

end Sys2Proof.Machine
end

