-- ==== Sys2Proof/Machine/Ops.lean ====
section
/-!
DEFINITION. The named operations over the register bank, slots, channels and host memory, the checks
every command passes before it runs (60_exceptions.md R362, R364), and raising a fault (R360, R361).
-/

namespace Sys2Proof.Machine

/-! ## The instance -/

/-- `reg[a] <- v` (40_register_writes.md R120). -/
def Chip.setReg (c : Chip) (a v : Byte) : Chip := { c with reg := c.reg.set a.toNat v }

/-- `reg[a]` (00_scope.md R11); no host command returns it (R24). -/
def Chip.regAt (c : Chip) (a : Byte) : Byte := c.reg[a.toNat]

/-- `slot[s]` (R11). -/
def Chip.slotAt (c : Chip) (s : SlotId) : Slot := c.slot[s.val]

/-- `ch[c]` (R11). -/
def Chip.chanAt (c : Chip) (ch : ChanId) : Channel := c.chan[ch.val]

/-- Slot `s` rewritten by `f`. -/
def Chip.updSlot (c : Chip) (s : SlotId) (f : Slot → Slot) : Chip :=
  { c with slot := c.slot.set s.val (f (c.slotAt s)) }

/-- Channel `ch` rewritten by `f`. -/
def Chip.updChan (c : Chip) (ch : ChanId) (f : Channel → Channel) : Chip :=
  { c with chan := c.chan.set ch.val (f (c.chanAt ch)) }

/-- Every slot rewritten by `f`, none reading another slot's result. -/
def Chip.mapSlots (c : Chip) (f : SlotId → Slot → Slot) : Chip :=
  { c with slot := Vector.ofFn fun s => f s (c.slotAt s) }

/-- The channel whose fnum and block slot `s` uses (R85, R276). -/
def Chip.chanFor (c : Chip) (s : SlotId) : Channel := c.chanAt (chanOfSlot s)

/-- `dirty[MOD(ch)]` and `dirty[CAR(ch)]` marked (R131, R132). -/
def Chip.markChanDirty (c : Chip) (ch : ChanId) (d : Dirty) : Chip :=
  (c.updSlot (modSlot ch) (Slot.markDirty d)).updSlot (carSlot ch) (Slot.markDirty d)

/-! ## Host memory (20_memory.md R63, R64) -/

/-- `MemWrite(a, 1, b)`. -/
def Memory.writeByte (a : Nat) (b : Byte) : Memory → Memory
  | [] => [(a, b)]
  | (x, y) :: rest =>
    if a < x then (a, b) :: (x, y) :: rest
    else if a = x then (a, b) :: rest
    else (x, y) :: Memory.writeByte a b rest

/-- The byte at an address, none where nothing has been written (log 6). The machine itself never
reads a host buffer (R63). -/
def Memory.readByte (a : Nat) : Memory → Option Byte
  | [] => none
  | (x, y) :: rest => if a = x then some y else Memory.readByte a rest

/-- The canonical form: addresses strictly rising. An unlisted address has no value, so no listed
entry equals what it would read as. -/
def Memory.wf : Memory → Bool
  | [] => true
  | [_] => true
  | x :: y :: rest => decide (x.1 < y.1) && Memory.wf (y :: rest)

/-- `MemWrite(a, n, v)`, the bytes given at increasing addresses (R64). -/
def Memory.writeBytes (a : Nat) : List Byte → Memory → Memory
  | [], m => m
  | b :: bs, m => Memory.writeBytes (a + 1) bs (Memory.writeByte a b m)

/-- The elements of a buffer stored from its address on, each `elem.length` bytes after the one
before (R63). -/
def Memory.storeElems (a : Nat) : List (List Byte) → Memory → Memory
  | [], m => m
  | e :: es, m => Memory.storeElems (a + e.length) es (Memory.writeBytes a e m)

/-! ## Commands -/

/-- The instance replaced. -/
def State.setChip (s : State) (c : Chip) : State := { s with chip := c }

/-- A value returned to the host (log 7). -/
def State.setReply (s : State) (r : Reply) : State := { s with reply := some r }

/-- A command taken from the host: off the queue, its launch arguments in place (log 1). -/
def State.accept (s : State) (h : HostCall) (rest : List HostCall) : State :=
  { s with pending := rest, args := h.args }

/-- The checks of one command before it runs, in the order of R364: a faulted instance executes
nothing (R47), then `R_CONCURRENT`, then the command's own refusal (`R_BUFFER` or `R_ENCODING`), then
`R_NO_INSTANCE` where the command needs an instance; else the command runs. -/
def issue (s : State) (own : Option Refusal) (needsInst : Bool)
    (run : Host.Outcome State Fault Refusal) : Host.Outcome State Fault Refusal :=
  match s.faults with
  | e :: _ => .fault (.stopped e)
  | [] =>
    if s.args.overlaps then .refused .concurrent
    else
      match own with
      | some r => .refused r
      | none => if needsInst && !s.created then .refused .noInstance else run

/-- `raise Fault(reason)` (R11, R360): the reason and the command word are recorded, nothing else
changes; the instance then executes nothing more (R47). -/
def raiseFault (s : State) (reason : FaultReason) (word : Word) : State :=
  { s with faults := s.faults ++ [⟨reason, word⟩] }

/-- The common path of a register write (R120): the value goes into the bank, then the fields of the
matched rule change. No register write faults (R363). -/
def registerWrite (a v : Byte) (fields : Chip → Chip) (s : State) :
    Host.Outcome State Fault Refusal :=
  issue s none true (.next (s.setChip (fields (s.chip.setReg a v))))

/-- A word that decodes to nothing is refused `R_ENCODING` (R362). -/
def rejectWord (s : State) : Host.Outcome State Fault Refusal :=
  issue s (some .encoding) false (.refused .encoding)

end Sys2Proof.Machine
end

