-- ==== Sys2Proof/Machine/Envelope.lean ====
section
/-!
DEFINITION. Envelope generator (42_envelope.md), the derived fields of a slot and their commit
(10_state.md R40 to R42), and key edges (R205, R206).
-/

namespace Sys2Proof.Machine

/-! ## Derived fields -/

/-- `rks` (R191). -/
def rksOf (nts : Bool) (ch : Channel) (kr : Bool) : Nat :=
  let noteBit := if nts then ch.fnum.getLsbD 8 else ch.fnum.getLsbD 9
  let kcode := (ch.block.toNat <<< 1) ||| noteBit.toNat
  if kr then kcode else kcode >>> 2

/-- `parameter_rate` of the current state (R192). -/
def Slot.parameterRate (sl : Slot) : Nat :=
  match sl.egState with
  | .attack => sl.ar.toNat
  | .decay => sl.dr.toNat
  | .sustain => if sl.eg then 0 else sl.rr.toNat
  | .release => sl.rr.toNat

/-- `eg_rate_h` (R193). -/
def rateHigh (p rks : Nat) : Nat := if p = 0 then 0 else min 15 (p + (rks >>> 2))

/-- `eg_rate_l` (R193). -/
def rateLow (p rks : Nat) : Nat := if p = 0 then 0 else rks &&& 3

/-- `eg_shift` (R194). -/
def shiftOf (h : Nat) : Nat := if 1 ≤ h ∧ h ≤ 12 then 12 - h else 0

/-- `tll` (43_waveform.md R231). -/
def tllOf (ch : Channel) (tl : BitVec 6) (kl : BitVec 2) : Nat :=
  let base := (kslRom.getD (ch.fnum.toNat >>> 6) 0 <<< 2) - ((8 - ch.block.toNat) <<< 5)
  (tl.toNat <<< 2) + (base >>> kslShift.getD kl.toNat 0)

/-- The commit of one slot (R42): every flagged derived field recomputed, the flags cleared. The
envelope rate is computed from the `rks` the same commit leaves. -/
def commitSlot (nts : Bool) (ch : Channel) (sl : Slot) : Slot :=
  let rks := if sl.dirty.rks then rksOf nts ch sl.kr else sl.rks
  let p := sl.parameterRate
  { sl with
    wave := if sl.dirty.wave then sl.ws else sl.wave
    tll := if sl.dirty.tll then tllOf ch sl.tl sl.kl else sl.tll
    rks := rks
    egRateH := if sl.dirty.egRate then rateHigh p rks else sl.egRateH
    egRateL := if sl.dirty.egRate then rateLow p rks else sl.egRateL
    egShift := if sl.dirty.egRate then shiftOf (rateHigh p rks) else sl.egShift
    dirty := Dirty.none }

/-- `COMMIT()` over all slots (R42). -/
def Chip.commit (c : Chip) : Chip := c.mapSlots fun s sl => commitSlot c.nts (c.chanFor s) sl

/-! ## One envelope step -/

/-- An update is due at this tick (R196). -/
def Slot.updateDue (tick : BitVec 16) (sl : Slot) : Bool :=
  decide (0 < sl.egRateH) && decide (tick.toNat % 2 ^ sl.egShift = 0)

/-- The step of an update (R197). -/
def Slot.stepValue (tick : BitVec 16) (sl : Slot) : Nat :=
  if sl.egRateH ≤ 12 then (stepSlow.getD sl.egRateL []).getD ((tick.toNat >>> sl.egShift) &&& 7) 0
  else if sl.egRateH = 13 then (stepFast.getD sl.egRateL []).getD (tick.toNat &&& 7) 0
  else if sl.egRateH = 14 then 2 * (stepFast.getD sl.egRateL []).getD (tick.toNat &&& 7) 0
  else 4

/-- The ATTACK update (R198); `>>` is floor. -/
def attackLevel (egOut step : Nat) : Nat :=
  if egOut = 0 then 0
  else Int.toNat (max 0 ((egOut : Int) + (((-(egOut : Int) - 1) * (step : Int)) >>> (3 : Nat))))

/-- The update of DECAY, SUSTAIN and RELEASE (R200 to R202). -/
def decayLevel (egOut step : Nat) : Nat := min egMute (egOut + step)

/-- The level after an update with `step` in the current state (R198, R200 to R202). -/
def Slot.updatedLevel (step : Nat) (sl : Slot) : Nat :=
  match sl.egState with
  | .attack => attackLevel sl.egOut step
  | .decay => decayLevel sl.egOut step
  | .sustain => decayLevel sl.egOut step
  | .release => decayLevel sl.egOut step

/-- The state after the transition checks that follow the update (R199, R200); one transition a tick (R203).
DESIGN CHOICE (log 18, unsafe): a slot in ATTACK at level 0 enters DECAY at attack rate 0 too, as the first
sentence of R199 says of every tick; its second sentence would keep that slot in ATTACK. -/
def Slot.nextState (sl : Slot) : EgState :=
  match sl.egState with
  | .attack => if sl.egOut = 0 then .decay else .attack
  | .decay => if sl.sl ≠ 15 ∧ sl.egOut >>> 4 = sl.sl.toNat then .sustain else .decay
  | .sustain => .sustain
  | .release => .release

/-- Entering a state: the rate becomes dirty when the state changes (R142, R203). -/
def Slot.enter (st : EgState) (sl : Slot) : Slot :=
  if st = sl.egState then sl else { sl with egState := st }.markDirty Dirty.forRate

/-- `EG_STEP` of a slot whose derived fields are committed (R291 step 4): the update at this tick's
rate, then the transition checks. -/
def Slot.egStep (tick : BitVec 16) (sl : Slot) : Slot :=
  let sl1 := { sl with egOut := if sl.updateDue tick then sl.updatedLevel (sl.stepValue tick) else sl.egOut }
  sl1.enter sl1.nextState

/-! ## Key edges -/

/-- The effective attack rate equals 15 (R205), read from the committed `rks`. -/
def Slot.attacksAtOnce (sl : Slot) : Bool :=
  decide (sl.ar ≠ 0) && decide (min 15 (sl.ar.toNat + (sl.rks >>> 2)) = 15)

/-- `SLOT_ON` (R205), after the commit of the keyed slot (R141). -/
def slotOn (nts : Bool) (ch : Channel) (sl : Slot) : Slot :=
  let sl := commitSlot nts ch sl
  let sl := { sl with phase := 0 }
  let sl := if sl.attacksAtOnce then { sl with egState := .decay, egOut := 0 } else { sl with egState := .attack }
  sl.markDirty Dirty.forRate

/-- `SLOT_OFF` (R206). -/
def slotOff (sl : Slot) : Slot := { sl with egState := .release }.markDirty Dirty.forRate

/-- The key state slot `s` should have (R140): its channel's key bit or the CSM pulse, or with
`rhythm` its percussion trigger bit (R86). -/
def Chip.wantsKey (c : Chip) (s : SlotId) : Bool :=
  (c.chanFor s).key || c.csmPulse ||
    (c.rhythm &&
      match s.val with
      | 12 => c.rkey.getLsbD 4
      | 15 => c.rkey.getLsbD 4
      | 13 => c.rkey.getLsbD 0
      | 16 => c.rkey.getLsbD 3
      | 14 => c.rkey.getLsbD 2
      | 17 => c.rkey.getLsbD 1
      | _ => false)

/-- The full desired key bitmask `want` (R140). -/
def Chip.wantMask (c : Chip) : BitVec 18 := BitVec.ofFnLE c.wantsKey

/-- The effect of one slot's key edge, if it has one (R140): rising edges key on, falling edges key off. -/
def Chip.keyEdge (c : Chip) (s : SlotId) (sl : Slot) : Slot :=
  match c.keyMask.getLsbD s.val, c.wantsKey s with
  | false, true => slotOn c.nts (c.chanFor s) sl
  | true, false => slotOff sl
  | false, false => sl
  | true, true => sl

/-- `UPDATE_KEYS()` (R140). No slot's edge reads another slot, so their order does not show (R141). -/
def Chip.updateKeys (c : Chip) : Chip := { c.mapSlots c.keyEdge with keyMask := c.wantMask }

end Sys2Proof.Machine
end

