-- ==== Sys2Proof/Machine/ChannelWrites.lean ====
section
/-!
DEFINITION. The meanings of the per-channel register writes (40_register_writes.md R131, R132, R134).
-/

namespace Sys2Proof.Machine

/-- R131. -/
def execFnumLo (ch : ChanId) (v : Byte) (s : State) : Host.Outcome State Fault Refusal :=
  registerWrite (chanAddr 0xA0 ch) v
    (fun c => (c.updChan ch fun k => { k with fnum := assembleFnum (k.fnum.extractLsb' 8 2) v }).markChanDirty ch Dirty.forPitch) s

/-- R132. -/
def execKeyBlock (ch : ChanId) (v : Byte) (s : State) : Host.Outcome State Fault Refusal :=
  registerWrite (chanAddr 0xB0 ch) v
    (fun c => ((c.updChan ch fun k =>
        { k with fnum := assembleFnum (field v 0 2) (k.fnum.extractLsb' 0 8), block := field v 2 3, key := bit v 5 }).markChanDirty
          ch Dirty.forPitch).updateKeys) s

/-- R134. -/
def execFbAlg (ch : ChanId) (v : Byte) (s : State) : Host.Outcome State Fault Refusal :=
  registerWrite (chanAddr 0xC0 ch) v
    (fun c => c.updChan ch fun k => { k with fb := field v 1 3, alg := bit v 0 }) s

end Sys2Proof.Machine
end

