-- ==== Sys2Proof/Machine/Timers.lean ====
section
/-!
DEFINITION. The interval timers and the CSM key pulse (60_exceptions.md R370 to R376), and the timer
control write (40_register_writes.md R125).
-/

namespace Sys2Proof.Machine

/-- The prescaler, then the counter of a running timer (R370, R371): the next timer and whether it
overflowed. A stopped timer keeps its values. -/
def Timer.step {w : Nat} (t : Timer w) : Timer w × Bool :=
  if t.run then
    let pre := t.pre + 1
    if pre = 0 then
      if t.cnt = 255 then ({ t with pre := pre, cnt := t.latch, flag := t.overflowFlag }, true)
      else ({ t with pre := pre, cnt := t.cnt + 1 }, false)
    else ({ t with pre := pre }, false)
  else (t, false)

/-- Timer 1 of `TIMER_STEP()`: an overflow while `csm` = 1 starts the key pulse (R371, R374). -/
def Chip.timer1Step (c : Chip) : Chip :=
  let r := c.t1.step
  let c := { c with t1 := r.1 }
  if r.2 && c.csm then { c with csmPulse := true }.updateKeys else c

/-- Timer 2 of `TIMER_STEP()` (R371). -/
def Chip.timer2Step (c : Chip) : Chip := { c with t2 := c.t2.step.1 }

/-- `TIMER_STEP()` (R370): timer 1 before timer 2 (R376). -/
def Chip.timerStep (c : Chip) : Chip := c.timer1Step.timer2Step

/-- The end of a CSM pulse, the first part of step 2 of a tick (R291, R374). -/
def Chip.csmRelease (c : Chip) : Chip :=
  if c.csmPulse then { c with csmPulse := false }.updateKeys else c

/-- Start and mask bits written (R125): a 0 to 1 start loads the counter and clears the prescaler. -/
def Timer.control {w : Nat} (mask start : Bool) (t : Timer w) : Timer w :=
  { t with
    mask := mask
    cnt := if start && !t.run then t.latch else t.cnt
    pre := if start && !t.run then 0 else t.pre
    run := start }

end Sys2Proof.Machine
end

