-- ==== Sys2Proof/Machine/ChipWrites.lean ====
section
/-!
DEFINITION. The meanings of the chip-wide register writes (40_register_writes.md R121 to R126, R133, R136).
-/

namespace Sys2Proof.Machine

/-- R124. Masks and start bits keep their values. -/
def execIrqReset (v : BitVec 7) (s : State) : Host.Outcome State Fault Refusal :=
  registerWrite 0x04 (timerByte true v) Chip.irqReset s

/-- R121: `wse <- v[5]`. -/
def execTest (v : Byte) (s : State) : Host.Outcome State Fault Refusal :=
  registerWrite 0x01 v (fun c => { c with wse := bit v 5 }) s

/-- R122: `t1_latch <- v`. -/
def execTimer1 (v : Byte) (s : State) : Host.Outcome State Fault Refusal :=
  registerWrite 0x02 v (fun c => { c with t1 := { c.t1 with latch := v } }) s

/-- R123: `t2_latch <- v`. -/
def execTimer2 (v : Byte) (s : State) : Host.Outcome State Fault Refusal :=
  registerWrite 0x03 v (fun c => { c with t2 := { c.t2 with latch := v } }) s

/-- R125. -/
def execTimerCtl (v : BitVec 7) (s : State) : Host.Outcome State Fault Refusal :=
  let b := timerByte false v
  registerWrite 0x04 b
    (fun c => { c with t1 := c.t1.control (bit b 6) (bit b 0), t2 := c.t2.control (bit b 5) (bit b 1) }) s

/-- R126. -/
def execMode (v : Byte) (s : State) : Host.Outcome State Fault Refusal :=
  registerWrite 0x08 v
    (fun c => { c with csm := bit v 7, nts := bit v 6 }.mapSlots fun _ sl => sl.markDirty Dirty.forKeyScale) s

/-- R133. -/
def execRhythm (v : Byte) (s : State) : Host.Outcome State Fault Refusal :=
  registerWrite 0xBD v
    (fun c => { c with dam := bit v 7, dvb := bit v 6, rhythm := bit v 5, rkey := field v 0 5 }.updateKeys) s

/-- R136: the value is stored in the bank, nothing else. -/
def execReserved (a v : Byte) (s : State) : Host.Outcome State Fault Refusal :=
  registerWrite a v (fun c => c) s

end Sys2Proof.Machine
end

