-- ==== Sys2Proof/Laws/Transcendence.lean ====
section
/-!
SUPPORT. `pi` is transcendental (Lindemann), from Mathlib's analytical part of the Lindemann-Weierstrass theorem.
The kernel of the rate converter needs it: no entry away from the exact cases of R332 is a whole number, so a
sharp enough enclosure decides each (log 10).
-/

namespace Sys2Proof.Laws

open Polynomial

/-- Finitely many nonzero algebraic numbers are roots of one integer polynomial that is not 0 at 0. -/
theorem exists_int_poly {ι : Type} (T : Finset ι) (b : ι → ℂ) (h0 : ∀ t ∈ T, b t ≠ 0)
    (ha : ∀ t ∈ T, IsAlgebraic ℤ (b t)) :
    ∃ f : ℤ[X], f.eval 0 ≠ 0 ∧ ∀ t ∈ T, aeval (b t) f = 0 := by
  classical
  have h : ∀ t : ι, ∃ q : ℤ[X], q.eval 0 ≠ 0 ∧ (t ∈ T → aeval (b t) q = 0) := by
    intro t
    by_cases ht : t ∈ T
    · obtain ⟨q, h1, h2⟩ := (ha t ht).exists_nonzero_coeff_and_aeval_eq_zero
        (mem_nonZeroDivisors_of_ne_zero (h0 t ht))
      exact ⟨q, by rwa [← coeff_zero_eq_eval_zero], fun _ => h2⟩
    · exact ⟨1, by simp, fun h => absurd h ht⟩
  choose q hq0 hq using h
  refine ⟨∏ t ∈ T, q t, ?_, fun t ht => ?_⟩
  · rw [eval_prod]; exact Finset.prod_ne_zero_iff.2 fun t _ => hq0 t
  · rw [map_prod]; exact Finset.prod_eq_zero ht (hq t ht)

/-- An integer sum of exponentials whose power sums are rational with bounded denominators is not 0. -/
theorem natCast_add_sum_exp_ne_zero {ι : Type} (T : Finset ι) (b : ι → ℂ) (h0 : ∀ t ∈ T, b t ≠ 0)
    (ha : ∀ t ∈ T, IsAlgebraic ℤ (b t)) (k : ℕ) (hk : 0 < k) (y : ℤ) (hy : y ≠ 0)
    (hint : ∀ (N : ℕ) (q : ℤ[X]), q.natDegree ≤ N → ∃ G : ℤ, (G : ℂ) = (y : ℂ) ^ N * ∑ t ∈ T, aeval (b t) q) :
    (k : ℂ) + ∑ t ∈ T, Complex.exp (b t) ≠ 0 := by
  intro hsum
  obtain ⟨f, hf0, hf⟩ := exists_int_poly T b h0 ha
  obtain ⟨c, hc⟩ := LindemannWeierstrass.exp_polynomial_approx f hf0
  have hfne : f ≠ 0 := by rintro rfl; simp at hf0
  set D := f.natDegree
  set C : ℝ := |(y : ℝ)| ^ D * |c|
  have hlim : Filter.Tendsto (fun n : ℕ => (T.card : ℝ) * C * (C ^ n / (n.factorial : ℝ))) Filter.atTop (nhds 0) := by
    simpa using (FloorSemiring.tendsto_pow_div_factorial_atTop C).const_mul ((T.card : ℝ) * C)
  obtain ⟨n0, hn0⟩ := Filter.eventually_atTop.1 ((hlim.eventually (gt_mem_nhds (show (0:ℝ) < 1 by norm_num))))
  obtain ⟨p, hp, hpr⟩ := Nat.exists_infinite_primes (n0 + (eval 0 f).natAbs + y.natAbs + k + 2)
  obtain ⟨n, hn, gp, hgp, happ⟩ := hc p (by omega) hpr
  obtain ⟨G, hG⟩ := hint (p * D) gp (by omega)
  have hb := hn0 (p - 1) (by omega)
  have hZ : ((y ^ (p * D) * n * k + p * G : ℤ) : ℂ)
      = -((y : ℂ) ^ (p * D) * ∑ t ∈ T, (n • Complex.exp (b t) - p • aeval (b t) gp)) := by
    have : (k : ℂ) = -∑ t ∈ T, Complex.exp (b t) := eq_neg_of_add_eq_zero_left hsum
    push_cast
    rw [hG, this, Finset.sum_sub_distrib, ← Finset.smul_sum, ← Finset.smul_sum]
    simp only [zsmul_eq_mul, nsmul_eq_mul]
    ring
  have hnorm : ‖((y ^ (p * D) * n * k + p * G : ℤ) : ℂ)‖ < 1 := by
    rw [hZ, norm_neg, norm_mul, norm_pow]
    have hs : ‖∑ t ∈ T, (n • Complex.exp (b t) - p • aeval (b t) gp)‖ ≤ T.card * (|c| ^ p / (p - 1).factorial) := by
      refine (norm_sum_le _ _).trans ((Finset.sum_le_card_nsmul T _ _ fun t ht => ?_).trans (by rw [nsmul_eq_mul]))
      have := happ (r := b t) ((mem_aroots).2 ⟨hfne, hf t ht⟩)
      refine this.trans ?_
      exact div_le_div_of_nonneg_right ((le_abs_self _).trans_eq (abs_pow c p)) (by positivity)
    have hyn : ‖(y : ℂ)‖ = |(y : ℝ)| := by simp
    rw [hyn]
    have e : |(y : ℝ)| ^ (p * D) * (T.card * (|c| ^ p / (p - 1).factorial)) = T.card * C * (C ^ (p - 1) / (p - 1).factorial) := by
      have : C ^ p = C * C ^ (p - 1) := by rw [← pow_succ']; congr 1; have := hpr.pos; omega
      have h2 : C ^ p = |(y : ℝ)| ^ (p * D) * |c| ^ p := by rw [mul_pow, ← pow_mul, mul_comm D p]
      rw [mul_assoc, ← mul_div_assoc C, ← this, h2]; ring
    calc _ ≤ |(y : ℝ)| ^ (p * D) * (T.card * (|c| ^ p / (p - 1).factorial)) := by gcongr
      _ = _ := e
      _ < 1 := hb
  have hz : y ^ (p * D) * n * k + p * G = 0 := by
    rw [Complex.norm_intCast] at hnorm
    exact_mod_cast Int.abs_lt_one_iff.1 (by exact_mod_cast hnorm)
  have hdvd : (p : ℤ) ∣ y ^ (p * D) * n * k := by
    have : y ^ (p * D) * n * k = p * -G := by linarith
    exact ⟨_, this⟩
  have hpi := Nat.prime_iff_prime_int.1 hpr
  rcases hpi.dvd_or_dvd hdvd with h | h
  · rcases hpi.dvd_or_dvd h with h | h
    · have := Int.natAbs_dvd_natAbs.2 (hpi.dvd_of_dvd_pow h)
      have := Nat.le_of_dvd (Int.natAbs_pos.2 hy) this
      simp at this; omega
    · exact hn h
  · have := Nat.le_of_dvd hk (Int.natCast_dvd_natCast.1 h)
    omega

/-- A denominator of a number clears those of an integer polynomial at it. -/
theorem isIntegral_scaled {L : Type} [Field L] (y : ℤ) (β : L) (h : IsIntegral ℤ ((y : L) * β))
    (N : ℕ) (q : ℤ[X]) (hq : q.natDegree ≤ N) : IsIntegral ℤ ((y : L) ^ N * aeval β q) := by
  rw [aeval_eq_sum_range' (Nat.lt_succ_of_le hq), Finset.mul_sum]
  refine IsIntegral.sum _ fun i hi => ?_
  have hi' : i ≤ N := Nat.lt_succ_iff.1 (Finset.mem_range.1 hi)
  have : (y : L) ^ N * q.coeff i • β ^ i = ((q.coeff i * y ^ (N - i) : ℤ) : L) * ((y : L) * β) ^ i := by
    rw [zsmul_eq_mul, mul_pow]; push_cast
    rw [← Nat.sub_add_cancel hi', pow_add]; simp; ring
  rw [this]
  exact (isIntegral_algebraMap (R := ℤ) (A := L)).mul (h.pow i)

/-- `pi * I` is no root of a rational polynomial. -/
theorem pi_mul_I_transcendental : Transcendental ℚ ((Real.pi : ℂ) * Complex.I) := by
  classical
  intro halg
  set θ : ℂ := (Real.pi : ℂ) * Complex.I with hθ
  set m := minpoly ℚ θ
  have hm0 : m ≠ 0 := minpoly.ne_zero halg.isIntegral
  have hirr : Irreducible m := minpoly.irreducible halg.isIntegral
  let L := IntermediateField.adjoin ℚ (m.rootSet ℂ)
  have : m.IsSplittingField ℚ L := IntermediateField.adjoin_rootSet_isSplittingField (IsAlgClosed.splits _)
  have : IsGalois ℚ L := IsGalois.of_separable_splitting_field hirr.separable
  have : FiniteDimensional ℚ L := Polynomial.IsSplittingField.finiteDimensional L m
  have hθr : θ ∈ m.rootSet ℂ := (mem_rootSet_of_ne hm0).2 (minpoly.aeval ℚ θ)
  let θ' : L := ⟨θ, IntermediateField.subset_adjoin ℚ _ hθr⟩
  let s : Finset L := (m.aroots L).toFinset
  have hmem : ∀ x : L, x ∈ s ↔ aeval x m = 0 := fun x => by
    simp only [s, Multiset.mem_toFinset, mem_aroots, hm0, ne_eq, not_false_eq_true, true_and]
  have hθs : θ' ∈ s := by
    rw [hmem]
    apply Subtype.val_injective
    have : ((aeval θ' m : L) : ℂ) = aeval (θ' : ℂ) m := (aeval_algebraMap_apply ℂ θ' m).symm
    rw [this]; exact minpoly.aeval ℚ θ
  let b : Finset L → L := fun t => ∑ x ∈ t, x
  let T := s.powerset.filter fun t => b t ≠ 0
  -- the vanishing sum
  have hprod : ∏ x ∈ s, (1 + Complex.exp (x : ℂ)) = 0 := by
    refine Finset.prod_eq_zero hθs ?_
    show 1 + Complex.exp θ = 0
    rw [hθ, Complex.exp_pi_mul_I]; norm_num
  have hcoe : ∀ t : Finset L, ((b t : L) : ℂ) = ∑ x ∈ t, (x : ℂ) := fun t => by simp [b]
  have hsum : ∑ t ∈ s.powerset, Complex.exp ((b t : L) : ℂ) = 0 := by
    rw [← hprod, Finset.prod_one_add]
    exact Finset.sum_congr rfl fun t _ => by rw [hcoe, Complex.exp_sum]
  have hsplit : ((s.powerset.filter fun t => ¬ b t ≠ 0).card : ℂ) + ∑ t ∈ T, Complex.exp ((b t : L) : ℂ) = 0 := by
    rw [← hsum, ← Finset.sum_filter_add_sum_filter_not s.powerset (fun t => b t ≠ 0), add_comm]
    congr 1
    rw [Finset.sum_congr rfl (g := fun _ => (1:ℂ))]
    · simp
    · intro t ht
      have := (Finset.mem_filter.1 ht).2
      simp only [ne_eq, not_not] at this
      simp [this]
  -- denominators
  obtain ⟨y, hy, hyi⟩ := exists_integral_multiples ℤ ℚ s
  have hyb : ∀ t ∈ T, IsIntegral ℤ ((y : L) * b t) := by
    intro t ht
    have hts := Finset.mem_powerset.1 (Finset.mem_filter.1 ht).1
    rw [Finset.mul_sum]
    exact IsIntegral.sum _ fun x hx => by simpa using hyi x (hts hx)
  -- the power sums are fixed
  have hfix : ∀ (q : ℤ[X]) (σ : L ≃ₐ[ℚ] L), σ (∑ t ∈ T, aeval (b t) q) = ∑ t ∈ T, aeval (b t) q := by
    intro q σ
    have hstab : ∀ τ : L ≃ₐ[ℚ] L, ∀ x ∈ s, τ x ∈ s := by
      intro τ x hx
      rw [hmem] at hx ⊢
      have : aeval (τ x) m = τ (aeval x m) := aeval_algHom_apply τ x m
      rw [this, hx, map_zero]
    have hbσ : ∀ (τ : L ≃ₐ[ℚ] L) (t : Finset L), b (t.map τ.toEquiv.toEmbedding) = τ (b t) := by
      intro τ t; simp [b]
    have hT : ∀ τ : L ≃ₐ[ℚ] L, ∀ t ∈ T, t.map τ.toEquiv.toEmbedding ∈ T := by
      intro τ t ht
      obtain ⟨h1, h2⟩ := Finset.mem_filter.1 ht
      refine Finset.mem_filter.2 ⟨?_, ?_⟩
      · rw [Finset.mem_powerset] at h1 ⊢
        intro x hx
        obtain ⟨z, hz, rfl⟩ := Finset.mem_map.1 hx
        exact hstab τ z (h1 hz)
      · rw [hbσ]; simpa using h2
    rw [map_sum]
    refine Finset.sum_nbij' (fun t => t.map σ.toEquiv.toEmbedding) (fun t => t.map σ.symm.toEquiv.toEmbedding)
      (hT σ) (hT σ.symm) ?_ ?_ ?_
    · intro t _; ext x; simp
    · intro t _; ext x; simp
    · intro t _
      rw [hbσ]
      exact (aeval_algHom_apply (σ.toAlgHom.restrictScalars ℤ) (b t) q).symm
  refine natCast_add_sum_exp_ne_zero T (fun t => ((b t : L) : ℂ)) ?_ ?_ _ ?_ y hy ?_ hsplit
  · intro t ht h
    exact (Finset.mem_filter.1 ht).2 (Subtype.val_injective h)
  · intro t _
    have : IsAlgebraic ℚ (b t) := Algebra.IsAlgebraic.isAlgebraic _
    have h2 : IsAlgebraic ℚ ((b t : L) : ℂ) := this.algebraMap
    exact (IsFractionRing.isAlgebraic_iff ℤ ℚ ℂ).2 h2
  · refine Finset.card_pos.2 ⟨∅, Finset.mem_filter.2 ⟨Finset.empty_mem_powerset _, by simp [b]⟩⟩
  · intro N q hq
    obtain ⟨r, hr⟩ := (IsGalois.mem_range_algebraMap_iff_fixed (F := ℚ) (E := L) (∑ t ∈ T, aeval (b t) q)).2 (hfix q)
    have hint : IsIntegral ℤ ((y : L) ^ N * ∑ t ∈ T, aeval (b t) q) := by
      rw [Finset.mul_sum]
      exact IsIntegral.sum _ fun t ht => isIntegral_scaled y (b t) (hyb t ht) N q hq
    have hrat : (y : L) ^ N * ∑ t ∈ T, aeval (b t) q = algebraMap ℚ L ((y : ℚ) ^ N * r) := by
      rw [← hr]; simp
    rw [hrat, isIntegral_algebraMap_iff (algebraMap ℚ L).injective] at hint
    obtain ⟨G, hG⟩ := IsIntegrallyClosed.isIntegral_iff.1 hint
    refine ⟨G, ?_⟩
    have h1 : (G : L) = (y : L) ^ N * ∑ t ∈ T, aeval (b t) q := by
      rw [hrat, ← hG]; simp
    have h2 := congrArg (fun x : L => (x : ℂ)) h1
    have h3 : ∀ t, ((aeval (b t) q : L) : ℂ) = aeval ((b t : L) : ℂ) q := fun t => (aeval_algebraMap_apply ℂ (b t) q).symm
    simpa [h3] using h2

/-- `pi` is transcendental (Lindemann). -/
theorem pi_transcendental : Transcendental ℚ Real.pi := by
  intro h
  have h1 : IsAlgebraic ℚ ((Real.pi : ℝ) : ℂ) := h.algebraMap
  have h2 : IsAlgebraic ℚ Complex.I := ⟨X ^ 2 + 1, by
    intro h; have := congrArg (eval 0) h; simp at this, by simp⟩
  exact pi_mul_I_transcendental (h1.mul h2)

end Sys2Proof.Laws
end

