-- ==== Sys2Proof/Machine/Sinc.lean ====
section
/-!
DEFINITION. Rational approximations of the kernel of the rate converter (46_rate_converter.md R332), in exact
integer arithmetic, to any precision (log 10).

R332 gives `SINC[i]` as `trunc(2^12 * r * wsinc(u))` over the reals, with `u` = `i / 256` and `r` = 1 when
upsampling, `u` = `i / (256 * f_ratio)` and `r` = `1 / f_ratio` when downsampling. With `u` = `p / q`, its
fractional part `f`, and `c` = `cos(pi * u / 8)`:

  blackman(1/2 + u/16) = (17 + 25 * c + 8 * c^2) / 50
  sinc(u) = (-1)^floor(u) * (f / u) * (sin(pi * f) / (pi * f))

At precision level `n` the series are cut after `26 * (n + 1)` terms and taken at a rational within
`3 / 2^(128 * (n + 1))` of the real argument, which leaves an error of at most `1 / 2^(128 * n + 100)` in the
value. Truncation is monotone: where both ends of that enclosure truncate to one integer, it is the entry.
-/

namespace Sys2Proof.Machine

/-- The scale of `piNum` at precision level `n`. -/
def piDen (n : Nat) : Nat := 2 ^ (128 * (n + 1))

/-- The Horner form of `sum over j ≤ k of (-1)^j / (x^(2j) * (m + 2j))`, as numerator and denominator: with
`m` = 1 it is the start of the series of `x * arctan(1 / x)`. -/
def arctanSeries (x : Nat) : Nat → Nat → Int × Nat
  | 0, m => (1, m)
  | k + 1, m =>
    let r := arctanSeries x k (m + 2)
    (((x * x * r.2 : Nat) : Int) - (m : Int) * r.1, m * (x * x * r.2))

/-- A rational just below `pi` for an odd `k`, by Machin's formula `pi = 16 * arctan(1/5) - 4 * arctan(1/239)`. -/
def machin (k : Nat) : Int × Nat :=
  let a := arctanSeries 5 k 1
  let b := arctanSeries 239 (k + 1) 1
  (16 * 239 * (a.1 * (b.2 : Int)) - 4 * 5 * (b.1 * (a.2 : Int)), 5 * 239 * (a.2 * b.2))

/-- `pi * piDen`, rounded down, at most 2 below. -/
def piNum (n : Nat) : Nat :=
  let m := machin (30 * n + 29)
  (m.1 * (piDen n : Int) / (m.2 : Int)).toNat

/-- The Horner form of `sum over j ≤ k of (-1)^j * (a/b)^j * m! / (m + 2j)!`, as numerator and
denominator: with `a/b` = `t^2`, `m` = 0 gives the cosine of `t` and `m` = 1 gives `sin(t)/t`. -/
def alternatingSeries (a b : Nat) : Nat → Nat → Int × Nat
  | 0, _ => (1, 1)
  | k + 1, m =>
    let r := alternatingSeries a b k (m + 2)
    let d := b * ((m + 1) * (m + 2)) * r.2
    ((d : Int) - (a : Int) * r.1, d)

/-- `pi * x / y` as a numerator over `piDen`, rounded down. -/
def piTimes (n x y : Nat) : Nat := piNum n * x / y

/-- The cosine of `t / piDen`. -/
def cosApprox (n t : Nat) : Int × Nat := alternatingSeries (t * t) (piDen n * piDen n) (26 * n + 25) 0

/-- `sin(x) / x` at `x` = `t / piDen`. -/
def sincApprox (n t : Nat) : Int × Nat := alternatingSeries (t * t) (piDen n * piDen n) (26 * n + 25) 1

/-- The approximation of `2^12 * (rn / rd) * wsinc(p / q)` for `0 < p` and `p < 8 * q` at precision level
`n`, as numerator and denominator. -/
def kernelApprox (n rn rd p q : Nat) : Int × Nat :=
  let c := cosApprox n (piTimes n p (8 * q))
  let s := sincApprox n (piTimes n (p % q) q)
  let sign : Int := if p / q % 2 = 0 then 1 else -1
  let window : Int := 17 * (c.2 * c.2 : Nat) + 25 * (c.1 * (c.2 : Int)) + 8 * (c.1 * c.1)
  (sign * ((2 ^ sincAmpBits * rn * (p % q) : Nat) : Int) * window * s.1,
    rd * (50 * (c.2 * c.2)) * p * s.2)

/-- The error the approximation is allowed at precision level `n` is `1 / errDen n`. -/
def errDen (n : Nat) : Nat := 2 ^ (128 * n + 100)

/-- `trunc` of a value within `1 / e` of `v`, where both ends of the enclosure agree. -/
def truncEnclosed (e : Nat) (v : Int × Nat) : Option Int :=
  let lo := (v.1 * (e : Int) - (v.2 : Int)).tdiv ((v.2 * e : Nat) : Int)
  let hi := (v.1 * (e : Int) + (v.2 : Int)).tdiv ((v.2 * e : Nat) : Int)
  if lo = hi then some lo else none

/-- A kernel entry as precision level `n` decides it, if it does. -/
def tapAt (rn rd p q n : Nat) : Option Int := truncEnclosed (errDen n) (kernelApprox n rn rd p q)

end Sys2Proof.Machine
end

