-- ==== Sys2Proof/Laws/Kernel.lean ====
section
/-!
SUPPORT. The converter's kernel (46_rate_converter.md R332; log 10): `pi` against its rational, the power
series of the cosine and of `sin x / x` against their cut-off sums, and the model's Horner form as such a sum.
At precision level `n` the approximation is within `1 / errDen n` of the real value (`kernelApprox_close`), what a
level decides is the truncation (`tapAt_eq`), and some level decides (`exists_tapAt`).
-/

namespace Sys2Proof.Machine

/-! ## The rational for `pi` -/

/-- The alternating series of the arctangent encloses it. -/
theorem arctan_enclosed (x : ℝ) (h0 : 0 < x) (h1 : x < 1) (n : ℕ) :
    (∑ k ∈ Finset.range (2 * n), (-1 : ℝ) ^ k * (x ^ (2 * k + 1) / (2 * k + 1))) ≤ Real.arctan x ∧
      Real.arctan x ≤ ∑ k ∈ Finset.range (2 * n + 1), (-1 : ℝ) ^ k * (x ^ (2 * k + 1) / (2 * k + 1)) := by
  have hs := Real.hasSum_arctan (x := x) (by rw [Real.norm_eq_abs, abs_of_pos h0]; exact h1)
  have ht := hs.tendsto_sum_nat
  have he : ∀ N, ∑ k ∈ Finset.range N, (-1 : ℝ) ^ k * x ^ (2 * k + 1) / (↑(2 * k + 1) : ℝ)
      = ∑ k ∈ Finset.range N, (-1 : ℝ) ^ k * (x ^ (2 * k + 1) / (2 * k + 1)) := by
    intro N
    apply Finset.sum_congr rfl
    intro k _
    push_cast
    ring
  simp only [he] at ht
  have ha : Antitone fun k : ℕ => x ^ (2 * k + 1) / (2 * (k : ℝ) + 1) := by
    apply antitone_nat_of_succ_le
    intro k
    have : x ^ (2 * (k + 1) + 1) ≤ x ^ (2 * k + 1) := pow_le_pow_of_le_one h0.le h1.le (by omega)
    push_cast
    apply div_le_div₀ <;> first | positivity | linarith
  exact ⟨ha.alternating_series_le_tendsto ht n, ha.tendsto_le_alternating_series ht n⟩

/-- The denominators are positive. -/
theorem arctanSeries_den_pos (x : ℕ) (hx : 0 < x) (k : ℕ) : ∀ m, 0 < m → 0 < (arctanSeries x k m).2 := by
  induction k with
  | zero => intro m hm; simpa [arctanSeries]
  | succ k ih =>
    intro m hm
    have := ih (m + 2) (by omega)
    simp only [arctanSeries]
    positivity

/-- The Horner form is the arctangent series it stands for. -/
theorem arctanSeries_eq (x : ℕ) (hx : 0 < x) (k : ℕ) : ∀ m : ℕ, 0 < m →
    ((arctanSeries x k m).1 : ℝ) / (arctanSeries x k m).2
      = ∑ j ∈ Finset.range (k + 1), (-1 : ℝ) ^ j * ((x : ℝ)⁻¹ ^ (2 * j) / (m + 2 * j)) := by
  have hx' : (x : ℝ) ≠ 0 := by positivity
  induction k with
  | zero => intro m hm; simp [arctanSeries]
  | succ k ih =>
    intro m hm
    have hm' : (m : ℝ) ≠ 0 := by positivity
    have hd := arctanSeries_den_pos x hx k (m + 2) (by omega)
    have hd' : ((arctanSeries x k (m + 2)).2 : ℝ) ≠ 0 := by positivity
    have hstep : ∀ j ∈ Finset.range (k + 1),
        (-1 : ℝ) ^ (j + 1) * ((x : ℝ)⁻¹ ^ (2 * (j + 1)) / (m + 2 * ((j + 1 : ℕ) : ℝ)))
          = (-((x : ℝ)⁻¹ ^ 2)) * ((-1 : ℝ) ^ j * ((x : ℝ)⁻¹ ^ (2 * j) / (((m + 2 : ℕ) : ℝ) + 2 * j))) := by
      intro j _
      rw [show 2 * (j + 1) = 2 * j + 2 by ring, pow_succ (-1 : ℝ), pow_add]
      push_cast
      rw [show (m : ℝ) + 2 * ((j : ℝ) + 1) = m + 2 + 2 * j by ring]
      ring
    rw [Finset.sum_range_succ', Finset.sum_congr rfl hstep, ← Finset.mul_sum, ← ih (m + 2) (by omega)]
    simp only [arctanSeries]
    push_cast
    field_simp
    simp
    field_simp
    ring

/-- The partial sum over `x` of the series is that of `arctan (1 / x)`. -/
theorem arctanSeries_arctan (x : ℕ) (hx : 0 < x) (k : ℕ) :
    ((arctanSeries x k 1).1 : ℝ) / ((x : ℝ) * (arctanSeries x k 1).2)
      = ∑ j ∈ Finset.range (k + 1), (-1 : ℝ) ^ j * ((x : ℝ)⁻¹ ^ (2 * j + 1) / (2 * j + 1)) := by
  have h := arctanSeries_eq x hx k 1 one_pos
  have hx' : (x : ℝ) ≠ 0 := by positivity
  rw [mul_comm (x : ℝ), ← div_div, h, div_eq_mul_inv, Finset.sum_mul]
  refine Finset.sum_congr rfl fun j _ => ?_
  rw [pow_succ]; push_cast; rw [add_comm (1 : ℝ)]; ring

theorem machin_den_pos (k : ℕ) : 0 < (machin k).2 := by
  have h1 := arctanSeries_den_pos 5 (by norm_num) k 1 one_pos
  have h2 := arctanSeries_den_pos 239 (by norm_num) (k + 1) 1 one_pos
  exact Nat.mul_pos (by norm_num) (Nat.mul_pos h1 h2)

theorem machin_value (k : ℕ) : ((machin k).1 : ℝ) / (machin k).2
      = 16 * ∑ j ∈ Finset.range (k + 1), (-1 : ℝ) ^ j * (((5 : ℕ) : ℝ)⁻¹ ^ (2 * j + 1) / (2 * j + 1))
        - 4 * ∑ j ∈ Finset.range (k + 1 + 1), (-1 : ℝ) ^ j * (((239 : ℕ) : ℝ)⁻¹ ^ (2 * j + 1) / (2 * j + 1)) := by
  have h1 := arctanSeries_den_pos 5 (by norm_num) k 1 one_pos
  have h2 := arctanSeries_den_pos 239 (by norm_num) (k + 1) 1 one_pos
  rw [← arctanSeries_arctan 5 (by norm_num) k, ← arctanSeries_arctan 239 (by norm_num) (k + 1)]
  unfold machin
  generalize arctanSeries 5 k 1 = a at h1
  generalize arctanSeries 239 (k + 1) 1 = b at h2
  have h1' : (a.2 : ℝ) ≠ 0 := by have : (0:ℝ) < a.2 := by exact_mod_cast h1
                                 exact this.ne'
  have h2' : (b.2 : ℝ) ≠ 0 := by have : (0:ℝ) < b.2 := by exact_mod_cast h2
                                 exact this.ne'
  dsimp only
  push_cast
  field_simp
  ring

/-- With an even number of terms the rational is below `pi`, by at most 20 times the first term left out. -/
theorem machin_bounds (k m : ℕ) (hk : k + 1 = 2 * m) :
    ((machin k).1 : ℝ) / (machin k).2 ≤ Real.pi
      ∧ Real.pi - ((machin k).1 : ℝ) / (machin k).2 ≤ 20 * (5 : ℝ)⁻¹ ^ (4 * m + 1) := by
  have hm := Real.four_mul_arctan_inv_5_sub_arctan_inv_239
  obtain ⟨a1, a2⟩ := arctan_enclosed 5⁻¹ (by norm_num) (by norm_num) m
  obtain ⟨b1, b2⟩ := arctan_enclosed 239⁻¹ (by norm_num) (by norm_num) m
  rw [machin_value, hk]
  rw [Finset.sum_range_succ] at a2 ⊢
  rw [Finset.sum_range_succ] at b2
  rw [Even.neg_one_pow ⟨m, by ring⟩, one_mul] at a2 b2 ⊢
  have g0 : ∀ x : ℝ, 0 ≤ x → x ≤ 5⁻¹ → x ^ (2 * (2 * m) + 1) / (2 * ((2 * m : ℕ) : ℝ) + 1) ≤ (5:ℝ)⁻¹ ^ (4 * m + 1) := by
    intro x h0 h5
    rw [show 2 * (2 * m) + 1 = 4 * m + 1 by ring]
    refine (div_le_self (by positivity) ?_).trans (pow_le_pow_left₀ h0 h5 _)
    have : (0:ℝ) ≤ ((2 * m : ℕ) : ℝ) := by positivity
    linarith
  have g1 := g0 5⁻¹ (by norm_num) (by norm_num)
  have g2 := g0 239⁻¹ (by norm_num) (by norm_num)
  rw [show ((5 : ℕ) : ℝ) = 5 by norm_num, show ((239 : ℕ) : ℝ) = 239 by norm_num]
  generalize ∑ j ∈ Finset.range (2 * m), (-1 : ℝ) ^ j * ((5:ℝ)⁻¹ ^ (2 * j + 1) / (2 * j + 1)) = A at *
  generalize ∑ j ∈ Finset.range (2 * m), (-1 : ℝ) ^ j * ((239:ℝ)⁻¹ ^ (2 * j + 1) / (2 * j + 1)) = B at *
  generalize (5:ℝ)⁻¹ ^ (2 * (2 * m) + 1) / (2 * ((2 * m : ℕ) : ℝ) + 1) = C at *
  generalize (239:ℝ)⁻¹ ^ (2 * (2 * m) + 1) / (2 * ((2 * m : ℕ) : ℝ) + 1) = E at *
  constructor <;> linarith

theorem piDen_pos (n : ℕ) : (0 : ℝ) < piDen n := by
  have : 0 < piDen n := Nat.two_pow_pos _
  exact_mod_cast this

theorem piDen_cast (n : ℕ) : (piDen n : ℝ) = (2 ^ 128) ^ (n + 1) := by
  unfold piDen
  rw [pow_mul, Nat.cast_pow, Nat.cast_pow, Nat.cast_ofNat]

/-- `piNum` against `pi`. -/
theorem piNum_bounds (n : ℕ) : (piNum n : ℝ) / piDen n ≤ Real.pi ∧ Real.pi ≤ ((piNum n : ℝ) + 2) / piDen n := by
  obtain ⟨h1, h2⟩ := machin_bounds (30 * n + 29) (15 * (n + 1)) (by ring)
  have hd := machin_den_pos (30 * n + 29)
  have hP := piDen_pos n
  have h3 : Real.pi - ((machin (30 * n + 29)).1 : ℝ) / (machin (30 * n + 29)).2 ≤ 1 / piDen n := by
    refine h2.trans ?_
    have e : (20:ℝ) * (5:ℝ)⁻¹ ^ (4 * (15 * (n + 1)) + 1) = 4 * ((5:ℝ)⁻¹ ^ 60) ^ (n + 1) := by
      rw [← pow_mul, show 4 * (15 * (n + 1)) + 1 = 60 * (n + 1) + 1 by ring, pow_succ]; ring
    have e2 : (1:ℝ) / (2 ^ 128) ^ (n + 1) = (1 / 2 ^ 128) ^ (n + 1) := by rw [div_pow, one_pow]
    rw [e, piDen_cast, e2]
    calc 4 * ((5:ℝ)⁻¹ ^ 60) ^ (n + 1) ≤ 4 ^ (n + 1) * ((5:ℝ)⁻¹ ^ 60) ^ (n + 1) := by
          gcongr; exact le_self_pow₀ (by norm_num) (by omega)
      _ = (4 * (5:ℝ)⁻¹ ^ 60) ^ (n + 1) := (mul_pow _ _ _).symm
      _ ≤ _ := pow_le_pow_left₀ (by positivity) (by norm_num) _
  clear h2
  unfold piNum
  dsimp only
  generalize machin (30 * n + 29) = w at *
  have hP1 : (1 : ℝ) ≤ piDen n := by rw [piDen_cast]; exact one_le_pow₀ (by norm_num)
  generalize piDen n = P at *
  obtain ⟨a, d⟩ := w
  dsimp only at *
  have hd' : (0:ℝ) < d := by exact_mod_cast hd
  have hfl : ((a * (P : ℤ) / (d : ℤ) : ℤ) : ℝ) = ⌊(a : ℝ) / d * P⌋ := by
    have h := Rat.floor_intCast_div_natCast (a * (P : ℤ)) d
    have h5 : ((((a * (P : ℤ) : ℤ) : ℚ) / (d : ℚ) : ℚ) : ℝ) = (a : ℝ) / d * P := by push_cast; ring
    rw [← h5, Rat.floor_cast]; exact congrArg _ h.symm
  have hpos : 0 ≤ a * (P : ℤ) / (d : ℤ) := by
    have hp3 := Real.pi_gt_three
    have h6 : 1 / (P : ℝ) ≤ 1 := by rw [div_le_one hP]; exact hP1
    have h7 : 0 ≤ (a : ℝ) / d * P := mul_nonneg (by linarith) hP.le
    have h8 : (0:ℝ) ≤ (⌊(a : ℝ) / d * P⌋ : ℤ) := Int.cast_nonneg (Int.floor_nonneg.2 h7)
    rw [← hfl] at h8
    exact Int.cast_nonneg_iff.1 h8
  have hnum : (((a * (P : ℤ) / (d : ℤ)).toNat : ℕ) : ℝ) = ⌊(a : ℝ) / d * P⌋ := by
    rw [← hfl]
    exact_mod_cast Int.toNat_of_nonneg hpos
  have f1 := Int.floor_le ((a : ℝ) / d * P)
  have f2 := Int.lt_floor_add_one ((a : ℝ) / d * P)
  rw [hnum]
  constructor
  · rw [div_le_iff₀ hP]
    exact f1.trans (mul_le_mul_of_nonneg_right h1 hP.le)
  · rw [le_div_iff₀ hP]
    have : Real.pi * P - (a : ℝ) / d * P ≤ 1 := by
      rw [← sub_mul]
      calc _ ≤ 1 / (P : ℝ) * P := by gcongr
        _ = 1 := by field_simp
    linarith
/-! ## The Horner form -/

theorem alternatingSeries_den_pos (a b : ℕ) (hb : 0 < b) (k : ℕ) : ∀ m, 0 < (alternatingSeries a b k m).2 := by
  induction k with
  | zero => intro m; simp [alternatingSeries]
  | succ k ih =>
    intro m
    have := ih (m + 2)
    simp only [alternatingSeries]
    positivity

/-- The Horner form is the alternating sum it stands for. -/
theorem alternatingSeries_eq (a b : ℕ) (hb : 0 < b) (k : ℕ) : ∀ m : ℕ,
    ((alternatingSeries a b k m).1 : ℝ) / (alternatingSeries a b k m).2
      = ∑ j ∈ Finset.range (k + 1), (-1 : ℝ) ^ j * ((a : ℝ) / b) ^ j * (m.factorial / (m + 2 * j).factorial) := by
  have hb' : (b : ℝ) ≠ 0 := by positivity
  induction k with
  | zero =>
    intro m
    simp [alternatingSeries]
    field_simp
  | succ k ih =>
    intro m
    have hd := alternatingSeries_den_pos a b hb k (m + 2)
    have hd' : ((alternatingSeries a b k (m + 2)).2 : ℝ) ≠ 0 := by positivity
    have hstep : ∀ j ∈ Finset.range (k + 1),
        (-1 : ℝ) ^ (j + 1) * ((a : ℝ) / b) ^ (j + 1) * (m.factorial / (m + 2 * (j + 1)).factorial)
          = (-((a : ℝ) / b) / ((m + 1) * (m + 2)))
            * ((-1 : ℝ) ^ j * ((a : ℝ) / b) ^ j * ((m + 2).factorial / (m + 2 + 2 * j).factorial)) := by
      intro j _
      rw [show m + 2 * (j + 1) = m + 2 + 2 * j by ring,
        show ((m + 2).factorial : ℝ) = (m + 2) * ((m + 1) * m.factorial) by push_cast [Nat.factorial_succ]; ring]
      generalize (a : ℝ) / b = r
      field_simp
      ring
    rw [Finset.sum_range_succ', Finset.sum_congr rfl hstep, ← Finset.mul_sum, ← ih (m + 2)]
    simp only [alternatingSeries]
    push_cast
    field_simp
    simp
    field_simp
    ring

/-! ## The cut-off series -/

/-- The even and odd partial sums of `exp (t * I)`. -/
theorem exp_I_partial (t : ℝ) (n : ℕ) :
    ∑ m ∈ Finset.range (2 * n), (t * Complex.I) ^ m / (m.factorial : ℂ)
      = ((∑ j ∈ Finset.range n, (-1 : ℝ) ^ j * t ^ (2 * j) / (2 * j).factorial : ℝ) : ℂ)
        + ((∑ j ∈ Finset.range n, (-1 : ℝ) ^ j * t ^ (2 * j + 1) / (2 * j + 1).factorial : ℝ) : ℂ) * Complex.I := by
  induction n with
  | zero => simp
  | succ n ih =>
    have h1 : (t * Complex.I : ℂ) ^ (2 * n) = (-1) ^ n * (t : ℂ) ^ (2 * n) := by
      rw [mul_pow, pow_mul Complex.I, Complex.I_sq]
      ring
    rw [show 2 * (n + 1) = 2 * n + 1 + 1 by ring, Finset.sum_range_succ, Finset.sum_range_succ, ih,
      Finset.sum_range_succ, Finset.sum_range_succ, pow_succ (t * Complex.I : ℂ), h1]
    push_cast
    ring

/-- The error of `N` terms of the cosine series, and of `N` terms of the sine series. -/
theorem cos_sin_partial (t : ℝ) (N : ℕ) (h : |t| ≤ N) :
    |Real.cos t - ∑ j ∈ Finset.range N, (-1 : ℝ) ^ j * t ^ (2 * j) / (2 * j).factorial|
        ≤ |t| ^ (2 * N) / (2 * N).factorial * 2
      ∧ |Real.sin t - ∑ j ∈ Finset.range N, (-1 : ℝ) ^ j * t ^ (2 * j + 1) / (2 * j + 1).factorial|
        ≤ |t| ^ (2 * N) / (2 * N).factorial * 2 := by
  have hx : ‖(t * Complex.I : ℂ)‖ = |t| := by simp
  have hb := Complex.exp_bound' (x := t * Complex.I) (n := 2 * N) (by
    rw [hx, div_le_div_iff₀ (by positivity) (by norm_num)]
    push_cast
    linarith)
  rw [hx, exp_I_partial t N] at hb
  have hre := (Complex.abs_re_le_norm _).trans hb
  have him := (Complex.abs_im_le_norm _).trans hb
  simp only [Complex.sub_re, Complex.sub_im, Complex.add_re, Complex.add_im, Complex.exp_ofReal_mul_I_re,
    Complex.exp_ofReal_mul_I_im, Complex.ofReal_re, Complex.ofReal_im, Complex.re_ofReal_mul, Complex.im_ofReal_mul,
    Complex.I_re, Complex.I_im, mul_zero, mul_one, add_zero, zero_add] at hre him
  exact ⟨hre, him⟩

/-- At level `n` the first term left out is below `1 / piDen n`. -/
theorem cutoff_le (n : ℕ) :
    (3.15 : ℝ) ^ (2 * (26 * n + 26)) / (2 * (26 * n + 26)).factorial * 2 ≤ 1 / piDen n := by
  have hf : ∀ k : ℕ, (52).factorial ^ (k + 1) ≤ (52 * (k + 1)).factorial := by
    intro k
    induction k with
    | zero => simp
    | succ k ih =>
      rw [pow_succ]
      refine (Nat.mul_le_mul_right _ ih).trans ?_
      exact Nat.le_of_dvd (Nat.factorial_pos _) (Nat.factorial_mul_factorial_dvd_factorial_add (52 * (k + 1)) 52)
  have hf' : ((52).factorial : ℝ) ^ (n + 1) ≤ ((52 * (n + 1)).factorial : ℝ) := by exact_mod_cast hf n
  have e2 : (1:ℝ) / (2 ^ 128) ^ (n + 1) = (1 / 2 ^ 128) ^ (n + 1) := by rw [div_pow, one_pow]
  have hfp : (0:ℝ) < (52).factorial := by exact_mod_cast Nat.factorial_pos 52
  rw [show 2 * (26 * n + 26) = 52 * (n + 1) by ring, piDen_cast, e2]
  calc (3.15 : ℝ) ^ (52 * (n + 1)) / ((52 * (n + 1)).factorial : ℝ) * 2
      ≤ 3.15 ^ (52 * (n + 1)) / (52).factorial ^ (n + 1) * 2 ^ (n + 1) := by
        gcongr
        exact le_self_pow₀ (by norm_num) (by omega)
    _ = (3.15 ^ 52 / (52).factorial * 2) ^ (n + 1) := by rw [pow_mul, ← div_pow, ← mul_pow]
    _ ≤ (1 / 2 ^ 128) ^ (n + 1) := pow_le_pow_left₀ (by positivity) (by norm_num [Nat.factorial]) _

/-- The error of the cosine series at level `n`. -/
theorem cutoff_cos (n : ℕ) (x : ℝ) (h0 : 0 ≤ x) (h : x ≤ 3.15) :
    x ^ (2 * (26 * n + 26)) / (2 * (26 * n + 26)).factorial * 2 ≤ 1 / piDen n :=
  (by gcongr : _ ≤ (3.15 : ℝ) ^ (2 * (26 * n + 26)) / (2 * (26 * n + 26)).factorial * 2).trans (cutoff_le n)

/-- The error of the sine series at level `n`, against its argument. -/
theorem cutoff_sin (n : ℕ) (x : ℝ) (h0 : 0 ≤ x) (h : x ≤ 3.15) :
    x ^ (2 * (26 * n + 26)) / (2 * (26 * n + 26)).factorial * 2 ≤ 1 / piDen n * x := by
  have e : x ^ (2 * (26 * n + 26)) = x ^ (2 * (26 * n + 26) - 1) * x := by
    rw [← pow_succ, Nat.sub_add_cancel (by omega)]
  have h1 : x ^ (2 * (26 * n + 26) - 1) ≤ 3.15 ^ (2 * (26 * n + 26)) :=
    (pow_le_pow_left₀ h0 h _).trans (pow_le_pow_right₀ (by norm_num) (Nat.sub_le _ _))
  calc x ^ (2 * (26 * n + 26)) / (2 * (26 * n + 26)).factorial * 2
      = x ^ (2 * (26 * n + 26) - 1) / (2 * (26 * n + 26)).factorial * 2 * x := by rw [e]; ring
    _ ≤ 3.15 ^ (2 * (26 * n + 26)) / (2 * (26 * n + 26)).factorial * 2 * x := by gcongr
    _ ≤ _ := mul_le_mul_of_nonneg_right (cutoff_le n) h0

/-- `cosApprox` is the cosine of its argument, within the cut-off error. -/
theorem cosApprox_close (n t : ℕ) (h : (t : ℝ) / piDen n ≤ 3.15) :
    |Real.cos ((t : ℝ) / piDen n) - ((cosApprox n t).1 : ℝ) / (cosApprox n t).2| ≤ 1 / piDen n := by
  have hp : (0 : ℝ) ≤ (t : ℝ) / piDen n := by positivity
  have hc := (cos_sin_partial ((t : ℝ) / piDen n) (26 * n + 26) (by
    rw [abs_of_nonneg hp]; push_cast; have : (0:ℝ) ≤ n := n.cast_nonneg; linarith)).1
  rw [abs_of_nonneg hp] at hc
  have he := alternatingSeries_eq (t * t) (piDen n * piDen n) (Nat.mul_pos (Nat.two_pow_pos _) (Nat.two_pow_pos _))
    (26 * n + 25) 0
  have hq : ((t * t : ℕ) : ℝ) / ((piDen n * piDen n : ℕ) : ℝ) = ((t : ℝ) / piDen n) ^ 2 := by
    rw [div_pow]; push_cast; ring
  refine le_trans ?_ (hc.trans (cutoff_cos n _ hp h))
  unfold cosApprox
  rw [he, hq]
  apply le_of_eq
  congr 2
  refine Finset.sum_congr rfl fun j _ => ?_
  rw [← pow_mul, Nat.zero_add, Nat.factorial_zero, Nat.cast_one, mul_one_div]

/-! ## The error of the model's approximation -/

/-- The cut-off series of `sin x / x`, in `x^2`. -/
noncomputable def sincPoly (N : ℕ) (x : ℝ) : ℝ :=
  ∑ j ∈ Finset.range N, (-1 : ℝ) ^ j * x ^ j * (((1:ℕ).factorial:ℝ) / ((1 + 2*j).factorial:ℝ))

theorem sincApprox_eq_poly (n t : ℕ) :
    ((sincApprox n t).1 : ℝ) / (sincApprox n t).2 = sincPoly (26 * n + 26) (((t : ℝ) / piDen n) ^ 2) := by
  have he := alternatingSeries_eq (t * t) (piDen n * piDen n) (Nat.mul_pos (Nat.two_pow_pos _) (Nat.two_pow_pos _))
    (26 * n + 25) 1
  have hq : ((t * t : ℕ) : ℝ) / ((piDen n * piDen n : ℕ) : ℝ) = ((t : ℝ) / piDen n) ^ 2 := by
    rw [div_pow]; push_cast; ring
  unfold sincApprox sincPoly
  rw [he, hq]

/-- The coefficients of the derivative of `sincPoly` on `[0, 10]`. -/
theorem sinc_term_le (j : ℕ) : j * 10 ^ (j - 1) * 2 ^ j ≤ (1 + 2 * j).factorial := by
  rcases Nat.lt_or_ge j 2 with h | h
  · interval_cases j <;> decide
  · induction j, h using Nat.le_induction with
    | base => decide
    | succ j hj ih =>
      obtain ⟨i, rfl⟩ : ∃ i, j = i + 1 := ⟨j - 1, by omega⟩
      have e : (1 + 2 * (i + 1 + 1)).factorial
          = (2 * i + 5) * ((2 * i + 4) * (1 + 2 * (i + 1)).factorial) := by
        rw [show 1 + 2 * (i + 1 + 1) = 1 + 2 * (i + 1) + 1 + 1 by ring, Nat.factorial_succ, Nat.factorial_succ]
        ring
      rw [e]
      simp only [Nat.add_sub_cancel] at ih ⊢
      calc (i + 1 + 1) * 10 ^ (i + 1) * 2 ^ (i + 1 + 1)
          ≤ 2 * (i + 1) * 10 ^ (i + 1) * 2 ^ (i + 1 + 1) := by gcongr; omega
        _ = 40 * ((i + 1) * 10 ^ i * 2 ^ (i + 1)) := by ring
        _ ≤ 40 * (1 + 2 * (i + 1)).factorial := by gcongr
        _ ≤ ((2 * i + 5) * (2 * i + 4)) * (1 + 2 * (i + 1)).factorial := by gcongr; nlinarith
        _ = _ := by ring

theorem sincPoly_lipschitz (N : ℕ) (x y : ℝ) (hx : 0 ≤ x) (hx1 : x ≤ 10) (hy : 0 ≤ y) (hy1 : y ≤ 10) :
    |sincPoly N x - sincPoly N y| ≤ 2 * |x - y| := by
  unfold sincPoly
  rw [← Finset.sum_sub_distrib]
  refine (Finset.abs_sum_le_sum_abs _ _).trans ?_
  have : ∀ j ∈ Finset.range N, |(-1 : ℝ) ^ j * x ^ j * (((1:ℕ).factorial:ℝ) / ((1 + 2*j).factorial:ℝ))
      - (-1 : ℝ) ^ j * y ^ j * (((1:ℕ).factorial:ℝ) / ((1 + 2*j).factorial:ℝ))| ≤ |x - y| * (1 / 2) ^ j := by
    intro j _
    rw [← sub_mul, ← mul_sub, abs_mul, abs_mul]
    have h1 : |(-1:ℝ)^j| = 1 := by simp
    have h2 : |x^j - y^j| ≤ |x - y| * j * max |x| |y| ^ (j-1) := abs_pow_sub_pow_le x y j
    have h3 : max |x| |y| ^ (j-1) ≤ 10 ^ (j-1) := by
      apply pow_le_pow_left₀ (by positivity)
      rw [abs_of_nonneg hx, abs_of_nonneg hy]; exact max_le hx1 hy1
    rw [h1, one_mul, abs_of_nonneg (by positivity : (0:ℝ) ≤ ((1:ℕ).factorial:ℝ) / ((1 + 2*j).factorial:ℝ))]
    have h4 : |x^j - y^j| ≤ |x - y| * j * 10 ^ (j-1) := h2.trans (by gcongr)
    have h5 : (j : ℝ) * 10 ^ (j - 1) / ((1 + 2 * j).factorial : ℝ) ≤ (1 / 2) ^ j := by
      rw [div_le_iff₀ (by exact_mod_cast Nat.factorial_pos _), div_pow, one_pow, one_div_mul_eq_div,
        le_div_iff₀ (by positivity)]
      exact_mod_cast sinc_term_le j
    calc _ ≤ (|x - y| * j * 10 ^ (j-1)) * (((1:ℕ).factorial:ℝ) / ((1 + 2*j).factorial:ℝ)) := by gcongr
      _ = |x - y| * ((j : ℝ) * 10 ^ (j - 1) / ((1 + 2 * j).factorial : ℝ)) := by simp; ring
      _ ≤ _ := by gcongr
  refine (Finset.sum_le_sum this).trans ?_
  rw [← Finset.mul_sum, mul_comm]
  have h : ∑ j ∈ Finset.range N, ((1:ℝ) / 2) ^ j ≤ 2 := sum_geometric_two_le N
  gcongr

theorem piTimes_close (n x y : ℕ) (hy : 0 < y) (hxy : x ≤ y) :
    |(piTimes n x y : ℝ) / piDen n - Real.pi * ((x:ℝ)/y)| ≤ 3 / piDen n ∧ (piTimes n x y : ℝ) / piDen n ≤ Real.pi := by
  obtain ⟨p1, p2⟩ := piNum_bounds n
  have hy' : (0:ℝ) < y := by exact_mod_cast hy
  have hr : (x:ℝ)/y ≤ 1 := by rw [div_le_one hy']; exact_mod_cast hxy
  have hr0 : 0 ≤ (x:ℝ)/y := by positivity
  have f1 : (piTimes n x y : ℝ) ≤ piNum n * ((x:ℝ)/y) := by
    unfold piTimes
    have := @Nat.cast_div_le ℝ _ _ _ (piNum n * x) y
    refine this.trans (le_of_eq ?_); push_cast; ring
  have f2 : piNum n * ((x:ℝ)/y) < piTimes n x y + 1 := by
    unfold piTimes
    have := Nat.lt_div_mul_add (a := piNum n * x) hy
    have h2 : ((piNum n * x : ℕ) : ℝ) < ((piNum n * x / y : ℕ):ℝ) * y + y := by exact_mod_cast this
    rw [← mul_div_assoc, div_lt_iff₀ hy']; push_cast at h2 ⊢; linarith
  have e := piDen_pos n
  rw [div_le_iff₀ e] at p1
  rw [le_div_iff₀ e] at p2
  generalize (piDen n : ℝ) = P at *
  generalize (piNum n : ℝ) = N at *
  generalize (piTimes n x y : ℝ) = T at *
  generalize (x:ℝ)/y = r at *
  have e1 : T / P - Real.pi * r = (T - Real.pi * P * r) / P := by field_simp
  refine ⟨?_, ?_⟩
  · rw [e1, abs_div, abs_of_pos e]
    gcongr
    rw [abs_le]
    constructor <;> nlinarith
  · rw [div_le_iff₀ e]
    have h1 := mul_le_mul_of_nonneg_right p1 hr0
    have h2 := mul_le_mul_of_nonneg_left hr (mul_pos Real.pi_pos e).le
    linarith

/-- The Blackman window as a polynomial in the cosine of `pi * u / 8` (R332). -/
noncomputable def windowPoly (c : ℝ) : ℝ := (17 + 25 * c + 8 * c ^ 2) / 50

theorem windowPoly_lipschitz (a b : ℝ) (ha : |a| ≤ 2) (hb : |b| ≤ 1) : |windowPoly a - windowPoly b| ≤ 2 * |a - b| := by
  have : windowPoly a - windowPoly b = (a - b) * ((25 + 8 * (a + b)) / 50) := by unfold windowPoly; ring
  rw [this, abs_mul, mul_comm]
  have h2 := abs_le.1 ha; have h3 := abs_le.1 hb
  have : |(25 + 8 * (a + b)) / 50| ≤ 2 := by rw [abs_le]; constructor <;> linarith
  gcongr

theorem windowPoly_le (b : ℝ) (hb : |b| ≤ 1) : |windowPoly b| ≤ 1 := by
  have h3 := abs_le.1 hb
  unfold windowPoly; rw [abs_le]; constructor <;> nlinarith

theorem cos_lipschitz (a b : ℝ) : |Real.cos a - Real.cos b| ≤ |a - b| := by
  rw [Real.cos_sub_cos, abs_mul, abs_mul]
  have h1 : |Real.sin ((a + b) / 2)| ≤ 1 := Real.abs_sin_le_one _
  have h2 : |Real.sin ((a - b) / 2)| ≤ |(a - b) / 2| := Real.abs_sin_le_abs
  have h3 : |(a - b) / 2| = |a - b| / 2 := by rw [abs_div]; norm_num
  have h4 : |(-2:ℝ)| = 2 := by norm_num
  rw [h4]
  have := abs_nonneg (Real.sin ((a - b) / 2))
  nlinarith

theorem cosApprox_piTimes (n x y : ℕ) (hy : 0 < y) (hxy : x ≤ y) :
    |((cosApprox n (piTimes n x y)).1 : ℝ) / (cosApprox n (piTimes n x y)).2 - Real.cos (Real.pi * ((x:ℝ)/y))|
      ≤ 4 / piDen n := by
  obtain ⟨h1, h2⟩ := piTimes_close n x y hy hxy
  have h3 := cosApprox_close n (piTimes n x y) (h2.trans (by have := Real.pi_lt_d2; linarith))
  have h5 := cos_lipschitz ((piTimes n x y : ℝ) / piDen n) (Real.pi * ((x:ℝ)/y))
  have e : (4:ℝ)/piDen n = 1/piDen n + 3/piDen n := by ring
  rw [e]
  rw [abs_sub_comm] at h3
  refine (abs_sub_le _ (Real.cos ((piTimes n x y : ℝ) / piDen n)) _).trans ?_
  linarith

theorem sincApprox_piTimes (n x y : ℕ) (hx : 0 < x) (hy : 0 < y) (hxy : x ≤ y) :
    |((sincApprox n (piTimes n x y)).1 : ℝ) / (sincApprox n (piTimes n x y)).2
      - Real.sin (Real.pi * ((x:ℝ)/y)) / (Real.pi * ((x:ℝ)/y))| ≤ 43 / piDen n := by
  obtain ⟨h1, h2⟩ := piTimes_close n x y hy hxy
  have hy' : (0:ℝ) < y := by exact_mod_cast hy
  have hx' : (0:ℝ) < x := by exact_mod_cast hx
  have hP := piDen_pos n
  rw [sincApprox_eq_poly]
  have hr : (x:ℝ)/y ≤ 1 := by rw [div_le_one hy']; exact_mod_cast hxy
  have hr0 : 0 < (x:ℝ)/y := by positivity
  have hθ0 : 0 < Real.pi * ((x:ℝ)/y) := mul_pos Real.pi_pos hr0
  have hθ1 : Real.pi * ((x:ℝ)/y) ≤ Real.pi := by have := Real.pi_pos; nlinarith
  have hT0 : 0 ≤ (piTimes n x y : ℝ) / piDen n := div_nonneg (Nat.cast_nonneg _) (Nat.cast_nonneg _)
  have pl := Real.pi_lt_d2
  generalize Real.pi * ((x:ℝ)/y) = θ at *
  generalize (piTimes n x y : ℝ) / piDen n = T at *
  have hc := (cos_sin_partial θ (26 * n + 26) (by
    rw [abs_of_pos hθ0]; push_cast; have : (0:ℝ) ≤ n := n.cast_nonneg; linarith)).2
  rw [abs_of_pos hθ0] at hc
  have hs : ∑ j ∈ Finset.range (26 * n + 26), (-1 : ℝ) ^ j * θ ^ (2 * j + 1) / (2 * j + 1).factorial
      = θ * sincPoly (26 * n + 26) (θ^2) := by
    unfold sincPoly; rw [Finset.mul_sum]; apply Finset.sum_congr rfl; intro j _
    rw [← pow_mul, show 1 + 2 * j = 2 * j + 1 by ring]; simp; ring
  rw [hs] at hc
  have hcut := cutoff_sin n θ hθ0.le (by linarith)
  have h6 : |sincPoly (26 * n + 26) (θ^2) - Real.sin θ / θ| ≤ 1 / piDen n := by
    have e : sincPoly (26 * n + 26) (θ^2) - Real.sin θ / θ
        = -(Real.sin θ - θ * sincPoly (26 * n + 26) (θ^2)) / θ := by field_simp; ring
    rw [e, abs_div, abs_neg, abs_of_pos hθ0, div_le_iff₀ hθ0]
    exact hc.trans hcut
  clear hc hs hcut
  generalize (piDen n : ℝ) = P at *
  have h7 := sincPoly_lipschitz (26 * n + 26) (T^2) (θ^2) (by positivity) (by nlinarith) (by positivity) (by nlinarith)
  have h8 : |T^2 - θ^2| ≤ 20 / P := by
    have : T^2 - θ^2 = (T - θ) * (T + θ) := by ring
    rw [this, abs_mul, abs_of_nonneg (by positivity : 0 ≤ T + θ)]
    calc |T - θ| * (T + θ) ≤ (3/P) * 6.4 := by gcongr; linarith
      _ ≤ _ := by rw [div_mul_eq_mul_div]; gcongr; norm_num
  refine (abs_sub_le _ (sincPoly (26 * n + 26) (θ^2)) _).trans ?_
  have e : (43:ℝ)/P = 2 * (20/P) + 3/P := by ring
  have e3 : (1:ℝ)/P ≤ 3/P := by gcongr; norm_num
  linarith

/-- R332's window at `1/2 + u/16`. -/
theorem blackman_eq_windowPoly (u : ℝ) : 0.42 - 0.5 * Real.cos (2 * Real.pi * (1/2 + u/16)) + 0.08 * Real.cos (4 * Real.pi * (1/2 + u / 16)) = windowPoly (Real.cos (Real.pi * (u/8))) := by
  have h1 : 2 * Real.pi * (1/2 + u/16) = Real.pi * (u/8) + Real.pi := by ring
  have h2 : 4 * Real.pi * (1/2 + u/16) = 2 * (Real.pi * (u/8)) + 2 * Real.pi := by ring
  rw [h1, h2, Real.cos_add_pi, Real.cos_add_two_pi, Real.cos_two_mul]
  unfold windowPoly; norm_num; ring

theorem sin_pi_split (n : ℕ) (f : ℝ) : Real.sin (Real.pi * (n + f)) = (if n % 2 = 0 then 1 else -1) * Real.sin (Real.pi * f) := by
  have : Real.pi * (n + f) = Real.pi * f + n * Real.pi := by ring
  rw [this, Real.sin_add_nat_mul_pi]
  rcases Nat.mod_two_eq_zero_or_one n with h | h
  · rw [if_pos h, Even.neg_one_pow (Nat.even_iff.2 h)]
  · rw [if_neg (by omega), Odd.neg_one_pow (Nat.odd_iff.2 h)]

theorem factor_le (X Y : ℝ) (h1 : 0 ≤ X) (h3 : X ≤ 1) (h4 : Y ≤ 1) : (2:ℝ)^12 * X * Y ≤ 2^12 := by
  have : X * Y ≤ 1 := by nlinarith
  nlinarith
/-- The error bound of level `n` lies below `1 / errDen n`. -/
theorem errDen_covers (n : ℕ) : (2:ℝ) ^ 12 * (59 / piDen n) ≤ 1 / errDen n := by
  have he : (piDen n : ℝ) = 2 ^ 28 * errDen n := by
    unfold piDen errDen
    rw [Nat.cast_pow, Nat.cast_pow, Nat.cast_ofNat, ← pow_add]
    congr 1
    ring
  have hE : (0:ℝ) < errDen n := by
    have : 0 < errDen n := Nat.two_pow_pos _
    exact_mod_cast this
  rw [he]
  generalize (errDen n : ℝ) = E at *
  rw [← mul_div_assoc, div_le_div_iff₀ (by positivity) hE]
  linarith

/-- The model's approximation of a kernel entry is within `1 / errDen n` of R332's real value. -/
theorem kernelApprox_close (n rn rd p q : ℕ) (hrn : 0 < rn) (hrd : 0 < rd) (hr : rn ≤ rd) (hq : 0 < q) (hp : p ≤ 8 * q) (hpq : p % q ≠ 0) :
   |((kernelApprox n rn rd p q).1 : ℝ) / (kernelApprox n rn rd p q).2 - 2^12 * ((rn:ℝ)/rd) * (windowPoly (Real.cos (Real.pi * ((p:ℝ)/q/8))) * (Real.sin (Real.pi * ((p:ℝ)/q)) / (Real.pi * ((p:ℝ)/q))))| ≤ 1 / (errDen n : ℝ) := by
  have hx := cosApprox_piTimes n p (8*q) (by omega) hp
  have hs := sincApprox_piTimes n (p % q) q (by omega) hq (Nat.mod_lt _ hq).le
  have hp0 : 0 < p := by rcases Nat.eq_zero_or_pos p with h | h; simp [h] at hpq; exact h
  have hcd : 0 < (cosApprox n (piTimes n p (8*q))).2 := alternatingSeries_den_pos _ _ (Nat.mul_pos (Nat.two_pow_pos _) (Nat.two_pow_pos _)) _ _
  have hsd : 0 < (sincApprox n (piTimes n (p % q) q)).2 := alternatingSeries_den_pos _ _ (Nat.mul_pos (Nat.two_pow_pos _) (Nat.two_pow_pos _)) _ _
  have hq' : (0:ℝ) < q := by exact_mod_cast hq
  have hp' : (0:ℝ) < p := by exact_mod_cast hp0
  have hrd' : (0:ℝ) < rd := by exact_mod_cast hrd
  have hmod : (p:ℝ)/q = ((p / q : ℕ):ℝ) + ((p % q : ℕ):ℝ)/q := by
    have := Nat.div_add_mod p q
    rw [div_eq_iff hq'.ne', add_mul, div_mul_cancel₀ _ hq'.ne']
    exact_mod_cast (by rw [mul_comm (p/q) q]; exact this.symm)
  set c := ((cosApprox n (piTimes n p (8*q))).1 : ℝ) / (cosApprox n (piTimes n p (8*q))).2 with hc
  set s := ((sincApprox n (piTimes n (p % q) q)).1 : ℝ) / (sincApprox n (piTimes n (p % q) q)).2 with hsdef
  have hf0 : 0 < p % q := Nat.pos_of_ne_zero hpq
  have hf' : (0:ℝ) < ((p % q : ℕ):ℝ) := by exact_mod_cast hf0
  have hA : ((kernelApprox n rn rd p q).1 : ℝ) / (kernelApprox n rn rd p q).2 = 2^12 * ((rn:ℝ)/rd) * ((if p / q % 2 = 0 then 1 else -1) * ((((p % q : ℕ):ℝ)/p))) * (windowPoly c * s) := by
    rw [hc, hsdef]
    unfold kernelApprox
    generalize cosApprox n (piTimes n p (8*q)) = cc at hcd
    generalize sincApprox n (piTimes n (p % q) q) = ss at hsd
    obtain ⟨c1, c2⟩ := cc
    obtain ⟨s1, s2⟩ := ss
    have hcd' : ((c2 : ℕ) : ℝ) ≠ 0 := by have : (0:ℝ) < c2 := by exact_mod_cast hcd
                                         exact this.ne'
    have hsd' : ((s2 : ℕ) : ℝ) ≠ 0 := by have : (0:ℝ) < s2 := by exact_mod_cast hsd
                                         exact this.ne'
    dsimp only
    unfold windowPoly
    generalize p / q % 2 = z
    clear hpq hs hf0 hf' hmod hsdef hx hc
    generalize p % q = r
    split <;> (push_cast [sincAmpBits]; field_simp; ring)
  have hV : 2^12 * ((rn:ℝ)/rd) * (windowPoly (Real.cos (Real.pi * ((p:ℝ)/q/8))) * (Real.sin (Real.pi * ((p:ℝ)/q)) / (Real.pi * ((p:ℝ)/q)))) = 
     2^12 * ((rn:ℝ)/rd) * ((if p / q % 2 = 0 then 1 else -1) * ((((p % q : ℕ):ℝ)/p))) * (windowPoly (Real.cos (Real.pi * ((p:ℝ)/((8 * q : ℕ):ℝ)))) * (Real.sin (Real.pi * (((p % q:ℕ):ℝ)/q)) / (Real.pi * (((p % q:ℕ):ℝ)/q)))) := by
    have e1 : (p:ℝ)/q/8 = (p:ℝ)/((8 * q : ℕ):ℝ) := by push_cast; field_simp
    have e2 : Real.sin (Real.pi * ((p:ℝ)/q)) = (if p / q % 2 = 0 then 1 else -1) * Real.sin (Real.pi * (((p % q:ℕ):ℝ)/q)) := by
      rw [hmod, sin_pi_split]
    rw [e1, e2]
    have := Real.pi_pos
    field_simp
  rw [hA, hV, ← mul_sub, abs_mul]
  clear hA hV hc hsdef
  clear_value c s
  set C := Real.cos (Real.pi * ((p:ℝ)/((8 * q : ℕ):ℝ)))
  set S := Real.sin (Real.pi * (((p % q:ℕ):ℝ)/q)) / (Real.pi * (((p % q:ℕ):ℝ)/q))
  have hC : |C| ≤ 1 := Real.abs_cos_le_one _
  have hP1 : (2:ℝ) ^ 128 ≤ piDen n := by
    rw [piDen_cast]; exact le_self_pow₀ (one_le_pow₀ (by norm_num)) (by omega)
  have hP2 : (64:ℝ) ≤ piDen n := le_trans (by norm_num) hP1
  clear hP1
  have hε : (4:ℝ)/piDen n ≤ 1 := by rw [div_le_one (piDen_pos n)]; linarith
  have hε2 : (43:ℝ)/piDen n ≤ 1 := by rw [div_le_one (piDen_pos n)]; linarith
  have hcb : |c| ≤ 2 := by
    have := abs_sub_abs_le_abs_sub c C; linarith
  have hS : |S| ≤ 1 := by
    have hθ : 0 < Real.pi * (((p % q:ℕ):ℝ)/q) := by have := Real.pi_pos; positivity
    show |Real.sin _ / _| ≤ 1
    rw [abs_div, abs_of_pos hθ, div_le_one hθ]
    exact Real.abs_sin_le_abs.trans (le_of_eq (abs_of_pos hθ))
  have hsb : |s| ≤ 2 := by have := abs_sub_abs_le_abs_sub s S; linarith
  have hw := windowPoly_lipschitz c C hcb hC
  have hW1 := windowPoly_le C hC
  have hd : |windowPoly c * s - windowPoly C * S| ≤ 59 / piDen n := by
    generalize (piDen n : ℝ) = P at *
    have : windowPoly c * s - windowPoly C * S = (windowPoly c - windowPoly C) * s + windowPoly C * (s - S) := by ring
    rw [this]
    refine (abs_add_le _ _).trans ?_
    rw [abs_mul, abs_mul]
    have h1 : |windowPoly c - windowPoly C| * |s| ≤ (8/P) * 2 := by
      have : |windowPoly c - windowPoly C| ≤ 8/P := by
        have e : (8:ℝ)/P = 2 * (4/P) := by ring
        linarith
      gcongr
    have h2 : |windowPoly C| * |s - S| ≤ 1 * (43/P) := by gcongr
    have e : (59:ℝ)/P = (8/P) * 2 + 1 * (43/P) := by ring
    linarith
  have hk : |2^12 * ((rn:ℝ)/rd) * ((if p / q % 2 = 0 then 1 else -1) * ((((p % q : ℕ):ℝ)/p)))| ≤ 2^12 := by
    rw [abs_mul, abs_mul, abs_mul]
    have a1 : |(rn:ℝ)/rd| ≤ 1 := by
      rw [abs_of_nonneg (by positivity), div_le_one hrd']; exact_mod_cast hr
    have a2 : |((if p / q % 2 = 0 then 1 else -1 : ℝ))| = 1 := by split <;> simp
    have a3 : |((p % q : ℕ):ℝ)/p| ≤ 1 := by
      rw [abs_of_nonneg (by positivity), div_le_one hp']; exact_mod_cast Nat.mod_le p q
    have a4 : |(2:ℝ)^12| = 2^12 := by norm_num
    rw [a2, a4, one_mul]
    exact factor_le _ _ (abs_nonneg _) a1 a3
  exact (mul_le_mul hk hd (abs_nonneg _) (by norm_num)).trans (errDen_covers n)

theorem tdiv_eq_realTrunc (a : ℤ) (b : ℕ) (hb : 0 < b) : a.tdiv (b:ℤ) = if 0 ≤ (a:ℝ)/b then ⌊(a:ℝ)/b⌋ else ⌈(a:ℝ)/b⌉ := by
  have hb' : (0:ℝ) < b := by exact_mod_cast hb
  rcases le_or_gt 0 a with h | h
  · have : 0 ≤ (a:ℝ)/b := div_nonneg (by exact_mod_cast h) hb'.le
    rw [if_pos this, Int.tdiv_eq_ediv_of_nonneg h]
    have h2 : ⌊((a:ℝ)/b)⌋ = a / b := by
        have := Rat.floor_intCast_div_natCast a b
        have h3 : ((((a:ℚ)/(b:ℚ)) : ℚ) : ℝ) = (a:ℝ)/b := by push_cast; rfl
        rw [← h3, Rat.floor_cast]; exact this
    exact h2.symm
  · have hneg : ¬ 0 ≤ (a:ℝ)/b := by
      rw [not_le]; exact div_neg_of_neg_of_pos (by exact_mod_cast h) hb'
    rw [if_neg hneg]
    have h2 : ⌊(((-a:ℤ):ℝ)/b)⌋ = (-a) / b := by
        have := Rat.floor_intCast_div_natCast (-a) b
        have h3 : (((((-a:ℤ):ℚ)/(b:ℚ)) : ℚ) : ℝ) = ((-a:ℤ):ℝ)/b := by push_cast; rfl
        rw [← h3, Rat.floor_cast]; exact this
    have h4 : a.tdiv b = -((-a)/b) := by
      have := Int.neg_tdiv (-a) b
      rw [neg_neg] at this; rw [this, Int.tdiv_eq_ediv_of_nonneg (by omega)]
    rw [h4, ← h2]; push_cast; rw [neg_div, Int.floor_neg, neg_neg]

/-- `trunc` over the reals (R10). -/
noncomputable def realTrunc (v : ℝ) : ℤ := if 0 ≤ v then ⌊v⌋ else ⌈v⌉
theorem realTrunc_mono {a b : ℝ} (h : a ≤ b) : realTrunc a ≤ realTrunc b := by
  unfold realTrunc
  split <;> split
  · exact Int.floor_le_floor h
  · exfalso; linarith
  · have : ⌈a⌉ ≤ 0 := Int.ceil_le.2 (by push_cast; linarith)
    have : 0 ≤ ⌊b⌋ := Int.floor_nonneg.2 (by assumption)
    omega
  · exact Int.ceil_le_ceil h

/-- The two ends of the enclosure, as real numbers. -/
theorem enclosure_ends (e : ℕ) (he0 : 0 < e) (w : ℤ × ℕ) (hw : 0 < w.2) :
    ((w.1 * (e:ℤ) - (w.2:ℤ) : ℤ):ℝ) / ((w.2 * e : ℕ):ℝ) = (w.1:ℝ)/w.2 - 1/e
      ∧ ((w.1 * (e:ℤ) + (w.2:ℤ) : ℤ):ℝ) / ((w.2 * e : ℕ):ℝ) = (w.1:ℝ)/w.2 + 1/e := by
  have hw' : (w.2:ℝ) ≠ 0 := by have : (0:ℝ) < w.2 := by exact_mod_cast hw
                               exact this.ne'
  have he' : (e:ℝ) ≠ 0 := by have : (0:ℝ) < e := by exact_mod_cast he0
                             exact this.ne'
  constructor <;> (push_cast; field_simp)

/-- Where both ends of the enclosure truncate to one integer, it is the truncation of the enclosed value. -/
theorem truncEnclosed_eq_realTrunc (e : ℕ) (he0 : 0 < e) (w : ℤ × ℕ) (hw : 0 < w.2) (v : ℝ)
    (h : |(w.1:ℝ)/w.2 - v| ≤ 1 / e) (m : ℤ) (hm : truncEnclosed e w = some m) : m = realTrunc v := by
  unfold truncEnclosed at hm
  have hE : 0 < w.2 * e := Nat.mul_pos hw he0
  dsimp only at hm
  split at hm
  · rename_i he
    cases hm
    obtain ⟨e1, e2⟩ := enclosure_ends e he0 w hw
    rw [tdiv_eq_realTrunc _ _ hE, tdiv_eq_realTrunc _ _ hE, e1, e2] at he
    rw [tdiv_eq_realTrunc _ _ hE, e1]
    have hh := abs_le.1 h
    have l1 : realTrunc ((w.1:ℝ)/w.2 - 1/e) ≤ realTrunc v := realTrunc_mono (by linarith)
    have l2 : realTrunc v ≤ realTrunc ((w.1:ℝ)/w.2 + 1/e) := realTrunc_mono (by linarith)
    change realTrunc _ = realTrunc _ at he
    change realTrunc _ = realTrunc v
    omega
  · cases hm

theorem le_realTrunc {m : ℤ} (hm : 0 < m) (v : ℝ) : m ≤ realTrunc v ↔ (m : ℝ) ≤ v := by
  have hm' : (0:ℝ) < m := by exact_mod_cast hm
  unfold realTrunc
  split
  · exact Int.le_floor
  · have h2 : ⌈v⌉ ≤ 0 := Int.ceil_le.2 (by push_cast; linarith)
    constructor
    · intro h; omega
    · intro h; linarith

theorem realTrunc_le {m : ℤ} (hm : m < 0) (v : ℝ) : realTrunc v ≤ m ↔ v ≤ (m : ℝ) := by
  have hm' : (m:ℝ) < 0 := by exact_mod_cast hm
  unfold realTrunc
  split
  · have h2 : 0 ≤ ⌊v⌋ := Int.floor_nonneg.2 ‹_›
    constructor
    · intro h; omega
    · intro h; linarith
  · exact Int.ceil_le

/-- Two reals with no nonzero integer between them truncate to one integer. -/
theorem realTrunc_eq_of_gap {a b : ℝ} (h : a ≤ b) (hm : ∀ m : ℤ, m ≠ 0 → ¬ (a ≤ m ∧ (m : ℝ) ≤ b)) :
    realTrunc a = realTrunc b := by
  refine (realTrunc_mono h).antisymm ?_
  by_contra hlt
  rw [not_le] at hlt
  rcases lt_or_ge 0 (realTrunc b) with hb | hb
  · refine hm _ hb.ne' ⟨le_of_lt ?_, (le_realTrunc hb b).1 le_rfl⟩
    exact not_le.1 fun hc => absurd ((le_realTrunc hb a).2 hc) (by omega)
  · have ha : realTrunc a < 0 := by omega
    refine hm _ ha.ne ⟨(realTrunc_le ha a).1 le_rfl, le_of_lt ?_⟩
    exact not_le.1 fun hc => absurd ((realTrunc_le ha b).2 hc) (by omega)

/-- A value that no nonzero integer comes within twice the error of is decided. -/
theorem truncEnclosed_isSome (e : ℕ) (he0 : 0 < e) (w : ℤ × ℕ) (hw : 0 < w.2) (v : ℝ)
    (h : |(w.1:ℝ)/w.2 - v| ≤ 1 / e) (hv : ∀ m : ℤ, m ≠ 0 → 2 / (e : ℝ) < |v - m|) :
    (truncEnclosed e w).isSome := by
  have hE : 0 < w.2 * e := Nat.mul_pos hw he0
  have hpos : (0:ℝ) < 1 / e := one_div_pos.2 (by exact_mod_cast he0)
  obtain ⟨e1, e2⟩ := enclosure_ends e he0 w hw
  have key : (w.1 * (e : ℤ) - (w.2 : ℤ)).tdiv ((w.2 * e : ℕ) : ℤ)
      = (w.1 * (e : ℤ) + (w.2 : ℤ)).tdiv ((w.2 * e : ℕ) : ℤ) := by
    rw [tdiv_eq_realTrunc _ _ hE, tdiv_eq_realTrunc _ _ hE, e1, e2]
    refine realTrunc_eq_of_gap (by linarith) fun m hm hc => ?_
    have h1 := hv m hm
    have h2 : |v - m| ≤ 2 / e := by
      have e3 : (2:ℝ) / e = 1 / e + 1 / e := by ring
      have h3 := abs_le.1 h
      rw [abs_le]
      constructor <;> linarith
    linarith
  unfold truncEnclosed
  rw [if_pos key]
  rfl

/-! ## Refinement ends: no kernel entry off the zeros is an integer -/

/-- R332's `2^12 * (rn / rd) * wsinc(p / q)`. -/
noncomputable def kernelValue (rn rd p q : ℕ) : ℝ :=
  2 ^ 12 * ((rn : ℝ) / rd) * (windowPoly (Real.cos (Real.pi * ((p : ℝ) / q / 8)))
    * (Real.sin (Real.pi * ((p : ℝ) / q)) / (Real.pi * ((p : ℝ) / q))))

/-- A nonzero integer value would make `pi` algebraic. -/
theorem kernelValue_ne_int (rn rd p q : ℕ) (m : ℤ) (hm : m ≠ 0) : kernelValue rn rd p q ≠ m := by
  intro h
  apply Sys2Proof.Laws.pi_transcendental
  have hm' : (m : ℝ) ≠ 0 := by exact_mod_cast hm
  have hpi : Real.pi ≠ 0 := Real.pi_pos.ne'
  have hu : (p : ℝ) / q ≠ 0 := by
    intro h0
    rw [kernelValue, h0] at h
    simp at h
    exact hm' h.symm
  have alg : ∀ r : ℚ, IsAlgebraic ℚ (r : ℝ) := fun r => isAlgebraic_algebraMap r
  have hc : IsAlgebraic ℚ (Real.cos (Real.pi * ((p : ℝ) / q / 8))) := by
    have := Real.isAlgebraic_cos_rat_mul_pi ((p : ℚ) / q / 8)
    push_cast at this
    rw [mul_comm] at this
    exact this.extendScalars (Int.cast_injective)
  have hs : IsAlgebraic ℚ (Real.sin (Real.pi * ((p : ℝ) / q))) := by
    have := Real.isAlgebraic_sin_rat_mul_pi ((p : ℚ) / q)
    push_cast at this
    rw [mul_comm] at this
    exact this.extendScalars (Int.cast_injective)
  have e : Real.pi = 2 ^ 12 * ((rn : ℝ) / rd)
      * ((17 + 25 * Real.cos (Real.pi * ((p : ℝ) / q / 8)) + 8 * Real.cos (Real.pi * ((p : ℝ) / q / 8)) ^ 2) * (1 / 50)
        * Real.sin (Real.pi * ((p : ℝ) / q))) * ((m : ℝ) * ((p : ℝ) / q))⁻¹ := by
    rw [kernelValue, windowPoly] at h
    rw [eq_mul_inv_iff_mul_eq₀ (mul_ne_zero hm' hu), ← h]
    generalize Real.cos (Real.pi * ((p : ℝ) / q / 8)) = C
    generalize Real.sin (Real.pi * ((p : ℝ) / q)) = S
    generalize (p : ℝ) / q = u at hu
    generalize (rn : ℝ) / rd = r
    field_simp
  have h50 : IsAlgebraic ℚ ((1 : ℝ) / 50) := by simpa using alg (1 / 50)
  have hnat : ∀ k : ℕ, IsAlgebraic ℚ (k : ℝ) := fun k => by simpa using alg k
  have h17 : IsAlgebraic ℚ (17 : ℝ) := by exact_mod_cast hnat 17
  have h25 : IsAlgebraic ℚ (25 : ℝ) := by exact_mod_cast hnat 25
  have h8 : IsAlgebraic ℚ (8 : ℝ) := by exact_mod_cast hnat 8
  have hr : IsAlgebraic ℚ (2 ^ 12 * ((rn : ℝ) / rd)) := by
    have := alg (2 ^ 12 * ((rn : ℚ) / rd))
    push_cast at this
    exact this
  have hu' : IsAlgebraic ℚ ((m : ℝ) * ((p : ℝ) / q)) := by simpa using alg ((m : ℚ) * ((p : ℚ) / q))
  rw [e]
  exact (hr.mul ((((h17.add (h25.mul hc)).add (h8.mul (hc.pow 2))).mul h50).mul hs)).mul hu'.inv

theorem kernelApprox_den_pos (n rn rd p q : ℕ) (hrd : 0 < rd) (hp : 0 < p) : 0 < (kernelApprox n rn rd p q).2 := by
  have hcd : 0 < (cosApprox n (piTimes n p (8*q))).2 :=
    alternatingSeries_den_pos _ _ (Nat.mul_pos (Nat.two_pow_pos _) (Nat.two_pow_pos _)) _ _
  have hsd : 0 < (sincApprox n (piTimes n (p % q) q)).2 :=
    alternatingSeries_den_pos _ _ (Nat.mul_pos (Nat.two_pow_pos _) (Nat.two_pow_pos _)) _ _
  unfold kernelApprox
  dsimp only
  exact Nat.mul_pos (Nat.mul_pos (Nat.mul_pos hrd (Nat.mul_pos (by norm_num) (Nat.mul_pos hcd hcd))) hp) hsd

/-- A real that is no nonzero integer keeps a distance from all of them. -/
theorem exists_gap (v : ℝ) (hv : ∀ m : ℤ, m ≠ 0 → v ≠ m) : ∃ δ : ℝ, 0 < δ ∧ ∀ m : ℤ, m ≠ 0 → δ ≤ |v - m| := by
  by_cases h0 : v = 0
  · refine ⟨1, one_pos, fun m hm => ?_⟩
    rw [h0, zero_sub, abs_neg]
    exact_mod_cast Int.one_le_abs hm
  · have hn : ∀ m : ℤ, v ≠ m := fun m => by
      by_cases hm : m = 0
      · subst hm; simpa using h0
      · exact hv m hm
    have h1 : (⌊v⌋ : ℝ) < v := (Int.floor_le v).lt_of_ne (hn ⌊v⌋).symm
    have h2 := Int.lt_floor_add_one v
    refine ⟨min (v - ⌊v⌋) (⌊v⌋ + 1 - v), lt_min (by linarith) (by linarith), fun m _ => ?_⟩
    rcases le_or_gt m ⌊v⌋ with h | h
    · have h' : (m : ℝ) ≤ ⌊v⌋ := by exact_mod_cast h
      exact (min_le_left _ _).trans ((by linarith : v - ⌊v⌋ ≤ v - m).trans (le_abs_self _))
    · have h' : (⌊v⌋ : ℝ) + 1 ≤ m := by exact_mod_cast h
      exact (min_le_right _ _).trans ((by linarith : ⌊v⌋ + 1 - v ≤ -(v - m)).trans (neg_le_abs _))

/-- Some precision level decides every kernel entry off the zeros. -/
theorem exists_tapAt (rn rd p q : ℕ) (hrn : 0 < rn) (hrd : 0 < rd) (hr : rn ≤ rd) (hq : 0 < q) (hp : p ≤ 8 * q)
    (hpq : p % q ≠ 0) : ∃ n, (tapAt rn rd p q n).isSome = true := by
  obtain ⟨δ, hδ, hgap⟩ := exists_gap (kernelValue rn rd p q) fun m hm => kernelValue_ne_int rn rd p q m hm
  have hp0 : 0 < p := Nat.pos_of_ne_zero (by rintro rfl; simp at hpq)
  obtain ⟨n, hn⟩ := exists_nat_gt (2 / δ)
  refine ⟨n, truncEnclosed_isSome (errDen n) (Nat.two_pow_pos _) _ (kernelApprox_den_pos n rn rd p q hrd hp0)
    _ (kernelApprox_close n rn rd p q hrn hrd hr hq hp hpq) fun m hm => lt_of_lt_of_le ?_ (hgap m hm)⟩
  have hE : (n : ℝ) ≤ errDen n := by
    have h1 : n < errDen n := Nat.lt_two_pow_self.trans_le (Nat.pow_le_pow_right (by norm_num) (by omega))
    exact_mod_cast h1.le
  have hE0 : (0:ℝ) < errDen n := lt_of_lt_of_le (lt_trans (by positivity) hn) hE
  rw [div_lt_iff₀ hE0]
  rw [div_lt_iff₀ hδ] at hn
  nlinarith

/-- What a precision level decides is R332's truncation. -/
theorem tapAt_eq (rn rd p q n : ℕ) (hrn : 0 < rn) (hrd : 0 < rd) (hr : rn ≤ rd) (hq : 0 < q) (hp : p ≤ 8 * q)
    (hpq : p % q ≠ 0) (m : ℤ) (hm : tapAt rn rd p q n = some m) : m = realTrunc (kernelValue rn rd p q) :=
  truncEnclosed_eq_realTrunc (errDen n) (Nat.two_pow_pos _) _
    (kernelApprox_den_pos n rn rd p q hrd (Nat.pos_of_ne_zero (by rintro rfl; simp at hpq)))
    _ (kernelApprox_close n rn rd p q hrn hrd hr hq hp hpq) m hm

end Sys2Proof.Machine
end

