-- ==== Sys2Proof/Machine/Kernel.lean ====
section
/-!
DEFINITION. The kernel table of the rate converter (46_rate_converter.md R332), exact for every ratio: the
precision of `Machine/Sinc.lean` rises until the enclosure of the real value truncates to one integer. That
some level does is `exists_tapAt` of `Laws/Kernel.lean` (log 10).
-/

namespace Sys2Proof.Machine

/-- The factor `r` of R332 for `f_ratio` = `c / d`, as numerator and denominator: `1 / f_ratio` when
downsampling, 1 when upsampling. The table's argument is `x_i * r` in both cases. -/
def kernelScale (c d : Nat) : Nat × Nat := if d < c then (d, c) else (1, 1)

theorem kernelScale_bounds (c d : Nat) : (kernelScale c d).1 ≤ (kernelScale c d).2 ∧ 0 < (kernelScale c d).2 := by
  unfold kernelScale
  split
  · exact ⟨by dsimp only; omega, by dsimp only; omega⟩
  · exact ⟨le_refl 1, Nat.one_pos⟩

/-- Every table entry off the zeros of `sinc` is decided at some precision level. -/
theorem kernelScale_decides (c d : Nat) (i : Fin 2048)
    (h : ¬ i.val * (kernelScale c d).1 % (sincReso * (kernelScale c d).2) = 0) :
    ∃ n, (tapAt (kernelScale c d).1 (kernelScale c d).2 (i.val * (kernelScale c d).1)
      (sincReso * (kernelScale c d).2) n).isSome = true := by
  obtain ⟨h1, h2⟩ := kernelScale_bounds c d
  have h3 : 0 < (kernelScale c d).1 := Nat.pos_of_ne_zero fun h0 => h (by rw [h0, Nat.mul_zero, Nat.zero_mod])
  refine exists_tapAt _ _ _ _ h3 h2 h1 (Nat.mul_pos (by decide) h2) ?_ h
  calc i.val * (kernelScale c d).1 ≤ 2048 * (kernelScale c d).2 := Nat.mul_le_mul i.isLt.le h1
    _ = 8 * (sincReso * (kernelScale c d).2) := by rw [← Nat.mul_assoc]; rfl

/-- The entry the first deciding precision level gives. -/
def refinedTap (rn rd p q : Nat) (h : ∃ n, (tapAt rn rd p q n).isSome = true) : Int :=
  (tapAt rn rd p q (Nat.find h)).get (Nat.find_spec h)

/-- `SINC[i]` for `f_ratio` = `c / d` (R332), `c` = `CLOCK_HZ` and `d` = `72 * RATE_HZ`. The two exact
cases of the formula (`x` = 0, and `sinc` at a whole number) are taken exactly; elsewhere precision level 0 is
tried before the search. -/
def sincEntry (c d : Nat) (i : Fin 2048) : Int :=
  if i.val * (kernelScale c d).1 = 0 then ((2 ^ sincAmpBits * (kernelScale c d).1 / (kernelScale c d).2 : Nat) : Int)
  else if h : i.val * (kernelScale c d).1 % (sincReso * (kernelScale c d).2) = 0 then 0
  else
    (tapAt (kernelScale c d).1 (kernelScale c d).2 (i.val * (kernelScale c d).1) (sincReso * (kernelScale c d).2) 0).getD
      (refinedTap _ _ _ _ (kernelScale_decides c d i h))

end Sys2Proof.Machine
end

