-- ==== Sys2Proof/Machine/Phase.lean ====
section
/-!
DEFINITION. Phase generator and LFOs (41_phase_lfo.md).
-/

namespace Sys2Proof.Machine

/-- `PM_TABLE[f >> 7][p]` (R167). -/
def pmEntry (f : BitVec 10) (p : BitVec 3) : Int :=
  (pmTable.getD (f.toNat >>> 7) []).getD p.toNat 0

/-- `PM_OFFSET(f)` (R170): full depth with `dvb`, else the magnitude halved before the sign. -/
def pmOffset (dvb : Bool) (p : BitVec 3) (f : BitVec 10) : Int :=
  let e := pmEntry f p
  e.sign * ((e.natAbs >>> (if dvb then 0 else 1) : Nat) : Int)

/-- The phase increment of a slot (R161, R171). -/
def phaseInc (dvb : Bool) (p : BitVec 3) (ch : Channel) (sl : Slot) : Int :=
  let pmo := if sl.pm then pmOffset dvb p ch.fnum else 0
  (((ch.fnum.toNat : Int) + pmo) * (multiple sl.ml : Int)) * (2 ^ ch.block.toNat : Nat)

/-- `wrap21(phase + inc)` (R163). -/
def Slot.advancePhase (inc : Int) (sl : Slot) : Slot :=
  { sl with phase := BitVec.ofInt 21 ((sl.phase.toNat : Int) + inc) }

/-- The waveform index `phase >> 11` (R162). -/
def Slot.pidx (sl : Slot) : BitVec 10 := sl.phase.extractLsb' 11 10

/-- Step 1 of a tick (R291): the counter, then the tremolo position every 64 ticks (R169) and the
vibrato position every 1024 (R166). -/
def Chip.lfoStep (c : Chip) : Chip :=
  let t := c.tick + 1
  { c with
    tick := t
    amPos := if t &&& 0x3F = 0 then (c.amPos + 1) % 210 else c.amPos
    pmPos := if t &&& 0x3FF = 0 then c.pmPos + 1 else c.pmPos }

/-- `AM_VAL` (R173). -/
def Chip.amVal (c : Chip) : Nat :=
  if c.dam then amTable c.amPos else amTable c.amPos >>> 2

end Sys2Proof.Machine
end

