-- ==== Sys2Proof/Machine/Waveform.lean ====
section
/-!
DEFINITION. Waveform and exponential decoder (43_waveform.md).
-/

namespace Sys2Proof.Machine

/-- `FULLSIN(i)` (R233). -/
def fullSin (i : BitVec 10) : BitVec 16 :=
  let x := i.extractLsb' 0 8
  BitVec.ofBool (i.getLsbD 9) ++ BitVec.ofNat 15 (if i.getLsbD 8 then logSin (255 - x) else logSin x)

/-- `SILENT` (R233). -/
def silentEntry : BitVec 16 := 0x1000

/-- `WAVE[ws][i]` (R233). -/
def waveEntry (ws : BitVec 2) (i : BitVec 10) : BitVec 16 :=
  match ws.toNat with
  | 0 => fullSin i
  | 1 => if i.getLsbD 9 then silentEntry else fullSin i
  | 2 => fullSin (i &&& 0x1FF)
  | _ => if i.getLsbD 8 then silentEntry else fullSin (i &&& 0xFF)

/-- `lvl` (R235): the attenuation sum, saturated. -/
def levelOf (amVal : Nat) (sl : Slot) : Nat :=
  min egMute (sl.egOut + sl.tll + (if sl.am then amVal else 0))

/-- `DECODE(h, lvl)` (R236, R237). -/
def decodeWave (h : BitVec 16) (lvl : Nat) : Int :=
  let m := (h.extractLsb' 0 15).toNat + (lvl <<< 3)
  let mag := ((expEntry (BitVec.ofNat 8 m ^^^ 0xFF) + 1024) <<< 1) >>> (m >>> 8)
  if h.msb then -(mag : Int) else mag

/-- `SLOT_OUT(s, mod)` (R239): the waveform index is offset by `mod`, modulo 1024. -/
def slotOut (amVal : Nat) (sl : Slot) (mod : Int) : Int :=
  decodeWave (waveEntry sl.wave (BitVec.ofInt 10 ((sl.pidx.toNat : Int) + mod))) (levelOf amVal sl)

/-- A percussion voice at its derived index (R239, R272 to R274). -/
def voiceOut (amVal : Nat) (sl : Slot) (idx : BitVec 10) : Int :=
  decodeWave (waveEntry sl.wave idx) (levelOf amVal sl)

end Sys2Proof.Machine
end

