-- ==== Sys2Proof/Machine/Router.lean ====
section
/-!
DEFINITION. Channel composition, algorithm router, percussion, noise and mix (44_channel_rhythm.md).
-/

namespace Sys2Proof.Machine

/-! ## Melodic channels -/

/-- `fbmod(c)` (R260); `>>` is floor. -/
def feedback (fb : BitVec 3) (out1 out2 : Int) : Int :=
  if fb = 0 then 0 else (out1 + out2) >>> (9 - fb.toNat)

/-- `mod_out(c)` (R261). -/
def Chip.modOut (c : Chip) (ch : ChanId) : Int :=
  let m := c.slotAt (modSlot ch)
  slotOut c.amVal m (feedback (c.chanAt ch).fb m.out1 m.out2)

/-- `car_out(c)` (R262, R263). -/
def Chip.carOut (c : Chip) (ch : ChanId) : Int :=
  slotOut c.amVal (c.slotAt (carSlot ch)) (if (c.chanAt ch).alg then 0 else c.modOut ch)

/-- `ch_out(c)` (R262, R263). -/
def Chip.chOut (c : Chip) (ch : ChanId) : Int :=
  if (c.chanAt ch).alg then c.modOut ch + c.carOut ch else c.carOut ch

/-! ## Percussion -/

/-- The waveform indices of the hi-hat and the cymbal slots (R272). -/
def Chip.hh (c : Chip) : BitVec 10 := (c.slotAt 13).pidx
def Chip.tc (c : Chip) : BitVec 10 := (c.slotAt 17).pidx

/-- `x` of R272. -/
def Chip.metalBit (c : Chip) : Bool :=
  ((c.hh.getLsbD 2 ^^ c.hh.getLsbD 7) || (c.hh.getLsbD 3 ^^ c.tc.getLsbD 5))
    || (c.tc.getLsbD 3 ^^ c.tc.getLsbD 5)

/-- `nb`, the noise bit (R272, R278). -/
def Chip.noiseBit (c : Chip) : Bool := c.noise.getLsbD 0

/-- `idx_HH` (R272). -/
def Chip.idxHH (c : Chip) : BitVec 10 :=
  BitVec.ofBool c.metalBit ++ (if c.metalBit ^^ c.noiseBit then 0xD0#9 else 0x34#9)

/-- `idx_SD` (R273). -/
def Chip.idxSD (c : Chip) : BitVec 10 :=
  BitVec.ofBool (c.hh.getLsbD 8) ++ (BitVec.ofBool (c.hh.getLsbD 8 ^^ c.noiseBit) ++ 0#8)

/-- `idx_TC` (R274). -/
def Chip.idxTC (c : Chip) : BitVec 10 := BitVec.ofBool c.metalBit ++ 0x80#9

/-- The five percussion voices (R86). -/
inductive Voice where
  | hh | tc | tom | sd | bd
  deriving DecidableEq, Repr

/-- `voice_out(v)` (R271 to R275). -/
def Chip.voiceOutput (c : Chip) : Voice → Int
  | .hh => voiceOut c.amVal (c.slotAt 13) c.idxHH
  | .tc => voiceOut c.amVal (c.slotAt 17) c.idxTC
  | .tom => slotOut c.amVal (c.slotAt 14) 0
  | .sd => voiceOut c.amVal (c.slotAt 16) c.idxSD
  | .bd => c.chOut 6

/-! ## Slot outputs and history -/

/-- The output of a slot as its channel's modulator or carrier (R261 to R263). -/
def Chip.melodicOut (c : Chip) (s : SlotId) : Int :=
  if isModulator s then c.modOut (chanOfSlot s) else c.carOut (chanOfSlot s)

/-- `out_s`, the value step 5 of a tick computes for slot `s` (R291): a voice output for slots 13, 14,
16 and 17 in percussion mode, else the slot's part in its channel. -/
def Chip.slotOutput (c : Chip) (s : SlotId) : Int :=
  if c.rhythm then
    match s.val with
    | 13 => c.voiceOutput .hh
    | 14 => c.voiceOutput .tom
    | 16 => c.voiceOutput .sd
    | 17 => c.voiceOutput .tc
    | _ => c.melodicOut s
  else c.melodicOut s

/-- The history of every slot shifted (R264). -/
def Chip.shiftHistory (c : Chip) : Chip :=
  c.mapSlots fun s sl => { sl with out2 := sl.out1, out1 := c.slotOutput s }

/-! ## Mix -/

/-- The bit of the mute mask that mutes a voice (R320). -/
def Voice.muteBit : Voice → Nat
  | .hh => 9
  | .tc => 10
  | .tom => 11
  | .sd => 12
  | .bd => 13

/-- `ch_out(c)`, or 0 when muted (R265, R266). -/
def Chip.chanMix (c : Chip) (ch : ChanId) : Int := if c.muteMask.getLsbD ch.val then 0 else c.chOut ch

/-- `RHYTHM_GAIN * voice_out(v)`, or 0 when muted (R266, R277). -/
def Chip.voiceMix (c : Chip) (v : Voice) : Int :=
  if c.muteMask.getLsbD v.muteBit then 0 else rhythmGain * c.voiceOutput v

/-- `acc` of R266. -/
def Chip.mixSum (c : Chip) : Int :=
  let top := c.chanMix 0 + c.chanMix 1 + c.chanMix 2 + c.chanMix 3 + c.chanMix 4 + c.chanMix 5
  if c.rhythm then
    top + (c.voiceMix .bd + c.voiceMix .hh + c.voiceMix .tom + c.voiceMix .sd + c.voiceMix .tc)
  else top + (c.chanMix 6 + c.chanMix 7 + c.chanMix 8)

/-- `clamp(-32768, 32767, v)` as a sample (R266, R335). -/
def clampSample (v : Int) : Sample := BitVec.ofInt 16 (min 32767 (max (-32768) v))

/-- `MIX()` (R266). -/
def Chip.mix (c : Chip) : Sample := clampSample c.mixSum

/-! ## Noise -/

/-- `NOISE_STEP()` (R278). -/
def Chip.noiseStep (c : Chip) : Chip :=
  let nbit := (c.noise ^^^ (c.noise >>> 14)) &&& 1
  { c with noise := (c.noise >>> 1) ||| (nbit <<< 22) }

end Sys2Proof.Machine
end

