-- ==== Sys2Proof/Machine/Convert.lean ====
section
/-!
DEFINITION. The windowed-sinc rate converter (46_rate_converter.md R330 to R336).
-/

namespace Sys2Proof.Machine

/-- `CONV_TEST` (R330): the converter is present iff neither `floor(f_inp)` nor `floor(f_inp + 1/2)` is
the output rate, with `f_inp` = `CLOCK_HZ / 72`. -/
def convTest (clock rate : Nat) : Bool :=
  decide (clock / clocksPerTick ≠ rate) && decide ((2 * clock + clocksPerTick) / (2 * clocksPerTick) ≠ rate)

/-- `LOOKUP(x)` (R333) at `x` = `xNum / d`, for the kernel of `f_ratio` = `c / d`: the index is
`|trunc(256 * x)|`, at most 2047. -/
def lookup (c d : Nat) (xNum : Int) : Int :=
  sincEntry c d ⟨min 2047 (sincReso * xNum.natAbs / d), by omega⟩

/-- `CONV_PUT` (R334): the buffer shifts down by one, the new sample enters last. -/
def Converter.put (x : Sample) (k : Converter) : Converter :=
  { k with buf := Vector.ofFn fun i : Fin 16 => if h : i.val + 1 < 16 then k.buf[i.val + 1] else x }

/-- The timer after the advance of `CONV_GET` (R335): `frac(conv_timer + c / d)`, as a numerator over `d`. -/
def Converter.advance (c d : Nat) (k : Converter) : Converter := { k with timerNum := (k.timerNum + c) % d }

/-- `acc` of R335 at `dn` = `timerNum / d`: the sum over the taps `k` of
`conv_buf[k] * LOOKUP((k - 7) - dn)`. -/
def Converter.convolve (c d : Nat) (k : Converter) : Int :=
  (List.finRange 16).foldl
    (fun acc i => acc + k.buf[i.val].toInt * lookup c d (((i.val : Int) - (sincWidth / 2 - 1 : Nat)) * d - k.timerNum)) 0

/-- `CONV_GET()` (R335): the converter with its timer advanced, and one output sample. -/
def Converter.get (c d : Nat) (k : Converter) : Converter × Sample :=
  let k1 := k.advance c d
  (k1, clampSample (k1.convolve c d >>> sincAmpBits))

end Sys2Proof.Machine
end

