-- ==== Sys2Proof/Machine/Tick.lean ====
section
/-!
DEFINITION. The native tick (45_render.md R291) and `render(n)` (R290).
-/

namespace Sys2Proof.Machine

/-- Step 4 of a tick for one slot (R291): `EG_STEP` at the rate of the state the slot is in, then the
phase advance. A key edge of step 2 and a transition of this step are committed at once (R42, log 13). -/
def Chip.slotTick (c : Chip) (s : SlotId) (sl : Slot) : Slot :=
  let ch := c.chanFor s
  let sl := (commitSlot c.nts ch sl).egStep c.tick
  (commitSlot c.nts ch sl).advancePhase (phaseInc c.dvb c.pmPos ch sl)

/-- Steps 0 to 3 of a tick: commit, counter and LFOs, CSM release, timers, noise (R291). -/
def Chip.preTick (c : Chip) : Chip := c.commit.lfoStep.csmRelease.timerStep.noiseStep

/-- Step 4 of a tick over every slot (R291). -/
def Chip.slotsTick (c : Chip) : Chip := c.mapSlots c.slotTick

/-- Steps 5 to 7 of a tick: outputs, history, mix (R291). -/
def Chip.outputTick (c : Chip) : Chip := { c.shiftHistory with mixOut := c.mix }

/-- `TICK()` (R291). -/
def Chip.tick1 (c : Chip) : Chip := c.preTick.slotsTick.outputTick

/-- `render(n)` (R290): `n` successive ticks, their samples in order and the state of the last one. -/
def render : Nat → Chip → List Sample × Chip
  | 0, c => ([], c)
  | n + 1, c =>
    let c1 := c.tick1
    let r := render n c1
    (c1.mixOut :: r.1, r.2)

end Sys2Proof.Machine
end

