-- ==== Sys2Proof/Machine/Render.lean ====
section
/-!
DEFINITION. The meanings of the render commands and of the two small host commands (45_render.md
R310 to R312, R320, R321).
-/

namespace Sys2Proof.Machine

/-- `CONV_PUT(mix_out)` when the converter is present (R310, R334). -/
def Chip.convPut (c : Chip) : Chip := { c with conv := c.conv.map (Converter.put c.mixOut) }

/-- One turn of the pacing loop of `calcOne` (R310). -/
def Chip.paceTurn (c : Chip) : Chip := { c with outTime := c.outTime + c.inpStep }.tick1.convPut

/-- The loop `while out_step > out_time` of R310, with at most `fuel` turns; none when they do not end it. -/
def paceLoop : Nat → Chip → Option Chip
  | 0, c => if c.outStep > c.outTime then none else some c
  | fuel + 1, c => if c.outStep > c.outTime then paceLoop fuel c.paceTurn else some c

/-- The value `calcOne` returns after its ticks, and the instance it leaves (R310, R335). -/
def Chip.finishOne (c : Chip) : Chip × Sample :=
  let c := { c with outTime := c.outTime - c.outStep }
  match c.conv with
  | none => (c, c.mixOut)
  | some k =>
    let r := k.get c.clockHz (clocksPerTick * c.rateHz)
    ({ c with conv := some r.1 }, r.2)

/-- R310. While `inp_step` is positive each turn raises `out_time`, so `out_step - out_time` turns always
suffice (log 11). -/
def execCalcOne (s : State) : Host.Outcome State Fault Refusal :=
  issue s none true <|
    match paceLoop (s.chip.outStep - s.chip.outTime) s.chip with
    | none => .fault .pacingNeverEnds
    | some c => .next ((s.setChip c.finishOne.1).setReply (.sample c.finishOne.2))

/-- The state a buffer render leaves: the two fault checks before any change (R311, R312, R364), else
`n` ticks and their elements stored from `buf` on. -/
def renderToBuffer (elem : Sample → List Byte) (n : Nat) (word : Word) (s : State) : State :=
  if s.chip.conv.isSome then raiseFault s .rateMismatch word
  else if n > s.maxBatch then raiseFault s (.batchTooLarge n) word
  else
    let r := render n s.chip
    { s with chip := r.2, mem := Memory.storeElems s.args.buf (r.1.map elem) s.mem }

/-- A buffer render's own refusal, `R_BUFFER` (R65, R362). -/
def bufferRefusal (a : LaunchArgs) (elemBytes n : Nat) : Option Refusal :=
  if bufferOk a elemBytes n then none else some .buffer

/-- R311. -/
def execCalcBuffer (n : BitVec 24) (s : State) : Host.Outcome State Fault Refusal :=
  issue s (bufferRefusal s.args sampleBytes n.toNat) true
    (.next (renderToBuffer sampleLE n.toNat (encode (.calcBuffer n)) s))

/-- R312. -/
def execCalcBufferStereo (n : BitVec 24) (s : State) : Host.Outcome State Fault Refusal :=
  issue s (bufferRefusal s.args frameBytes n.toNat) true
    (.next (renderToBuffer frameLE n.toNat (encode (.calcBufferStereo n)) s))

/-- R320. -/
def execSetMask (m : BitVec 14) (s : State) : Host.Outcome State Fault Refusal :=
  issue s none true (.next (s.setChip { s.chip with muteMask := m }))

/-- R321. -/
def execStatus (s : State) : Host.Outcome State Fault Refusal :=
  issue s none true (.next (s.setReply (.status s.chip.statusByte)))

end Sys2Proof.Machine
end

