-- ==== Sys2Proof/Machine/SlotWrites.lean ====
section
/-!
DEFINITION. The meanings of the per-slot register writes (40_register_writes.md R127 to R130, R135).
-/

namespace Sys2Proof.Machine

/-- R127. -/
def execAmVib (i : SlotId) (v : Byte) (s : State) : Host.Outcome State Fault Refusal :=
  registerWrite (slotAddr 0x20 i) v
    (fun c => c.updSlot i fun sl =>
      { sl with am := bit v 7, pm := bit v 6, eg := bit v 5, kr := bit v 4, ml := field v 0 4 }.markDirty Dirty.forKeyScale) s

/-- R128. -/
def execKslTl (i : SlotId) (v : Byte) (s : State) : Host.Outcome State Fault Refusal :=
  registerWrite (slotAddr 0x40 i) v
    (fun c => c.updSlot i fun sl => { sl with kl := field v 6 2, tl := field v 0 6 }.markDirty Dirty.forTll) s

/-- R129. -/
def execArDr (i : SlotId) (v : Byte) (s : State) : Host.Outcome State Fault Refusal :=
  registerWrite (slotAddr 0x60 i) v
    (fun c => c.updSlot i fun sl => { sl with ar := field v 4 4, dr := field v 0 4 }.markDirty Dirty.forRate) s

/-- R130. -/
def execSlRr (i : SlotId) (v : Byte) (s : State) : Host.Outcome State Fault Refusal :=
  registerWrite (slotAddr 0x80 i) v
    (fun c => c.updSlot i fun sl => { sl with sl := field v 4 4, rr := field v 0 4 }.markDirty Dirty.forRate) s

/-- R135: honoured only while `wse` = 1; otherwise the write only stores `reg[a]`. -/
def execWs (i : SlotId) (v : Byte) (s : State) : Host.Outcome State Fault Refusal :=
  registerWrite (slotAddr 0xE0 i) v
    (fun c => if c.wse then c.updSlot i fun sl => { sl with ws := field v 0 2 }.markDirty Dirty.forWave else c) s

end Sys2Proof.Machine
end

