-- ==== Sys2Proof/Machine/System.lean ====
section
/-!
DEFINITION. The meanings of `new`, `reset` and `setRate` (70_reset_and_hazards.md R400 to R403).
-/

namespace Sys2Proof.Machine

/-- `RESET_STATE()` (R401): every field of the instance takes its reset value but the clock, the rates,
the pacing steps and the presence of the converter. -/
def resetState (c : Chip) : Chip :=
  { Chip.initial c.clockHz c.rateHz c.conv.isSome with outStep := c.outStep, inpStep := c.inpStep }

/-- A converter with cleared state, present by `CONV_TEST` (R330, R339). -/
def freshConverter (clock rate : Nat) : Option Converter :=
  if convTest clock rate then some Converter.initial else none

/-- R401. -/
def execReset (s : State) : Host.Outcome State Fault Refusal :=
  issue s none true (.next (s.setChip (resetState s.chip)))

/-- R403. The synthesis state is unchanged. -/
def execSetRate (r : BitVec 24) (s : State) : Host.Outcome State Fault Refusal :=
  issue s (if r = 0 then some .encoding else none) true <|
    .next (s.setChip
      { s.chip with
        rateHz := r.toNat
        inpStep := clocksPerTick * r.toNat
        outTime := 0
        conv := freshConverter s.chip.clockHz r.toNat })

/-- R400. A second `new` makes another instance, which the model then follows (log 3). -/
def execNew (s : State) : Host.Outcome State Fault Refusal :=
  issue s (if s.args.clock = 0 ∨ s.args.rate = 0 then some .encoding else none) false <|
    .next { s with
      created := true
      chip := Chip.initial s.args.clock s.args.rate (convTest s.args.clock s.args.rate)
      faults := [] }

end Sys2Proof.Machine
end

