-- ==== Sys2Proof/Machine/Dispatch.lean ====
section
/-!
DEFINITION. The dispatch: one arm per constructor of `Instr`, each one call of its meaning.
-/

namespace Sys2Proof.Machine

def exec (i : Instr) (s : State) : Host.Outcome State Fault Refusal :=
  match i with
  | .irqReset v => Sys2Proof.Machine.execIrqReset v s
  | .test v => Sys2Proof.Machine.execTest v s
  | .timer1 v => Sys2Proof.Machine.execTimer1 v s
  | .timer2 v => Sys2Proof.Machine.execTimer2 v s
  | .timerCtl v => Sys2Proof.Machine.execTimerCtl v s
  | .mode v => Sys2Proof.Machine.execMode v s
  | .rhythm v => Sys2Proof.Machine.execRhythm v s
  | .amVib n v => Sys2Proof.Machine.execAmVib n v s
  | .kslTl n v => Sys2Proof.Machine.execKslTl n v s
  | .arDr n v => Sys2Proof.Machine.execArDr n v s
  | .slRr n v => Sys2Proof.Machine.execSlRr n v s
  | .ws n v => Sys2Proof.Machine.execWs n v s
  | .fnumLo ch v => Sys2Proof.Machine.execFnumLo ch v s
  | .keyBlock ch v => Sys2Proof.Machine.execKeyBlock ch v s
  | .fbAlg ch v => Sys2Proof.Machine.execFbAlg ch v s
  | .reserved a v => Sys2Proof.Machine.execReserved a v s
  | .calcOne => Sys2Proof.Machine.execCalcOne s
  | .calcBuffer n => Sys2Proof.Machine.execCalcBuffer n s
  | .calcBufferStereo n => Sys2Proof.Machine.execCalcBufferStereo n s
  | .status => Sys2Proof.Machine.execStatus s
  | .setMask m => Sys2Proof.Machine.execSetMask m s
  | .reset => Sys2Proof.Machine.execReset s
  | .setRate r => Sys2Proof.Machine.execSetRate r s
  | .new => Sys2Proof.Machine.execNew s

end Sys2Proof.Machine
end

