-- ==== Sys2Proof/Machine/Step.lean ====
section
/-!
DEFINITION. One step of the machine: the next command of the host is taken and executed (00_scope.md
R4, 20_memory.md R66). There is no program counter (10_state.md R21); the host's commands stand in
`pending` (log 1).
-/

namespace Sys2Proof.Machine

/-- One command. With no command pending the instance holds its state (60_exceptions.md R385). A word
that decodes to nothing is refused (R362). -/
def step (s : State) : Host.Outcome State Fault Refusal :=
  match s.pending with
  | [] => .next s
  | h :: rest =>
    match decode h.word with
    | some i => exec i (s.accept h rest)
    | none => rejectWord (s.accept h rest)

/-- The state with a command word put at the head of the host's commands, where `step` takes its next
one, with the launch arguments of log 1. -/
def State.withFetchWord (s : State) (nbits w : Nat) : State :=
  { s with pending := ⟨BitVec.ofNat 32 (w % 2 ^ nbits), LaunchArgs.initial⟩ :: s.pending }

end Sys2Proof.Machine
end

