-- ==== Sys2Proof/Machine/Batch.lean ====
section
/-!
DEFINITION. The batch renderer (00_scope.md R2, 45_render.md R300): a unit that computes `render(n)` slot
by slot instead of tick by tick. The commands are defined by the ticks of R291 (R7, R425); R300 holds this
unit to them, which is a statement of its own.

Its parts follow R300's description: the chip-wide schedule of a span (LFOs, timers, noise, key mask), which
no slot changes; one slot over the span, as loops that each stay in one envelope state with the rates held
fixed and end at a state transition or a key edge; all modulators into scratch, then the carriers, then the
percussion voices with their fixed wiring; the mix buffer. The early exit on silence R301 allows is not
taken: it would freeze a phase (log 15).
-/

namespace Sys2Proof.Machine

/-! ## The chip-wide schedule -/

/-- The chip-wide part of a tick, steps 1 to 3 of R291. What it does to the slots is not used here. -/
def Chip.control (c : Chip) : Chip := c.lfoStep.csmRelease.timerStep.noiseStep

/-- The chip-wide state before each tick of a span. -/
def schedule : Nat → Chip → List Chip
  | 0, _ => []
  | n + 1, c => c :: schedule n c.control

/-- A key pulse ends or starts in the tick that begins in this state (R374). -/
def Chip.hasEdge (c : Chip) : Bool := c.csmPulse || (c.t1.step.2 && c.csm)

/-- The key edges slot `s` sees in step 2 of the tick that begins in this state (R374). -/
def Chip.slotEdges (c : Chip) (s : SlotId) (sl : Slot) : Slot :=
  let sl := if c.csmPulse then { c with csmPulse := false }.keyEdge s sl else sl
  let c := c.csmRelease
  if c.t1.step.2 && c.csm then { c with csmPulse := true }.keyEdge s sl else sl

/-! ## One slot over a span -/

/-- One loop: the slot as each tick leaves it, and the rest of the span. The loop goes on while the slot
keeps its envelope state, so its rates are those it began with; it ends at the tick of a transition, or
before a tick with a key edge. -/
def slotLoop (s : SlotId) : List Chip → Slot → List Slot × Slot × List Chip
  | [], sl => ([], sl, [])
  | c :: cs, sl =>
    let k := c.control
    let next := (sl.egStep k.tick).advancePhase (phaseInc k.dvb k.pmPos (k.chanFor s) sl)
    if next.egState = sl.egState ∧ cs.head?.any Chip.hasEdge = false then
      let r := slotLoop s cs next
      (next :: r.1, r.2)
    else
      let done := commitSlot k.nts (k.chanFor s) next
      ([done], done, cs)

/-- The loops of one slot over a span, each resumed at the split point of the one before; `fuel` is at
least the number of ticks. -/
def slotRun (s : SlotId) : Nat → List Chip → Slot → List Slot
  | 0, _, _ => []
  | _ + 1, [], _ => []
  | fuel + 1, c :: cs, sl =>
    let commit := commitSlot c.nts (c.chanFor s)
    let r := slotLoop s (c :: cs) (commit (c.slotEdges s (commit sl)))
    r.1 ++ slotRun s fuel r.2.2 r.2.1

/-! ## Outputs -/

/-- A modulator's scratch buffer (R260, R261): `ks` the chip-wide states during the ticks, `tr` the slot
at them, `o1` and `o2` its last two outputs. -/
def modScratch (fb : BitVec 3) : List Chip → List Slot → Int → Int → List Int
  | k :: ks, sl :: tr, o1, o2 =>
    let o := slotOut k.amVal sl (feedback fb o1 o2)
    o :: modScratch fb ks tr o o1
  | _, _, _, _ => []

/-- A carrier's outputs beside its channel's modulator scratch (R262, R263). -/
def carScratch (alg : Bool) : List Chip → List Slot → List Int → List Int
  | k :: ks, sl :: tr, m :: ms => slotOut k.amVal sl (if alg then 0 else m) :: carScratch alg ks tr ms
  | _, _, _ => []

/-- The channel's part in the mix buffer (R262, R263). -/
def channelBuffer (alg : Bool) (ms cs : List Int) : List Int :=
  List.zipWith (fun m o => if alg then m + o else o) ms cs

/-- A percussion voice over a span (R272 to R275): its own slot, and the slots 13 and 17 whose phases the
wiring reads. -/
def voiceBuffer (v : Voice) (s : SlotId) : List Chip → List Slot → List Slot → List Slot → List Int
  | k :: ks, hh :: hhs, tc :: tcs, sl :: tr =>
    (((k.updSlot 13 fun _ => hh).updSlot 17 fun _ => tc).updSlot s fun _ => sl).voiceOutput v
      :: voiceBuffer v s ks hhs tcs tr
  | _, _, _, _ => []

/-- A buffer added into the mix buffer, unless its unit is muted (R265, R266). -/
def addBuffer (muted : Bool) (gain : Int) (buf acc : List Int) : List Int :=
  if muted then acc else List.zipWith (fun a x => a + gain * x) acc buf

/-! ## A span -/

/-- What the renderer computes for a span before it mixes: the chip-wide states during its ticks, the
slots at them, the modulator and carrier outputs and the voices. -/
structure Span where
  during : List Chip
  slots : Vector (List Slot) 18
  mods : Vector (List Int) 9
  cars : Vector (List Int) 9
  hh : List Int
  tc : List Int
  tom : List Int
  sd : List Int
  deriving DecidableEq, Repr

/-- All slots over the span; then all modulators, then the carriers, then the percussion voices (R300). -/
def Chip.span (n : Nat) (c : Chip) : Span :=
  let before := schedule n c
  let during := before.map Chip.control
  let slots := Vector.ofFn fun s : SlotId => slotRun s n before (c.slotAt s)
  let mods := Vector.ofFn fun ch : ChanId =>
    let m := c.slotAt (modSlot ch)
    modScratch (c.chanAt ch).fb during slots[(modSlot ch).val] m.out1 m.out2
  let cars := Vector.ofFn fun ch : ChanId =>
    carScratch (c.chanAt ch).alg during slots[(carSlot ch).val] mods[ch.val]
  let voice (v : Voice) (s : SlotId) : List Int := voiceBuffer v s during slots[13] slots[17] slots[s.val]
  { during := during, slots := slots, mods := mods, cars := cars
    hh := voice .hh 13, tc := voice .tc 17, tom := voice .tom 14, sd := voice .sd 16 }

/-- The outputs of slot `s` over the span (R264): of its voice in percussion mode, else in its channel. -/
def Span.outputs (p : Span) (rhythm : Bool) (s : SlotId) : List Int :=
  let melodic := if isModulator s then p.mods[(chanOfSlot s).val] else p.cars[(chanOfSlot s).val]
  if rhythm then
    match s.val with
    | 13 => p.hh
    | 14 => p.tom
    | 16 => p.sd
    | 17 => p.tc
    | _ => melodic
  else melodic

/-- The channel mix buffer of the span, before saturation (R266). -/
def Span.mixBuffer (p : Span) (c : Chip) (n : Nat) : List Int :=
  let mute (i : Nat) : Bool := c.muteMask.getLsbD i
  let chan (ch : ChanId) : List Int := channelBuffer (c.chanAt ch).alg p.mods[ch.val] p.cars[ch.val]
  let top := (List.finRange 6).foldl
    (fun acc i => addBuffer (mute i.val) 1 (chan ⟨i.val, by omega⟩) acc) (List.replicate n 0)
  if c.rhythm then
    [(13, chan 6), (9, p.hh), (11, p.tom), (12, p.sd), (10, p.tc)].foldl
      (fun acc v => addBuffer (mute v.1) rhythmGain v.2 acc) top
  else
    [(6, chan 6), (7, chan 7), (8, chan 8)].foldl (fun acc v => addBuffer (mute v.1) 1 v.2 acc) top

/-- A slot after the span: as its last tick left it, its history the last two outputs (R264). -/
def slotAfter (old : Slot) (tr : List Slot) (outs : List Int) : Slot :=
  match outs.reverse with
  | [] => old
  | [o] => { tr.getLastD old with out1 := o, out2 := old.out1 }
  | o1 :: o2 :: _ => { tr.getLastD old with out1 := o1, out2 := o2 }

/-- The batch renderer: the samples of a span and the state it leaves (R300). -/
def batchRender (n : Nat) (c : Chip) : List Sample × Chip :=
  let p := c.span n
  let samples := (p.mixBuffer c n).map clampSample
  let last := p.during.getLastD c
  (samples,
    { last with
      slot := Vector.ofFn fun s : SlotId => slotAfter (c.slotAt s) p.slots[s.val] (p.outputs c.rhythm s)
      mixOut := samples.getLastD c.mixOut })

end Sys2Proof.Machine
end

