-- ==== Sys2Proof/Safety.lean ====
section
/-!
DEFINITION. What counts as a safe run, in the terms the statements use: when a command may run, the
bounds the spec gives the state, the coherence of the derived-field cache, and the key mask.
-/

namespace Sys2Proof.Machine

/-- A command on this state meets none of the refusals and faults that come before its own checks: an
instance exists, it has not faulted, no command overlaps (R362, R364, R47). -/
abbrev State.ready (s : State) : Prop :=
  s.created = true ∧ s.faults = [] ∧ s.args.overlaps = false

/-- The buffer of a render command is aligned and long enough (R65). -/
abbrev State.bufferReady (s : State) (elemBytes n : Nat) : Prop :=
  s.args.buf % elemBytes = 0 ∧ n ≤ s.args.bufLen

/-- The bounds of a slot: `0 ≤ eg_out ≤ EG_MUTE` (R37, R204), outputs in -4084..4084 (R39, R238). -/
abbrev Slot.bounded (sl : Slot) : Prop :=
  sl.egOut ≤ 511 ∧ -4084 ≤ sl.out1 ∧ sl.out1 ≤ 4084 ∧ -4084 ≤ sl.out2 ∧ sl.out2 ≤ 4084

/-- The bounds of an instance: slots, `am_pos` in 0..209 (R29), `noise` not 0 (R278, 93 U19). -/
abbrev Chip.bounded (c : Chip) : Prop :=
  (∀ i : SlotId, (c.slotAt i).bounded) ∧ c.amPos < 210 ∧ c.noise ≠ 0

/-- The pacing of an instance (R22, R23, R330, R335): positive rates, the steps they give, `out_time`
below `inp_step` (R310), the converter present by the test, its timer in [0, 1). -/
abbrev Chip.paced (c : Chip) : Prop :=
  0 < c.clockHz ∧ 0 < c.rateHz ∧ c.outStep = c.clockHz ∧ c.inpStep = 72 * c.rateHz ∧ c.outTime < c.inpStep
    ∧ c.conv.isSome = convTest c.clockHz c.rateHz
    ∧ ∀ k ∈ c.conv, k.timerNum < 72 * c.rateHz

/-- Every derived field of a slot that is not flagged equals its defining function (R40 to R42). -/
abbrev Slot.cacheOk (nts : Bool) (ch : Channel) (sl : Slot) : Prop :=
  (sl.dirty.wave = false → sl.wave = sl.ws)
    ∧ (sl.dirty.tll = false → sl.tll = tllOf ch sl.tl sl.kl)
    ∧ (sl.dirty.rks = false → sl.rks = rksOf nts ch sl.kr)
    ∧ (sl.dirty.egRate = false →
        sl.dirty.rks = false ∧ sl.egRateH = rateHigh sl.parameterRate sl.rks
          ∧ sl.egRateL = rateLow sl.parameterRate sl.rks
          ∧ sl.egShift = shiftOf (rateHigh sl.parameterRate sl.rks))

/-- The derived-field cache of the instance is coherent (R42, R72). -/
abbrev Chip.cacheOk (c : Chip) : Prop := ∀ i : SlotId, (c.slotAt i).cacheOk c.nts (c.chanFor i)

/-- No derived field is pending recompute. -/
abbrev Chip.clean (c : Chip) : Prop := ∀ i : SlotId, (c.slotAt i).dirty = Dirty.none

/-- The key mask is the desired key bitmask (R31, R140). -/
abbrev Chip.keysApplied (c : Chip) : Prop := c.keyMask = c.wantMask

/-- The state is safe: every invariant of the model together. -/
abbrev State.safe (s : State) : Prop :=
  s.chip.bounded ∧ s.chip.paced ∧ s.chip.cacheOk ∧ s.chip.keysApplied ∧ s.mem.wf = true

/-! ## Terms of the statements -/

/-- The desired key state of slot `i`, written out from the pseudocode of R140 and the percussion
assignment of R86. -/
abbrev keyWanted (c : Chip) (i : SlotId) : Prop :=
  (c.chanAt (chanOfSlot i)).key = true ∨ c.csmPulse = true
    ∨ (c.rhythm = true ∧
        ((i = 12 ∧ c.rkey.getLsbD 4 = true) ∨ (i = 15 ∧ c.rkey.getLsbD 4 = true)
          ∨ (i = 13 ∧ c.rkey.getLsbD 0 = true) ∨ (i = 16 ∧ c.rkey.getLsbD 3 = true)
          ∨ (i = 14 ∧ c.rkey.getLsbD 2 = true) ∨ (i = 17 ∧ c.rkey.getLsbD 1 = true)))

/-- Two slots agree on the patch fields (R35) and the output history (R39). -/
abbrev samePatchAndHistory (a b : Slot) : Prop :=
  a.am = b.am ∧ a.pm = b.pm ∧ a.eg = b.eg ∧ a.kr = b.kr ∧ a.ml = b.ml ∧ a.kl = b.kl ∧ a.tl = b.tl
    ∧ a.ar = b.ar ∧ a.dr = b.dr ∧ a.sl = b.sl ∧ a.rr = b.rr ∧ a.ws = b.ws ∧ a.out1 = b.out1 ∧ a.out2 = b.out2

/-- Timer 1 overflows at the next tick: it runs, its prescaler wraps and its counter is 255 (R370, R371). -/
abbrev Chip.timer1Overflows (c : Chip) : Prop := c.t1.run = true ∧ c.t1.pre = 3 ∧ c.t1.cnt = 255

/-- No key edge can happen at the next tick: no pulse to release and none to start (R140, R374). -/
abbrev Chip.quiet (c : Chip) : Prop := c.csmPulse = false ∧ ¬(c.timer1Overflows ∧ c.csm = true)

/-- The instance at the start of step 5 of its next tick: steps 0 to 4 of R291 done. -/
abbrev Chip.atOutputs (c : Chip) : Chip := c.preTick.slotsTick

/-- An instance without its derived-field cache and dirty flags (R40, R41). -/
def Chip.core (c : Chip) : Chip :=
  c.mapSlots fun _ sl =>
    { sl with tll := 0, rks := 0, egRateH := 0, egRateL := 0, egShift := 0, wave := 0, dirty := Dirty.all }

/-- A run of `k` commands that ends in a state without a fault recorded: the final states R360 counts
as valid. -/
abbrev safeRun (k : Nat) (s t : State) : Prop := Sys2Proof.core.run k s = .next t ∧ t.faults = []

end Sys2Proof.Machine
end

