-- ==== Sys2Proof/Certificates/Slice0/Obligations.lean ====
section
/-!
DEFINITION. The statements for the provers, from the numbered rules of spec/. OBLIGATIONS.json lists
them. A statement about a command's result is also its completion statement: it says that `exec`
answers a next state, which one, and so what stays unchanged.
-/

open Sys2Proof Sys2Proof.Machine

/-! ## Words and steps -/

/-- Decoding an encoded well-formed instruction gives it back, whatever its operands (30_encoding.md
R80 to R91). -/
def Obligations.DecodeOfEncodeIsTheInstruction : Prop :=
  ∀ i : Instr, i.wellFormed = true → decode (encode i) = some i

/-- Every word that decodes has one meaning: encoding what it decodes to gives the word back, and what
it decodes to is well formed (a write to a reserved address names an address R88 lists). -/
def Obligations.EncodeOfDecodeIsTheWord : Prop :=
  ∀ (w : Word) (i : Instr), decode w = some i → encode i = w ∧ i.wellFormed = true

/-- A few words of 95_test_vectors.md V1 and V2, written out from R80 to R89, and what they decode to. -/
def Obligations.SampleWordsDecode : Prop :=
  decode 0x01002301 = some (.amVib 3 0x01) ∧ decode 0x0100B03A = some (.keyBlock 0 0x3A)
    ∧ decode 0x0100BD21 = some (.rhythm 0x21) ∧ decode 0x01000480 = some (.irqReset 0)
    ∧ decode 0x0100B900 = some (.reserved 0xB9 0x00) ∧ decode 0x01003601 = some (.reserved 0x36 0x01)
    ∧ decode 0x03000064 = some (.calcBuffer 100) ∧ decode 0x06000201 = some (.setMask 0x201)
    ∧ decode 0x0800AC44 = some (.setRate 44100) ∧ decode 0x09000000 = some .new
    ∧ decode 0x01012301 = none ∧ decode 0x02000001 = none ∧ decode 0x0A000000 = none ∧ decode 0x06004000 = none

/-- A word is refused `R_ENCODING` exactly for an unknown code or for must-be-zero bits that are not
zero (R80, R362): those are the words that decode to nothing, and `step` refuses them unless the
instance has faulted or the command overlaps another (R364). -/
def Obligations.WordsOutsideTheFormatAreRefused : Prop :=
  (∀ w : Word, decode w = none ↔
    let code := w.toNat / 2 ^ 24
    let operand := w.toNat % 2 ^ 24
    code = 0 ∨ 9 < code ∨ (code = 1 ∧ operand / 2 ^ 16 ≠ 0)
      ∨ ((code = 2 ∨ code = 5 ∨ code = 7 ∨ code = 9) ∧ operand ≠ 0) ∨ (code = 6 ∧ operand / 2 ^ 14 ≠ 0))
  ∧ (∀ (s : State) (h : HostCall) (rest : List HostCall), s.pending = h :: rest → decode h.word = none →
      s.faults = [] → h.args.overlaps = false → step s = .refused .encoding)

/-- A step takes the first pending command, puts its launch arguments in place and is `exec` of the
instruction its word decodes to; with no command pending the state stands still (R4, R66, R385; the
queue is the model's form of the host's command list, log 1). -/
def Obligations.StepRunsTheDecodedCommand : Prop :=
  (∀ (s : State) (h : HostCall) (rest : List HostCall) (i : Instr),
      s.pending = h :: rest → decode h.word = some i →
      step s = exec i { s with pending := rest, args := h.args })
  ∧ (∀ s : State, s.pending = [] → step s = .next s)

/-- `writeReg(reg, value)` masks both arguments to 8 bits and no write is rejected (R61, R120): the words
of the masked and of the unmasked call are one word, and it decodes to a register write (command code 0x01)
of the masked address and value. -/
def Obligations.RegisterWritesMaskTheirArguments : Prop :=
  ∀ reg value : Nat,
    writeRegCall reg value = writeRegCall (reg % 256) (value % 256)
      ∧ ∃ i, decode (writeRegCall reg value) = some i ∧ (encode i).extractLsb' 24 8 = 0x01
          ∧ (encode i).extractLsb' 8 8 = BitVec.ofNat 8 reg ∧ (encode i).extractLsb' 0 8 = BitVec.ofNat 8 value

/-! ## Chip-wide register writes -/

/-- R121, R136: the test register write takes `wse` from bit 5 of the value, a reserved write touches no
field; each stores its value in the bank, and nothing else changes. -/
def Obligations.TestAndReservedWrites : Prop :=
  (∀ (v : Byte) (s : State), s.ready →
    exec (.test v) s = .next
      { s with chip := { s.chip with reg := s.chip.reg.set 0x01 v, wse := v.getLsbD 5 } })
  ∧ (∀ (a v : Byte) (s : State), s.ready →
    exec (.reserved a v) s = .next { s with chip := { s.chip with reg := s.chip.reg.set a.toNat v } })

/-- R122, R123: a timer latch write sets the latch and the bank entry and leaves the running counter; the
counter takes the latch at the next overflow and at the next start. -/
def Obligations.TimerLatchWritesLeaveTheCounter : Prop :=
  (∀ (v : Byte) (s : State), s.ready →
    exec (.timer1 v) s = .next
      { s with chip := { s.chip with reg := s.chip.reg.set 0x02 v, t1 := { s.chip.t1 with latch := v } } })
  ∧ (∀ (v : Byte) (s : State), s.ready →
    exec (.timer2 v) s = .next
      { s with chip := { s.chip with reg := s.chip.reg.set 0x03 v, t2 := { s.chip.t2 with latch := v } } })
  ∧ (∀ (w : Nat) (t : Timer w), t.run = true → t.pre + 1 = 0 → t.cnt = 255 → t.step.1.cnt = t.latch)
  ∧ (∀ (w : Nat) (t : Timer w) (m : Bool), t.run = false → (t.control m true).cnt = t.latch)

/-- R124: the IRQ-reset write clears both flags, so `status` reads 0, stores the value, and ignores bits
6..0 of it: masks, start bits, counters and latches keep their values. -/
def Obligations.IrqResetClearsOnlyTheFlags : Prop :=
  ∀ (v : BitVec 7) (s : State), s.ready → ∃ t : State, exec (.irqReset v) s = .next t
    ∧ t = { s with
        chip := { s.chip with
          reg := s.chip.reg.set 0x04 (1#1 ++ v)
          t1 := { s.chip.t1 with flag := false }
          t2 := { s.chip.t2 with flag := false } } }
    ∧ t.chip.statusByte = 0x00

/-- R125: timer control writes the masks and start bits; a start of a stopped timer loads its counter
from the latch and clears its prescaler, a start of a running one does not; bits 4..2 change nothing. -/
def Obligations.TimerControlWrite : Prop :=
  ∀ (v : BitVec 7) (s : State), s.ready →
    exec (.timerCtl v) s = .next
      { s with
        chip := { s.chip with
          reg := s.chip.reg.set 0x04 (0#1 ++ v)
          t1 := { s.chip.t1 with
            mask := v.getLsbD 6
            run := v.getLsbD 0
            cnt := if v.getLsbD 0 = true ∧ s.chip.t1.run = false then s.chip.t1.latch else s.chip.t1.cnt
            pre := if v.getLsbD 0 = true ∧ s.chip.t1.run = false then 0 else s.chip.t1.pre }
          t2 := { s.chip.t2 with
            mask := v.getLsbD 5
            run := v.getLsbD 1
            cnt := if v.getLsbD 1 = true ∧ s.chip.t2.run = false then s.chip.t2.latch else s.chip.t2.cnt
            pre := if v.getLsbD 1 = true ∧ s.chip.t2.run = false then 0 else s.chip.t2.pre } } }

/-- R126: the mode write sets `csm` and `nts` and marks RKS and EGRATE dirty in every slot; nothing else
changes, the key mask included. -/
def Obligations.ModeWriteSetsCsmAndNts : Prop :=
  ∀ (v : Byte) (s : State), s.ready → ∃ t : State, exec (.mode v) s = .next t
    ∧ t = { s with
        chip := { s.chip with
          reg := s.chip.reg.set 0x08 v
          csm := v.getLsbD 7
          nts := v.getLsbD 6
          slot := t.chip.slot } }
    ∧ ∀ i : SlotId, t.chip.slotAt i =
        { s.chip.slotAt i with dirty := { (s.chip.slotAt i).dirty with rks := true, egRate := true } }

/-- R133: the rhythm write sets the depth bits, the rhythm enable and the trigger bits, then updates the
keys (R140); nothing else changes. -/
def Obligations.RhythmWriteSetsLatchesAndKeys : Prop :=
  ∀ (v : Byte) (s : State), s.ready →
    exec (.rhythm v) s = .next
      { s with
        chip := Chip.updateKeys
          { s.chip with
            reg := s.chip.reg.set 0xBD v
            dam := v.getLsbD 7
            dvb := v.getLsbD 6
            rhythm := v.getLsbD 5
            rkey := v.extractLsb' 0 5 } }

/-! ## Per-slot register writes -/

/-- R127 to R130: each per-slot write sets its fields from the bits of R87, ORs its dirty flags, stores
the value at the address of the slot, and changes nothing else. -/
def Obligations.SlotWritesSetTheirFields : Prop :=
  ∀ (i : SlotId) (v : Byte) (s : State), s.ready →
    let at0 : Nat → Byte := fun base => BitVec.ofNat 8 (base + i.val / 6 * 8 + i.val % 6)
    let old := s.chip.slotAt i
    exec (.amVib i v) s = .next
      { s with
        chip := { s.chip.setReg (at0 0x20) v with
          slot := s.chip.slot.set i.val
            { old with
              am := v.getLsbD 7
              pm := v.getLsbD 6
              eg := v.getLsbD 5
              kr := v.getLsbD 4
              ml := v.extractLsb' 0 4
              dirty := { old.dirty with rks := true, egRate := true } } } }
    ∧ exec (.kslTl i v) s = .next
      { s with
        chip := { s.chip.setReg (at0 0x40) v with
          slot := s.chip.slot.set i.val
            { old with
              kl := v.extractLsb' 6 2
              tl := v.extractLsb' 0 6
              dirty := { old.dirty with tll := true } } } }
    ∧ exec (.arDr i v) s = .next
      { s with
        chip := { s.chip.setReg (at0 0x60) v with
          slot := s.chip.slot.set i.val
            { old with
              ar := v.extractLsb' 4 4
              dr := v.extractLsb' 0 4
              dirty := { old.dirty with egRate := true } } } }
    ∧ exec (.slRr i v) s = .next
      { s with
        chip := { s.chip.setReg (at0 0x80) v with
          slot := s.chip.slot.set i.val
            { old with
              sl := v.extractLsb' 4 4
              rr := v.extractLsb' 0 4
              dirty := { old.dirty with egRate := true } } } }

/-- R135, R421: a waveform write is honoured only while `wse` = 1; else it only stores the value. Setting
`wse` later does not replay it. -/
def Obligations.WaveformWriteNeedsTheEnable : Prop :=
  (∀ (i : SlotId) (v : Byte) (s : State), s.ready →
    let a : Byte := BitVec.ofNat 8 (0xE0 + i.val / 6 * 8 + i.val % 6)
    let old := s.chip.slotAt i
    (s.chip.wse = true →
      exec (.ws i v) s = .next
        { s with
          chip := { s.chip.setReg a v with
            slot := s.chip.slot.set i.val
              { old with ws := v.extractLsb' 0 2, dirty := { old.dirty with wave := true } } } })
    ∧ (s.chip.wse = false → exec (.ws i v) s = .next { s with chip := s.chip.setReg a v }))
  ∧ (∀ (v : Byte) (s t : State), exec (.test v) s = .next t → t.chip.slot = s.chip.slot)

/-! ## Per-channel register writes and key edges -/

/-- R131: the low fnum bits change, the high ones stay; both slots of the channel are marked TLL, RKS and
EGRATE; nothing else changes, the key mask included. -/
def Obligations.FnumLowWrite : Prop :=
  ∀ (ch : ChanId) (v : Byte) (s : State), s.ready → ∃ t : State, exec (.fnumLo ch v) s = .next t
    ∧ t = { s with
        chip := { s.chip.setReg (BitVec.ofNat 8 (0xA0 + ch.val)) v with
          chan := s.chip.chan.set ch.val
            { s.chip.chanAt ch with fnum := ((s.chip.chanAt ch).fnum &&& 0x300) ||| v.setWidth 10 }
          slot := t.chip.slot } }
    ∧ ∀ i : SlotId, t.chip.slotAt i =
        if chanOfSlot i = ch then
          { s.chip.slotAt i with dirty := { (s.chip.slotAt i).dirty with tll := true, rks := true, egRate := true } }
        else s.chip.slotAt i

/-- R132: the high fnum bits, the block and the key bit change; both slots of the channel are marked; then
the keys are updated (R140). Bits 7..6 change nothing. -/
def Obligations.KeyBlockWrite : Prop :=
  ∀ (ch : ChanId) (v : Byte) (s : State), s.ready →
    ∃ c : Chip, exec (.keyBlock ch v) s = .next { s with chip := c.updateKeys }
      ∧ c = { s.chip.setReg (BitVec.ofNat 8 (0xB0 + ch.val)) v with
          chan := s.chip.chan.set ch.val
            { s.chip.chanAt ch with
              fnum := ((s.chip.chanAt ch).fnum &&& 0xFF) ||| ((v.setWidth 10 &&& 3) <<< 8)
              block := v.extractLsb' 2 3
              key := v.getLsbD 5 }
          slot := c.slot }
      ∧ ∀ i : SlotId, c.slotAt i =
          if chanOfSlot i = ch then
            { s.chip.slotAt i with dirty := { (s.chip.slotAt i).dirty with tll := true, rks := true, egRate := true } }
          else s.chip.slotAt i

/-- R134: feedback and algorithm change; bits 7..4 change nothing. -/
def Obligations.FeedbackAlgorithmWrite : Prop :=
  ∀ (ch : ChanId) (v : Byte) (s : State), s.ready →
    exec (.fbAlg ch v) s = .next
      { s with
        chip := { s.chip.setReg (BitVec.ofNat 8 (0xC0 + ch.val)) v with
          chan := s.chip.chan.set ch.val
            { s.chip.chanAt ch with fb := v.extractLsb' 1 3, alg := v.getLsbD 0 } } }

/-- R120, R24, R363: every register write completes; the bank holds the value at the written address
and is otherwise unchanged, and memory, the queue and the fault record stay as they were. -/
def Obligations.EveryRegisterWriteStoresItsValue : Prop :=
  ∀ (i : Instr) (s : State), s.ready → (encode i).extractLsb' 24 8 = 0x01 →
    ∃ t : State, exec i s = .next t
      ∧ (∀ b : Byte, t.chip.regAt b =
          if b = (encode i).extractLsb' 8 8 then (encode i).extractLsb' 0 8 else s.chip.regAt b)
      ∧ t.mem = s.mem ∧ t.pending = s.pending ∧ t.faults = s.faults ∧ t.reply = s.reply
      ∧ t.chip.tick = s.chip.tick ∧ t.chip.mixOut = s.chip.mixOut ∧ t.chip.muteMask = s.chip.muteMask

/-- R140, R141, R205, R206: the keys after `UPDATE_KEYS`. The mask is the desired one; a rising edge
resets the phase and enters DECAY at full level when the effective attack rate (from the `rks` of the
current fields) is 15 and ATTACK at the current level otherwise; a falling edge enters RELEASE and keeps
level and phase; a slot without an edge is unchanged; patch fields, histories and all else stay. -/
def Obligations.UpdateKeysFiresTheEdges : Prop :=
  ∀ c : Chip, c.cacheOk → ∃ k : Chip, c.updateKeys = k
    ∧ k = { c with keyMask := k.keyMask, slot := k.slot }
    ∧ ∀ i : SlotId,
        let old := c.slotAt i
        let new := k.slotAt i
        let rks := rksOf c.nts (c.chanFor i) old.kr
        (k.keyMask.getLsbD i.val = true ↔ keyWanted c i)
        ∧ samePatchAndHistory new old
        ∧ (c.keyMask.getLsbD i.val = false → keyWanted c i →
            new.phase = 0
              ∧ (if old.ar ≠ 0 ∧ min 15 (old.ar.toNat + rks / 4) = 15 then new.egState = .decay ∧ new.egOut = 0
                 else new.egState = .attack ∧ new.egOut = old.egOut)
              ∧ new.dirty.egRate = true)
        ∧ (c.keyMask.getLsbD i.val = true → ¬ keyWanted c i →
            new = { old with egState := .release, dirty := { old.dirty with egRate := true } })
        ∧ ((c.keyMask.getLsbD i.val = true ↔ keyWanted c i) → new = old)

/-! ## The native tick -/

/-- R20, R166, R169, R174, R278: the counter rises by one and wraps, the tremolo position moves every
64 ticks and the vibrato position every 1024, the noise register shifts, and from a state that is not 0
it never reaches 0. -/
def Obligations.TickMovesCounterLfosAndNoise : Prop :=
  ∀ c : Chip,
    c.tick1.tick = c.tick + 1
      ∧ c.tick1.amPos = (if (c.tick.toNat + 1) % 64 = 0 then (c.amPos + 1) % 210 else c.amPos)
      ∧ c.tick1.pmPos = (if (c.tick.toNat + 1) % 1024 = 0 then c.pmPos + 1 else c.pmPos)
      ∧ c.tick1.noise.toNat
          = c.noise.toNat / 2 + (if c.noise.getLsbD 0 = c.noise.getLsbD 14 then 0 else 2 ^ 22)
      ∧ (c.noise ≠ 0 → c.tick1.noise ≠ 0)

/-- What a tick leaves alone: the register bank, every latch and channel field a register write owns,
the masks, the clock, the rates, the pacing and the converter (R291). -/
def Obligations.TickLeavesTheRegisters : Prop :=
  ∀ c : Chip, ∃ k : Chip, c.tick1 = k
    ∧ k = { c with
        tick := k.tick
        amPos := k.amPos
        pmPos := k.pmPos
        noise := k.noise
        t1 := k.t1
        t2 := k.t2
        csmPulse := k.csmPulse
        keyMask := k.keyMask
        slot := k.slot
        mixOut := k.mixOut }
    ∧ k.t1.latch = c.t1.latch ∧ k.t1.mask = c.t1.mask ∧ k.t1.run = c.t1.run
    ∧ k.t2.latch = c.t2.latch ∧ k.t2.mask = c.t2.mask ∧ k.t2.run = c.t2.run
    ∧ ∀ i : SlotId,
        let old := c.slotAt i
        let new := k.slotAt i
        new.am = old.am ∧ new.pm = old.pm ∧ new.eg = old.eg ∧ new.kr = old.kr ∧ new.ml = old.ml
          ∧ new.kl = old.kl ∧ new.tl = old.tl ∧ new.ar = old.ar ∧ new.dr = old.dr ∧ new.sl = old.sl
          ∧ new.rr = old.rr ∧ new.ws = old.ws

/-- R191 to R203: one tick of a slot's envelope, at the rate of the state the slot is in when step 4
begins, computed from the fields (not from the cache). That starting slot has the patch fields and histories
of the slot before the tick, and without a key edge its state, level and phase too. A slot in ATTACK at level 0
enters DECAY at attack rate 0 as well: the model's choice between the two sentences of R199 (log 18). -/
def Obligations.TickStepsTheEnvelope : Prop :=
  ∀ (c : Chip) (i : SlotId), c.cacheOk →
    let old := c.preTick.slotAt i
    let new := c.tick1.slotAt i
    let ch := c.chanFor i
    let noteBit : Nat := if (if c.nts then ch.fnum.getLsbD 8 else ch.fnum.getLsbD 9) then 1 else 0
    let kcode := ch.block.toNat * 2 + noteBit
    let rks := if old.kr then kcode else kcode / 4
    let p : Nat := match old.egState with
      | .attack => old.ar.toNat
      | .decay => old.dr.toNat
      | .sustain => if old.eg then 0 else old.rr.toNat
      | .release => old.rr.toNat
    let h := if p = 0 then 0 else min 15 (p + rks / 4)
    let shift := if 1 ≤ h ∧ h ≤ 12 then 12 - h else 0
    let tk := (c.tick + 1).toNat
    let step : Nat :=
      if h ≤ 12 then (stepSlow.getD (rks % 4) []).getD (tk / 2 ^ shift % 8) 0
      else if h = 13 then (stepFast.getD (rks % 4) []).getD (tk % 8) 0
      else if h = 14 then 2 * (stepFast.getD (rks % 4) []).getD (tk % 8) 0
      else 4
    let due := 0 < h ∧ tk % 2 ^ shift = 0
    (old.egState = .attack →
      (due → (new.egOut : Int) = max 0 ((old.egOut : Int) + (-(old.egOut : Int) - 1) * step / 8))
      ∧ (¬ due → new.egOut = old.egOut)
      ∧ new.egState = if new.egOut = 0 then .decay else .attack)
    ∧ (old.egState ≠ .attack →
      new.egOut = if due then min 511 (old.egOut + step) else old.egOut)
    ∧ (old.egState = .decay →
      new.egState = if old.sl ≠ 15 ∧ new.egOut / 16 = old.sl.toNat then .sustain else .decay)
    ∧ (old.egState = .sustain → new.egState = .sustain)
    ∧ (old.egState = .release → new.egState = .release)
    ∧ samePatchAndHistory old (c.slotAt i)
    ∧ (c.quiet → old.egState = (c.slotAt i).egState ∧ old.egOut = (c.slotAt i).egOut
        ∧ old.phase = (c.slotAt i).phase)

/-- R204: from step 4 on, a tick lowers the level only in ATTACK and never elsewhere, and the state keeps
or moves one place on in ATTACK, DECAY, SUSTAIN; RELEASE stays. Only a key edge (steps 0 to 3) goes back. -/
def Obligations.EnvelopeMovesOneWay : Prop :=
  ∀ (c : Chip) (i : SlotId), (c.slotAt i).egOut ≤ 511 →
    let old := c.preTick.slotAt i
    let new := c.tick1.slotAt i
    (old.egState = .attack → new.egOut ≤ old.egOut ∧ (new.egState = .attack ∨ new.egState = .decay))
    ∧ (old.egState = .decay → old.egOut ≤ new.egOut ∧ (new.egState = .decay ∨ new.egState = .sustain))
    ∧ (old.egState = .sustain → old.egOut ≤ new.egOut ∧ new.egState = .sustain)
    ∧ (old.egState = .release → old.egOut ≤ new.egOut ∧ new.egState = .release)
    ∧ old.egOut ≤ 511 ∧ new.egOut ≤ 511

/-- R161, R163, R170, R171: every tick moves every slot's phase, from the value it has when step 4 begins
(the old one unless a key edge reset it), by the increment of its channel and multiple, with the vibrato
offset of the new `pm_pos` when `pm` = 1, modulo 2^21. -/
def Obligations.TickAdvancesThePhase : Prop :=
  ∀ (c : Chip) (i : SlotId),
    let old := c.slotAt i
    let start := (c.preTick.slotAt i).phase
    let ch := c.chanFor i
    let e := (pmTable.getD (ch.fnum.toNat / 128) []).getD c.tick1.pmPos.toNat 0
    let offset : Int := if c.dvb then e else e.tdiv 2
    let pmo : Int := if old.pm then offset else 0
    let inc : Int := (ch.fnum.toNat + pmo) * (mlTable.getD old.ml.toNat 0 : Nat) * 2 ^ ch.block.toNat
    ((c.tick1.slotAt i).phase.toNat : Int) = (start.toNat + inc) % 2 ^ 21
      ∧ (start = old.phase ∨ start = 0) ∧ (c.quiet → start = old.phase)

/-- R161: the increment is never negative and at most 3,955,200, and the vibrato offset is 0 below fnum
128 and at most 7 in size. -/
def Obligations.PhaseIncrementIsBounded : Prop :=
  ∀ (dvb : Bool) (p : BitVec 3) (ch : Channel) (sl : Slot),
    0 ≤ phaseInc dvb p ch sl ∧ phaseInc dvb p ch sl ≤ 3955200
      ∧ (ch.fnum.toNat < 128 → pmOffset dvb p ch.fnum = 0)
      ∧ -7 ≤ pmOffset dvb p ch.fnum ∧ pmOffset dvb p ch.fnum ≤ 7

/-- R238, R301: a decoded sample lies in -4084..4084, and at maximum attenuation it is exactly 0. So a slot
out of ATTACK at `EG_MUTE` stays in its state and level with output 0 through every tick without a key edge:
the condition under which R301 lets a renderer stop early. -/
def Obligations.DecodeIsBoundedAndSilentAtMute : Prop :=
  (∀ (h : BitVec 16) (lvl : Nat),
    -4084 ≤ decodeWave h lvl ∧ decodeWave h lvl ≤ 4084 ∧ (511 ≤ lvl → decodeWave h lvl = 0))
  ∧ (∀ (c : Chip) (i : SlotId), c.quiet → (c.slotAt i).egState ≠ .attack → (c.slotAt i).egOut = 511 →
    (c.tick1.slotAt i).egState = (c.slotAt i).egState ∧ (c.tick1.slotAt i).egOut = 511
      ∧ (c.tick1.slotAt i).out1 = 0)

/-- R241: the sine waveform is odd about its half cycle and even about its quarters. -/
def Obligations.SineIsSymmetric : Prop :=
  ∀ (i : BitVec 10) (lvl : Nat), i.toNat < 512 →
    decodeWave (waveEntry 0 (i + 512)) lvl = -decodeWave (waveEntry 0 i) lvl
      ∧ decodeWave (waveEntry 0 (511 - i)) lvl = decodeWave (waveEntry 0 i) lvl

/-- R231, R234, R235, R239, R260 to R264: the outputs a tick records for a melodic channel, and for the
bass drum channel 6 in percussion mode (R271), from the patch fields (not from the cache). The modulator is offset by the floor shift of its last two outputs when `fb` > 0;
the carrier by the same tick's modulator output under algorithm 0 and by nothing under algorithm 1; both
histories shift. -/
def Obligations.MelodicChannelOutputs : Prop :=
  ∀ (c : Chip) (ch : ChanId), c.cacheOk → c.rhythm = false ∨ ch.val < 7 →
    let k := c.atOutputs
    let m := k.slotAt (modSlot ch)
    let a := k.slotAt (carSlot ch)
    let out (sl : Slot) (mod : Int) : Int :=
      decodeWave (waveEntry sl.ws (BitVec.ofInt 10 (((sl.phase.toNat / 2 ^ 11 : Nat) : Int) + mod)))
        (min 511 (sl.egOut + tllOf (c.chanAt ch) sl.tl sl.kl + if sl.am then k.amVal else 0))
    let fb := (c.chanAt ch).fb
    let fbmod : Int := if fb = 0 then 0 else (m.out1 + m.out2) / 2 ^ (9 - fb.toNat)
    let modOut := out m fbmod
    let carOut := out a (if (c.chanAt ch).alg then 0 else modOut)
    (c.tick1.slotAt (modSlot ch)).out1 = modOut
      ∧ (c.tick1.slotAt (carSlot ch)).out1 = carOut
      ∧ (c.tick1.slotAt (modSlot ch)).out2 = (c.slotAt (modSlot ch)).out1
      ∧ (c.tick1.slotAt (carSlot ch)).out2 = (c.slotAt (carSlot ch)).out1
      ∧ k.chOut ch = if (c.chanAt ch).alg then modOut + carOut else carOut

/-- R272 to R276: the outputs of the single-operator percussion voices in a tick with `rhythm` = 1, from
the patch fields and the indices the noise bit and the phases of slots 13 and 17 give. -/
def Obligations.PercussionVoiceOutputs : Prop :=
  ∀ c : Chip, c.cacheOk → c.rhythm = true →
    let k := c.atOutputs
    let hh : Nat := (k.slotAt 13).phase.toNat / 2 ^ 11
    let tc : Nat := (k.slotAt 17).phase.toNat / 2 ^ 11
    let nb : Bool := k.noise.getLsbD 0
    let x : Bool := (hh.testBit 2 != hh.testBit 7) || (hh.testBit 3 != tc.testBit 5) || (tc.testBit 3 != tc.testBit 5)
    let out (i : SlotId) (idx : Nat) : Int :=
      decodeWave (waveEntry (k.slotAt i).ws (BitVec.ofNat 10 idx))
        (min 511 ((k.slotAt i).egOut + tllOf (c.chanFor i) (k.slotAt i).tl (k.slotAt i).kl
          + if (k.slotAt i).am then k.amVal else 0))
    (c.tick1.slotAt 13).out1 = out 13 (512 * x.toNat + if x != nb then 0xD0 else 0x34)
      ∧ (c.tick1.slotAt 16).out1 = out 16 (512 * (hh.testBit 8).toNat + 256 * (hh.testBit 8 != nb).toNat)
      ∧ (c.tick1.slotAt 17).out1 = out 17 (512 * x.toNat + 0x80)
      ∧ (c.tick1.slotAt 14).out1 = out 14 ((k.slotAt 14).phase.toNat / 2 ^ 11)

/-- R265, R266, R271, R277: the sample of a tick is the saturated sum of the unmuted channel outputs, and
in percussion mode of channels 0 to 5 and twice the unmuted voice outputs, the bass drum being channel 6. -/
def Obligations.MixIsTheSaturatedSum : Prop :=
  ∀ c : Chip,
    let k := c.atOutputs
    let t := c.tick1
    let chan (ch : ChanId) : Int := if c.muteMask.getLsbD ch.val then 0 else k.chOut ch
    let voice (b : Nat) (out : Int) : Int := if c.muteMask.getLsbD b then 0 else 2 * out
    let acc : Int :=
      if c.rhythm then
        chan 0 + chan 1 + chan 2 + chan 3 + chan 4 + chan 5
          + voice 9 (t.slotAt 13).out1 + voice 10 (t.slotAt 17).out1 + voice 11 (t.slotAt 14).out1
          + voice 12 (t.slotAt 16).out1 + voice 13 (k.chOut 6)
      else chan 0 + chan 1 + chan 2 + chan 3 + chan 4 + chan 5 + chan 6 + chan 7 + chan 8
    t.mixOut.toInt = max (-32768) (min 32767 acc)

/-- R265, R320: the mute mask changes nothing but the mix. However many ticks, two instances that
differ in the mask alone differ afterwards in the mask and the last mixed sample alone. -/
def Obligations.MuteChangesOnlyTheMix : Prop :=
  ∀ (n : Nat) (c : Chip) (m : BitVec 14),
    ∃ x : Sample, (render n { c with muteMask := m }).2 = { (render n c).2 with muteMask := m, mixOut := x }

/-- R370, R371, R372: after a start with latch `L` the first overflow comes with step
`(256 - L) * 2^w` of the timer's ticks (`w` = 2 and 4: 4 and 16 ticks a count), not before; it reloads
the counter from the latch and sets the flag unless masked. Every tick of the instance is one such step of
each timer, and a stopped timer keeps its counter, its prescaler and its flag. -/
def Obligations.TimerOverflowsAfterItsPeriod : Prop :=
  (∀ (w : Nat) (t : Timer w), w = 2 ∨ w = 4 → t.run = true → t.cnt = t.latch → t.pre = 0 →
    let after : Nat → Timer w := fun n => (fun u : Timer w => u.step.1)^[n] t
    let period := (256 - t.latch.toNat) * 2 ^ w
    (∀ n, n + 1 < period → (after n).step.2 = false ∧ (after (n + 1)).flag = t.flag)
      ∧ (after (period - 1)).step.2 = true
      ∧ after period = { t with flag := t.flag || !t.mask })
  ∧ (∀ c : Chip, c.tick1.t1 = c.t1.step.1 ∧ c.tick1.t2 = c.t2.step.1)
  ∧ ∀ (w : Nat) (t : Timer w), t.run = false → t.step = (t, false)

/-- R371, R373, R374: a timer 1 overflow while `csm` = 1 starts the pulse and keys every slot before step 4
of that tick, masked or not: a slot that was off starts at phase 0, and at level 0 in DECAY when its
effective attack rate is 15, else in ATTACK. The pulse ends at the next tick unless that tick overflows
again: a slot without a channel or percussion key enters RELEASE, and only those with one stay keyed.
Without either nothing is keyed. The flag is set by an unmasked overflow alone. -/
def Obligations.CsmPulseLastsOneTick : Prop :=
  ∀ c : Chip, c.cacheOk →
    (c.timer1Overflows → c.csm = true → c.tick1.csmPulse = true ∧ ∀ i : SlotId,
        c.tick1.keyMask.getLsbD i.val = true
          ∧ (c.csmPulse = false → c.keyMask.getLsbD i.val = false →
              let old := c.slotAt i
              let start := c.preTick.slotAt i
              start.phase = 0
                ∧ if min 15 (old.ar.toNat + rksOf c.nts (c.chanFor i) old.kr / 4) = 15
                  then start.egState = .decay ∧ start.egOut = 0
                  else start.egState = .attack ∧ start.egOut = old.egOut))
    ∧ (c.csmPulse = true → ¬(c.timer1Overflows ∧ c.csm = true) →
        c.tick1.csmPulse = false ∧ ∀ i : SlotId,
          (c.tick1.keyMask.getLsbD i.val = true ↔ keyWanted { c with csmPulse := false } i)
            ∧ (c.keyMask.getLsbD i.val = true → ¬ keyWanted { c with csmPulse := false } i →
                (c.preTick.slotAt i).egState = .release ∧ (c.tick1.slotAt i).egState = .release))
    ∧ (c.quiet → c.tick1.csmPulse = false ∧ c.tick1.keyMask = c.keyMask)
    ∧ (c.tick1.t1.flag = true ↔ c.t1.flag = true ∨ (c.timer1Overflows ∧ c.t1.mask = false))

/-- R42, R40, R41: the derived-field cache and its dirty flags show in no output. Two coherent instances
that agree on every other field give the same samples, and after one tick or more the same state. -/
def Obligations.DirtyFlagsAreNotObservable : Prop :=
  ∀ (n : Nat) (c d : Chip), c.cacheOk → d.cacheOk → c.core = d.core →
    (render n c).1 = (render n d).1 ∧ (0 < n → (render n c).2 = (render n d).2)

/-! ## Render commands -/

/-- R290, R424: `render(n)` is `n` successive ticks; it returns the sample of each, and a render split in
two gives the same samples and the same end state. -/
def Obligations.RenderIsIteratedTicks : Prop :=
  (∀ (n : Nat) (c : Chip),
    (render n c).2 = Chip.tick1^[n] c ∧ (render n c).1.length = n
      ∧ ∀ k, k < n → (render n c).1[k]? = some (Chip.tick1^[k + 1] c).mixOut)
  ∧ (∀ (a b : Nat) (c : Chip),
      (render (a + b) c).1 = (render a c).1 ++ (render b (render a c).2).1
        ∧ (render (a + b) c).2 = (render b (render a c).2).2)

/-- R300: the batch renderer, computing a span slot by slot in loops between state transitions, gives
the samples and the end state of `n` ticks, for every state and every `n`. The renderer's loops run to their
last tick: the early exit of the source's renderer is not modelled (log 15). -/
def Obligations.BatchRendererGivesTheTicks : Prop :=
  ∀ (n : Nat) (c : Chip), batchRender n c = render n c

/-- R411: rendering from the state after `new` or `reset` is exact silence, however long. -/
def Obligations.ResetInstanceRendersSilence : Prop :=
  ∀ (clock rate n : Nat) (p : Bool), ∀ x ∈ (render n (Chip.initial clock rate p)).1, x = 0

/-- R310, R334, R335: `calcOne` completes with positive rates. It runs as many ticks as the pacing loop
needs, the floor or the ceiling of `out_step / inp_step`, leaves `out_time` below `inp_step`, and returns
the last mixed sample, or the converter's output after the ticks' samples went into it. -/
def Obligations.CalcOnePacesAndReturns : Prop :=
  ∀ s : State, s.ready → 0 < s.chip.inpStep → s.chip.outTime < s.chip.inpStep →
    let n := (s.chip.outStep - s.chip.outTime + s.chip.inpStep - 1) / s.chip.inpStep
    let r := render n s.chip
    let fed : Option Converter := s.chip.conv.map fun k => r.1.foldl (fun k x => k.put x) k
    let c := s.chip.clockHz
    let d := 72 * s.chip.rateHz
    ∃ t : State, exec .calcOne s = .next t
      ∧ t = { s with
          chip := { r.2 with
            outTime := s.chip.outTime + n * s.chip.inpStep - s.chip.outStep
            conv := fed.map fun k => (k.get c d).1 }
          reply := some (.sample (match fed with
            | none => r.2.mixOut
            | some k => (k.get c d).2)) }
      ∧ s.chip.outStep ≤ s.chip.outTime + n * s.chip.inpStep
      ∧ (n = s.chip.outStep / s.chip.inpStep ∨ n = (s.chip.outStep + s.chip.inpStep - 1) / s.chip.inpStep)
      ∧ t.chip.outTime < t.chip.inpStep

/-- R311, R312, R63, R64: without a converter and with `n` at most `MAX_BATCH`, `calcBuffer(buf, n)` runs `n`
ticks and stores each sample in two bytes, low byte first, at `buf + 2 * i`, and `calcBufferStereo(buf, n)`
runs the same ticks and stores each sample twice in a four-byte frame at `buf + 4 * i`; every other byte
of memory and every other field of the state stays, `out_time` included. -/
def Obligations.BufferRendersStoreTheSamples : Prop :=
  ∀ (n : BitVec 24) (s : State), s.ready → s.chip.conv = none → n.toNat ≤ s.maxBatch →
    (s.bufferReady 2 n.toNat → ∃ t : State, exec (.calcBuffer n) s = .next t
      ∧ t = { s with chip := (render n.toNat s.chip).2, mem := t.mem }
      ∧ (∀ (i : Nat) (x : Sample), (render n.toNat s.chip).1[i]? = some x →
          Memory.readByte (s.args.buf + 2 * i) t.mem = some (x.extractLsb' 0 8)
            ∧ Memory.readByte (s.args.buf + 2 * i + 1) t.mem = some (x.extractLsb' 8 8))
      ∧ (∀ a, a < s.args.buf ∨ s.args.buf + 2 * n.toNat ≤ a → Memory.readByte a t.mem = Memory.readByte a s.mem)
      ∧ t.chip.outTime = s.chip.outTime)
    ∧ (s.bufferReady 4 n.toNat → ∃ t : State, exec (.calcBufferStereo n) s = .next t
      ∧ t = { s with chip := (render n.toNat s.chip).2, mem := t.mem }
      ∧ (∀ (i : Nat) (x : Sample), (render n.toNat s.chip).1[i]? = some x →
          Memory.readByte (s.args.buf + 4 * i) t.mem = some (x.extractLsb' 0 8)
            ∧ Memory.readByte (s.args.buf + 4 * i + 1) t.mem = some (x.extractLsb' 8 8)
            ∧ Memory.readByte (s.args.buf + 4 * i + 2) t.mem = some (x.extractLsb' 0 8)
            ∧ Memory.readByte (s.args.buf + 4 * i + 3) t.mem = some (x.extractLsb' 8 8))
      ∧ (∀ a, a < s.args.buf ∨ s.args.buf + 4 * n.toNat ≤ a → Memory.readByte a t.mem = Memory.readByte a s.mem)
      ∧ t.chip.outTime = s.chip.outTime)

/-- R313: with `out_step` = `inp_step`, `out_time` = 0 and no converter, calls of `calcOne` give one by one
the samples one `calcBuffer` of as many samples renders, and the same end state of the instance. -/
def Obligations.CalcOneCallsEqualOneRender : Prop :=
  ∀ (n k : Nat) (s : State) (a : LaunchArgs), s.ready → a.overlaps = false → k ≤ n →
    s.chip.conv = none → s.chip.outTime = 0 → s.chip.outStep = s.chip.inpStep → 0 < s.chip.inpStep →
    ∃ t : State, Sys2Proof.core.run k { s with pending := List.replicate n ⟨0x02000000, a⟩ } = .next t
      ∧ t.chip = (render k s.chip).2
      ∧ (0 < k → t.reply = (render n s.chip).1[k - 1]?.map Reply.sample)

/-- R360, R361, R364: a buffer render with the converter present records `F_RATE_MISMATCH`, whatever `n`;
without it, a count above `MAX_BATCH` records `F_BATCH_TOO_LARGE` with the count. The record holds the
command word, and nothing else changes (the fault as a next state: log 9). -/
def Obligations.BufferRendersRecordTheirFaults : Prop :=
  ∀ (n : BitVec 24) (s : State), s.ready →
    let mono : Word := BitVec.ofNat 32 (0x03000000 + n.toNat)
    let stereo : Word := BitVec.ofNat 32 (0x04000000 + n.toNat)
    (s.bufferReady 2 n.toNat → s.chip.conv.isSome = true →
      exec (.calcBuffer n) s = .next { s with faults := [⟨.rateMismatch, mono⟩] })
    ∧ (s.bufferReady 4 n.toNat → s.chip.conv.isSome = true →
      exec (.calcBufferStereo n) s = .next { s with faults := [⟨.rateMismatch, stereo⟩] })
    ∧ (s.bufferReady 2 n.toNat → s.chip.conv = none → s.maxBatch < n.toNat →
      exec (.calcBuffer n) s = .next { s with faults := [⟨.batchTooLarge n.toNat, mono⟩] })
    ∧ (s.bufferReady 4 n.toNat → s.chip.conv = none → s.maxBatch < n.toNat →
      exec (.calcBufferStereo n) s = .next { s with faults := [⟨.batchTooLarge n.toNat, stereo⟩] })

/-- R47, R360: an instance that has faulted executes no further command. That the stop is an outcome of the
next command is the model's choice of log 9; that it covers `new` too, which R400 lets start a fresh instance
with an empty record, is the model's choice of log 3. -/
def Obligations.FaultedInstanceExecutesNothing : Prop :=
  ∀ (i : Instr) (s : State) (e : FaultEntry) (l : List FaultEntry), s.faults = e :: l →
    exec i s = .fault (.stopped e)

/-- R362, R364, R65, R400, R403: the refusals and their order: an overlapping command, then a misaligned
or short buffer, a zero rate or clock, then any command but `new` before `new` has run. -/
def Obligations.RefusalsComeInOrder : Prop :=
  ∀ (i : Instr) (s : State), s.faults = [] →
    (s.args.overlaps = true → exec i s = .refused .concurrent)
    ∧ (s.args.overlaps = false →
        (∀ n, i = .calcBuffer n → ¬ s.bufferReady 2 n.toNat → exec i s = .refused .buffer)
        ∧ (∀ n, i = .calcBufferStereo n → ¬ s.bufferReady 4 n.toNat → exec i s = .refused .buffer)
        ∧ (i = .setRate 0 → exec i s = .refused .encoding)
        ∧ (i = .new → s.args.clock = 0 ∨ s.args.rate = 0 → exec i s = .refused .encoding)
        ∧ (s.created = false → i ≠ .new → i ≠ .setRate 0 →
            (∀ n, i = .calcBuffer n → s.bufferReady 2 n.toNat) →
            (∀ n, i = .calcBufferStereo n → s.bufferReady 4 n.toNat) →
            exec i s = .refused .noInstance))

/-- R363: no command but the two buffer renders faults: on a state whose pacing is as `new` and `setRate`
leave it, each of them answers a next state with an empty fault record or is refused. -/
def Obligations.NothingElseFaults : Prop :=
  ∀ (i : Instr) (s : State), s.faults = [] → s.chip.paced →
    (∀ n, i ≠ .calcBuffer n) → (∀ n, i ≠ .calcBufferStereo n) →
    (∃ t : State, exec i s = .next t ∧ t.faults = []) ∨ ∃ r, exec i s = .refused r

/-! ## Mask, status, reset, rates -/

/-- R320: `setMask` sets the mute mask and nothing else. -/
def Obligations.SetMaskSetsOnlyTheMask : Prop :=
  ∀ (m : BitVec 14) (s : State), s.ready →
    exec (.setMask m) s = .next { s with chip := { s.chip with muteMask := m } }

/-- R321, R33: `status` returns IRQ, timer 1 and timer 2 flags in bits 7, 6 and 5 and zeros below, and
changes nothing: the instance is as it was, so a second read returns the same. -/
def Obligations.StatusReturnsTheFlags : Prop :=
  ∀ s : State, s.ready → ∃ b : Byte, exec .status s = .next { s with reply := some (.status b) }
    ∧ b.getLsbD 7 = (s.chip.t1.flag || s.chip.t2.flag) ∧ b.getLsbD 6 = s.chip.t1.flag
    ∧ b.getLsbD 5 = s.chip.t2.flag ∧ b.extractLsb' 0 5 = 0

/-- R401: every field of the instance after `reset`, and what it preserves. -/
def Obligations.ResetGivesTheTable : Prop :=
  ∀ s : State, s.ready → ∃ t : State, exec .reset s = .next t
    ∧ t = { s with chip := t.chip }
    ∧ t.chip.clockHz = s.chip.clockHz ∧ t.chip.rateHz = s.chip.rateHz
    ∧ t.chip.outStep = s.chip.outStep ∧ t.chip.inpStep = s.chip.inpStep
    ∧ t.chip.conv = s.chip.conv.map (fun _ => ⟨0, Vector.replicate 16 0⟩)
    ∧ (∀ a : Byte, t.chip.regAt a = 0)
    ∧ t.chip.wse = false ∧ t.chip.csm = false ∧ t.chip.nts = false
    ∧ t.chip.dam = false ∧ t.chip.dvb = false ∧ t.chip.rhythm = false ∧ t.chip.rkey = 0
    ∧ t.chip.t1 = ⟨0, false, false, 0, 0, false⟩ ∧ t.chip.t2 = ⟨0, false, false, 0, 0, false⟩
    ∧ t.chip.statusByte = 0 ∧ t.chip.csmPulse = false ∧ t.chip.amPos = 0 ∧ t.chip.pmPos = 0
    ∧ t.chip.noise = 1 ∧ t.chip.keyMask = 0 ∧ t.chip.muteMask = 0 ∧ t.chip.tick = 0
    ∧ t.chip.outTime = 0 ∧ t.chip.mixOut = 0
    ∧ (∀ ch : ChanId, t.chip.chanAt ch = ⟨0, 0, false, 0, false⟩)
    ∧ (∀ i : SlotId, t.chip.slotAt i =
        ⟨false, false, false, false, 0, 0, 0, 0, 0, 0, 0, 0, .release, 511, 0, 0, 0, 0, 0, 0, 0, 0, 0,
          ⟨true, true, true, true⟩⟩)

/-- R402: `reset` twice gives the state `reset` once gives, and `new` followed by `reset` gives the state
`new` gives. -/
def Obligations.ResetIsIdempotent : Prop :=
  ∀ s t u : State,
    (exec .reset s = .next t → exec .reset t = .next u → u = t)
    ∧ (exec .new s = .next t → exec .reset t = .next u → u = t)

/-- R403: `setRate(r)` with `r` > 0 sets the rate and the pacing, clears `out_time`, and builds a cleared
converter or drops it by the test of R330; the synthesis state is unchanged. `setRate(0)` is refused. -/
def Obligations.SetRateRebuildsTheConverter : Prop :=
  (∀ s : State, s.ready → exec (.setRate 0) s = .refused .encoding)
  ∧ ∀ (r : BitVec 24) (s : State), s.ready → r ≠ 0 →
    exec (.setRate r) s = .next
      { s with
        chip := { s.chip with
          rateHz := r.toNat
          inpStep := 72 * r.toNat
          outTime := 0
          conv := if s.chip.clockHz / 72 ≠ r.toNat ∧ (s.chip.clockHz + 36) / 72 ≠ r.toNat
            then some ⟨0, Vector.replicate 16 0⟩ else none } }

/-- R400: `new(clock, rate)` with positive arguments makes an instance in the reset state of R401 with these
rates, the converter present by the test of R330, and an empty fault record; the host's side of the
state stays (its buffers, its commands). A zero argument is refused. That the new instance replaces one that
exists is the model's choice of log 3: the spec makes every instance independent (R383). -/
def Obligations.NewMakesAResetInstance : Prop :=
  (∀ s : State, s.faults = [] → s.args.overlaps = false → s.args.clock = 0 ∨ s.args.rate = 0 →
    exec .new s = .refused .encoding)
  ∧ ∀ s : State, s.faults = [] → s.args.overlaps = false → 0 < s.args.clock → 0 < s.args.rate →
    ∃ t : State, exec .new s = .next t
      ∧ t = { s with created := true, chip := t.chip }
      ∧ t.chip = Chip.initial s.args.clock s.args.rate
          (decide (s.args.clock / 72 ≠ s.args.rate ∧ (s.args.clock + 36) / 72 ≠ s.args.rate))
      ∧ t.chip.clockHz = s.args.clock ∧ t.chip.rateHz = s.args.rate
      ∧ t.chip.outStep = s.args.clock ∧ t.chip.inpStep = 72 * s.args.rate

/-- R330: the converter is present exactly when neither `floor(f_inp)` nor `floor(f_inp + 1/2)` is the
output rate, with `f_inp` = `CLOCK_HZ / 72` as a rational. -/
def Obligations.ConverterPresenceTest : Prop :=
  ∀ clock rate : Nat, convTest clock rate = true ↔
    ⌊(clock : ℚ) / 72⌋ ≠ (rate : ℤ) ∧ ⌊(clock : ℚ) / 72 + 1 / 2⌋ ≠ (rate : ℤ)

/-! ## The rate converter -/

/-- R334, R335, R333: a put shifts the buffer down by one and enters the new sample last. A get at any ratio
`c / d` advances the timer by it modulo 1 to `dn`, convolves the 16 samples with the kernel entries at
`|trunc((j - 7 - dn) * 256)|`, at most 2047, shifts the sum right by 12 with the floor and saturates it to 16
bits; the buffer stays. R338: so at ratio 1 the converter returns its input delayed by 8 samples: the get after
the put of the n-th sample returns the (n - 8)-th, or 0 while n ≤ 8. -/
def Obligations.ConverterPutGetAndDelay : Prop :=
  (∀ (x : Sample) (k : Converter), (k.put x).timerNum = k.timerNum
    ∧ ∀ j : Fin 16, (k.put x).buf[j] = if h : j.val + 1 < 16 then k.buf[j.val + 1] else x)
  ∧ (∀ (c d : Nat) (k : Converter), 0 < d →
    let dn : ℚ := Int.fract ((k.timerNum : ℚ) / d + (c : ℚ) / d)
    let tap : Fin 16 → Int := fun j => sincEntry c d ⟨min 2047 ⌊|((j.val : ℚ) - 7 - dn) * 256|⌋₊, by omega⟩
    let acc : Int := ∑ j : Fin 16, k.buf[j].toInt * tap j
    ((k.get c d).1.timerNum : ℚ) / d = dn ∧ (k.get c d).1.buf = k.buf
      ∧ (k.get c d).2.toInt = max (-32768) (min 32767 ⌊(acc : ℚ) / 2 ^ 12⌋))
  ∧ ∀ (d : Nat) (xs : List Sample), 0 < d →
    ((xs.foldl (fun k x => k.put x) Converter.initial).get d d).2
      = if 9 ≤ xs.length then xs.getD (xs.length - 9) 0 else 0

/-- R332: every kernel entry is the truncation toward zero of the real formula (the Blackman-windowed sinc
with the cutoff scaling of downsampling), at every ratio (log 10: the search of the precision level). -/
def Obligations.KernelIsTheTruncatedRealFormula : Prop :=
  ∀ (c d : Nat) (i : Fin 2048), 0 < c → 0 < d →
    let blackman : ℝ → ℝ := fun y => 0.42 - 0.5 * Real.cos (2 * Real.pi * y) + 0.08 * Real.cos (4 * Real.pi * y)
    let sinc : ℝ → ℝ := fun x => if x = 0 then 1 else Real.sin (Real.pi * x) / (Real.pi * x)
    let wsinc : ℝ → ℝ := fun x => blackman (1 / 2 + x / 16) * sinc x
    let ratio : ℝ := (c : ℝ) / d
    let x : ℝ := (i.val : ℝ) / 256
    let v : ℝ := if d < c then 2 ^ 12 * wsinc (x / ratio) / ratio else 2 ^ 12 * wsinc x
    sincEntry c d i = if 0 ≤ v then ⌊v⌋ else ⌈v⌉

/-! ## Invariants -/

/-- The reset state and the state before `new` meet every invariant of the model. -/
def Obligations.ResetStateIsSafe : Prop := State.reset.safe ∧ State.powerOn.safe

/-- R37, R39, R204, R29, R278: every step keeps the bounds: levels in 0..511, outputs in -4084..4084,
`am_pos` in 0..209, the noise register not 0. -/
def Obligations.StepKeepsTheBounds : Prop :=
  ∀ s t : State, s.chip.bounded → step s = .next t → t.chip.bounded

/-- R22, R23, R310, R330, R335: every step keeps the pacing: positive rates, `out_step` and `inp_step` as
they give them, `out_time` below `inp_step`, the converter present by its test, its timer in [0, 1). -/
def Obligations.StepKeepsThePacing : Prop :=
  ∀ s t : State, s.chip.paced → step s = .next t → t.chip.paced

/-- R42, R72, R142: every step keeps the derived-field cache coherent: an unflagged derived field equals
its defining function. -/
def Obligations.StepKeepsTheCacheCoherent : Prop :=
  ∀ s t : State, s.chip.cacheOk → step s = .next t → t.chip.cacheOk

/-- R31, R140: every step keeps the key mask equal to the key state the channel bits, the rhythm triggers
and the CSM pulse ask for. -/
def Obligations.StepKeepsTheKeysApplied : Prop :=
  ∀ s t : State, s.chip.keysApplied → step s = .next t → t.chip.keysApplied

/-- Every step keeps host memory in its canonical form (the model's own form of memory, log 6), and only
the two buffer renders change it (R63). -/
def Obligations.StepKeepsMemoryCanonical : Prop :=
  ∀ s t : State, s.mem.wf = true → step s = .next t →
    t.mem.wf = true
      ∧ (t.mem ≠ s.mem → ∃ h rest n, s.pending = h :: rest
          ∧ (decode h.word = some (.calcBuffer n) ∨ decode h.word = some (.calcBufferStereo n)))

/-- R9, R23, R24 with R120, R32: what no other command writes. `MAX_BATCH` never changes; the clock
changes only by `new`, the rate only by `new` and `setRate`; the bank only by register writes, `new` and
`reset`; the mute mask only by `setMask`, `new` and `reset`. -/
def Obligations.OnlyTheseCommandsChangeTheConfiguration : Prop :=
  ∀ (i : Instr) (s t : State), exec i s = .next t →
    t.maxBatch = s.maxBatch
      ∧ (t.chip.clockHz ≠ s.chip.clockHz → i = .new)
      ∧ (t.chip.rateHz ≠ s.chip.rateHz → i = .new ∨ ∃ r, i = .setRate r)
      ∧ (t.chip.reg ≠ s.chip.reg → i = .new ∨ i = .reset ∨ (encode i).extractLsb' 24 8 = 0x01)
      ∧ (t.chip.muteMask ≠ s.chip.muteMask → i = .new ∨ i = .reset ∨ ∃ m, i = .setMask m)
end

