-- ==== Sys2Proof/Laws/State.lean ====
section
/-!
SUPPORT. One lemma per field per named update of the state, each true by unfolding once, so that later
proofs do not unfold record updates; and what the accessors of slots, channels and registers read after
an update.
-/

namespace Sys2Proof.Machine

/-! ## State -/

@[simp] theorem State.setChip_created (s : State) (c : Chip) : (s.setChip c).created = s.created := rfl
@[simp] theorem State.setChip_chip (s : State) (c : Chip) : (s.setChip c).chip = c := rfl
@[simp] theorem State.setChip_faults (s : State) (c : Chip) : (s.setChip c).faults = s.faults := rfl
@[simp] theorem State.setChip_maxBatch (s : State) (c : Chip) : (s.setChip c).maxBatch = s.maxBatch := rfl
@[simp] theorem State.setChip_mem (s : State) (c : Chip) : (s.setChip c).mem = s.mem := rfl
@[simp] theorem State.setChip_pending (s : State) (c : Chip) : (s.setChip c).pending = s.pending := rfl
@[simp] theorem State.setChip_args (s : State) (c : Chip) : (s.setChip c).args = s.args := rfl
@[simp] theorem State.setChip_reply (s : State) (c : Chip) : (s.setChip c).reply = s.reply := rfl

@[simp] theorem State.setReply_created (s : State) (r : Reply) : (s.setReply r).created = s.created := rfl
@[simp] theorem State.setReply_chip (s : State) (r : Reply) : (s.setReply r).chip = s.chip := rfl
@[simp] theorem State.setReply_faults (s : State) (r : Reply) : (s.setReply r).faults = s.faults := rfl
@[simp] theorem State.setReply_maxBatch (s : State) (r : Reply) : (s.setReply r).maxBatch = s.maxBatch := rfl
@[simp] theorem State.setReply_mem (s : State) (r : Reply) : (s.setReply r).mem = s.mem := rfl
@[simp] theorem State.setReply_pending (s : State) (r : Reply) : (s.setReply r).pending = s.pending := rfl
@[simp] theorem State.setReply_args (s : State) (r : Reply) : (s.setReply r).args = s.args := rfl
@[simp] theorem State.setReply_reply (s : State) (r : Reply) : (s.setReply r).reply = some r := rfl

@[simp] theorem State.accept_created (s : State) (h : HostCall) (rest : List HostCall) : (s.accept h rest).created = s.created := rfl
@[simp] theorem State.accept_chip (s : State) (h : HostCall) (rest : List HostCall) : (s.accept h rest).chip = s.chip := rfl
@[simp] theorem State.accept_faults (s : State) (h : HostCall) (rest : List HostCall) : (s.accept h rest).faults = s.faults := rfl
@[simp] theorem State.accept_maxBatch (s : State) (h : HostCall) (rest : List HostCall) : (s.accept h rest).maxBatch = s.maxBatch := rfl
@[simp] theorem State.accept_mem (s : State) (h : HostCall) (rest : List HostCall) : (s.accept h rest).mem = s.mem := rfl
@[simp] theorem State.accept_pending (s : State) (h : HostCall) (rest : List HostCall) : (s.accept h rest).pending = rest := rfl
@[simp] theorem State.accept_args (s : State) (h : HostCall) (rest : List HostCall) : (s.accept h rest).args = h.args := rfl
@[simp] theorem State.accept_reply (s : State) (h : HostCall) (rest : List HostCall) : (s.accept h rest).reply = s.reply := rfl

@[simp] theorem raiseFault_created (s : State) (r : FaultReason) (w : Word) : (raiseFault s r w).created = s.created := rfl
@[simp] theorem raiseFault_chip (s : State) (r : FaultReason) (w : Word) : (raiseFault s r w).chip = s.chip := rfl
@[simp] theorem raiseFault_faults (s : State) (r : FaultReason) (w : Word) : (raiseFault s r w).faults = s.faults ++ [⟨r, w⟩] := rfl
@[simp] theorem raiseFault_maxBatch (s : State) (r : FaultReason) (w : Word) : (raiseFault s r w).maxBatch = s.maxBatch := rfl
@[simp] theorem raiseFault_mem (s : State) (r : FaultReason) (w : Word) : (raiseFault s r w).mem = s.mem := rfl
@[simp] theorem raiseFault_pending (s : State) (r : FaultReason) (w : Word) : (raiseFault s r w).pending = s.pending := rfl
@[simp] theorem raiseFault_args (s : State) (r : FaultReason) (w : Word) : (raiseFault s r w).args = s.args := rfl
@[simp] theorem raiseFault_reply (s : State) (r : FaultReason) (w : Word) : (raiseFault s r w).reply = s.reply := rfl

/-! ## Chip -/

@[simp] theorem Chip.setReg_reg (c : Chip) (a v : Byte) : (c.setReg a v).reg = c.reg.set a.toNat v := rfl
@[simp] theorem Chip.setReg_tick (c : Chip) (a v : Byte) : (c.setReg a v).tick = c.tick := rfl
@[simp] theorem Chip.setReg_outTime (c : Chip) (a v : Byte) : (c.setReg a v).outTime = c.outTime := rfl
@[simp] theorem Chip.setReg_outStep (c : Chip) (a v : Byte) : (c.setReg a v).outStep = c.outStep := rfl
@[simp] theorem Chip.setReg_inpStep (c : Chip) (a v : Byte) : (c.setReg a v).inpStep = c.inpStep := rfl
@[simp] theorem Chip.setReg_clockHz (c : Chip) (a v : Byte) : (c.setReg a v).clockHz = c.clockHz := rfl
@[simp] theorem Chip.setReg_rateHz (c : Chip) (a v : Byte) : (c.setReg a v).rateHz = c.rateHz := rfl
@[simp] theorem Chip.setReg_wse (c : Chip) (a v : Byte) : (c.setReg a v).wse = c.wse := rfl
@[simp] theorem Chip.setReg_csm (c : Chip) (a v : Byte) : (c.setReg a v).csm = c.csm := rfl
@[simp] theorem Chip.setReg_nts (c : Chip) (a v : Byte) : (c.setReg a v).nts = c.nts := rfl
@[simp] theorem Chip.setReg_dam (c : Chip) (a v : Byte) : (c.setReg a v).dam = c.dam := rfl
@[simp] theorem Chip.setReg_dvb (c : Chip) (a v : Byte) : (c.setReg a v).dvb = c.dvb := rfl
@[simp] theorem Chip.setReg_rhythm (c : Chip) (a v : Byte) : (c.setReg a v).rhythm = c.rhythm := rfl
@[simp] theorem Chip.setReg_rkey (c : Chip) (a v : Byte) : (c.setReg a v).rkey = c.rkey := rfl
@[simp] theorem Chip.setReg_t1 (c : Chip) (a v : Byte) : (c.setReg a v).t1 = c.t1 := rfl
@[simp] theorem Chip.setReg_t2 (c : Chip) (a v : Byte) : (c.setReg a v).t2 = c.t2 := rfl
@[simp] theorem Chip.setReg_csmPulse (c : Chip) (a v : Byte) : (c.setReg a v).csmPulse = c.csmPulse := rfl
@[simp] theorem Chip.setReg_amPos (c : Chip) (a v : Byte) : (c.setReg a v).amPos = c.amPos := rfl
@[simp] theorem Chip.setReg_pmPos (c : Chip) (a v : Byte) : (c.setReg a v).pmPos = c.pmPos := rfl
@[simp] theorem Chip.setReg_noise (c : Chip) (a v : Byte) : (c.setReg a v).noise = c.noise := rfl
@[simp] theorem Chip.setReg_keyMask (c : Chip) (a v : Byte) : (c.setReg a v).keyMask = c.keyMask := rfl
@[simp] theorem Chip.setReg_muteMask (c : Chip) (a v : Byte) : (c.setReg a v).muteMask = c.muteMask := rfl
@[simp] theorem Chip.setReg_chan (c : Chip) (a v : Byte) : (c.setReg a v).chan = c.chan := rfl
@[simp] theorem Chip.setReg_slot (c : Chip) (a v : Byte) : (c.setReg a v).slot = c.slot := rfl
@[simp] theorem Chip.setReg_conv (c : Chip) (a v : Byte) : (c.setReg a v).conv = c.conv := rfl
@[simp] theorem Chip.setReg_mixOut (c : Chip) (a v : Byte) : (c.setReg a v).mixOut = c.mixOut := rfl

@[simp] theorem Chip.updSlot_reg (c : Chip) (i : SlotId) (f : Slot → Slot) : (c.updSlot i f).reg = c.reg := rfl
@[simp] theorem Chip.updSlot_tick (c : Chip) (i : SlotId) (f : Slot → Slot) : (c.updSlot i f).tick = c.tick := rfl
@[simp] theorem Chip.updSlot_outTime (c : Chip) (i : SlotId) (f : Slot → Slot) : (c.updSlot i f).outTime = c.outTime := rfl
@[simp] theorem Chip.updSlot_outStep (c : Chip) (i : SlotId) (f : Slot → Slot) : (c.updSlot i f).outStep = c.outStep := rfl
@[simp] theorem Chip.updSlot_inpStep (c : Chip) (i : SlotId) (f : Slot → Slot) : (c.updSlot i f).inpStep = c.inpStep := rfl
@[simp] theorem Chip.updSlot_clockHz (c : Chip) (i : SlotId) (f : Slot → Slot) : (c.updSlot i f).clockHz = c.clockHz := rfl
@[simp] theorem Chip.updSlot_rateHz (c : Chip) (i : SlotId) (f : Slot → Slot) : (c.updSlot i f).rateHz = c.rateHz := rfl
@[simp] theorem Chip.updSlot_wse (c : Chip) (i : SlotId) (f : Slot → Slot) : (c.updSlot i f).wse = c.wse := rfl
@[simp] theorem Chip.updSlot_csm (c : Chip) (i : SlotId) (f : Slot → Slot) : (c.updSlot i f).csm = c.csm := rfl
@[simp] theorem Chip.updSlot_nts (c : Chip) (i : SlotId) (f : Slot → Slot) : (c.updSlot i f).nts = c.nts := rfl
@[simp] theorem Chip.updSlot_dam (c : Chip) (i : SlotId) (f : Slot → Slot) : (c.updSlot i f).dam = c.dam := rfl
@[simp] theorem Chip.updSlot_dvb (c : Chip) (i : SlotId) (f : Slot → Slot) : (c.updSlot i f).dvb = c.dvb := rfl
@[simp] theorem Chip.updSlot_rhythm (c : Chip) (i : SlotId) (f : Slot → Slot) : (c.updSlot i f).rhythm = c.rhythm := rfl
@[simp] theorem Chip.updSlot_rkey (c : Chip) (i : SlotId) (f : Slot → Slot) : (c.updSlot i f).rkey = c.rkey := rfl
@[simp] theorem Chip.updSlot_t1 (c : Chip) (i : SlotId) (f : Slot → Slot) : (c.updSlot i f).t1 = c.t1 := rfl
@[simp] theorem Chip.updSlot_t2 (c : Chip) (i : SlotId) (f : Slot → Slot) : (c.updSlot i f).t2 = c.t2 := rfl
@[simp] theorem Chip.updSlot_csmPulse (c : Chip) (i : SlotId) (f : Slot → Slot) : (c.updSlot i f).csmPulse = c.csmPulse := rfl
@[simp] theorem Chip.updSlot_amPos (c : Chip) (i : SlotId) (f : Slot → Slot) : (c.updSlot i f).amPos = c.amPos := rfl
@[simp] theorem Chip.updSlot_pmPos (c : Chip) (i : SlotId) (f : Slot → Slot) : (c.updSlot i f).pmPos = c.pmPos := rfl
@[simp] theorem Chip.updSlot_noise (c : Chip) (i : SlotId) (f : Slot → Slot) : (c.updSlot i f).noise = c.noise := rfl
@[simp] theorem Chip.updSlot_keyMask (c : Chip) (i : SlotId) (f : Slot → Slot) : (c.updSlot i f).keyMask = c.keyMask := rfl
@[simp] theorem Chip.updSlot_muteMask (c : Chip) (i : SlotId) (f : Slot → Slot) : (c.updSlot i f).muteMask = c.muteMask := rfl
@[simp] theorem Chip.updSlot_chan (c : Chip) (i : SlotId) (f : Slot → Slot) : (c.updSlot i f).chan = c.chan := rfl
@[simp] theorem Chip.updSlot_conv (c : Chip) (i : SlotId) (f : Slot → Slot) : (c.updSlot i f).conv = c.conv := rfl
@[simp] theorem Chip.updSlot_mixOut (c : Chip) (i : SlotId) (f : Slot → Slot) : (c.updSlot i f).mixOut = c.mixOut := rfl

@[simp] theorem Chip.updChan_reg (c : Chip) (i : ChanId) (f : Channel → Channel) : (c.updChan i f).reg = c.reg := rfl
@[simp] theorem Chip.updChan_tick (c : Chip) (i : ChanId) (f : Channel → Channel) : (c.updChan i f).tick = c.tick := rfl
@[simp] theorem Chip.updChan_outTime (c : Chip) (i : ChanId) (f : Channel → Channel) : (c.updChan i f).outTime = c.outTime := rfl
@[simp] theorem Chip.updChan_outStep (c : Chip) (i : ChanId) (f : Channel → Channel) : (c.updChan i f).outStep = c.outStep := rfl
@[simp] theorem Chip.updChan_inpStep (c : Chip) (i : ChanId) (f : Channel → Channel) : (c.updChan i f).inpStep = c.inpStep := rfl
@[simp] theorem Chip.updChan_clockHz (c : Chip) (i : ChanId) (f : Channel → Channel) : (c.updChan i f).clockHz = c.clockHz := rfl
@[simp] theorem Chip.updChan_rateHz (c : Chip) (i : ChanId) (f : Channel → Channel) : (c.updChan i f).rateHz = c.rateHz := rfl
@[simp] theorem Chip.updChan_wse (c : Chip) (i : ChanId) (f : Channel → Channel) : (c.updChan i f).wse = c.wse := rfl
@[simp] theorem Chip.updChan_csm (c : Chip) (i : ChanId) (f : Channel → Channel) : (c.updChan i f).csm = c.csm := rfl
@[simp] theorem Chip.updChan_nts (c : Chip) (i : ChanId) (f : Channel → Channel) : (c.updChan i f).nts = c.nts := rfl
@[simp] theorem Chip.updChan_dam (c : Chip) (i : ChanId) (f : Channel → Channel) : (c.updChan i f).dam = c.dam := rfl
@[simp] theorem Chip.updChan_dvb (c : Chip) (i : ChanId) (f : Channel → Channel) : (c.updChan i f).dvb = c.dvb := rfl
@[simp] theorem Chip.updChan_rhythm (c : Chip) (i : ChanId) (f : Channel → Channel) : (c.updChan i f).rhythm = c.rhythm := rfl
@[simp] theorem Chip.updChan_rkey (c : Chip) (i : ChanId) (f : Channel → Channel) : (c.updChan i f).rkey = c.rkey := rfl
@[simp] theorem Chip.updChan_t1 (c : Chip) (i : ChanId) (f : Channel → Channel) : (c.updChan i f).t1 = c.t1 := rfl
@[simp] theorem Chip.updChan_t2 (c : Chip) (i : ChanId) (f : Channel → Channel) : (c.updChan i f).t2 = c.t2 := rfl
@[simp] theorem Chip.updChan_csmPulse (c : Chip) (i : ChanId) (f : Channel → Channel) : (c.updChan i f).csmPulse = c.csmPulse := rfl
@[simp] theorem Chip.updChan_amPos (c : Chip) (i : ChanId) (f : Channel → Channel) : (c.updChan i f).amPos = c.amPos := rfl
@[simp] theorem Chip.updChan_pmPos (c : Chip) (i : ChanId) (f : Channel → Channel) : (c.updChan i f).pmPos = c.pmPos := rfl
@[simp] theorem Chip.updChan_noise (c : Chip) (i : ChanId) (f : Channel → Channel) : (c.updChan i f).noise = c.noise := rfl
@[simp] theorem Chip.updChan_keyMask (c : Chip) (i : ChanId) (f : Channel → Channel) : (c.updChan i f).keyMask = c.keyMask := rfl
@[simp] theorem Chip.updChan_muteMask (c : Chip) (i : ChanId) (f : Channel → Channel) : (c.updChan i f).muteMask = c.muteMask := rfl
@[simp] theorem Chip.updChan_slot (c : Chip) (i : ChanId) (f : Channel → Channel) : (c.updChan i f).slot = c.slot := rfl
@[simp] theorem Chip.updChan_conv (c : Chip) (i : ChanId) (f : Channel → Channel) : (c.updChan i f).conv = c.conv := rfl
@[simp] theorem Chip.updChan_mixOut (c : Chip) (i : ChanId) (f : Channel → Channel) : (c.updChan i f).mixOut = c.mixOut := rfl

@[simp] theorem Chip.mapSlots_reg (c : Chip) (f : SlotId → Slot → Slot) : (c.mapSlots f).reg = c.reg := by simp only [Chip.mapSlots]
@[simp] theorem Chip.mapSlots_tick (c : Chip) (f : SlotId → Slot → Slot) : (c.mapSlots f).tick = c.tick := by simp only [Chip.mapSlots]
@[simp] theorem Chip.mapSlots_outTime (c : Chip) (f : SlotId → Slot → Slot) : (c.mapSlots f).outTime = c.outTime := by simp only [Chip.mapSlots]
@[simp] theorem Chip.mapSlots_outStep (c : Chip) (f : SlotId → Slot → Slot) : (c.mapSlots f).outStep = c.outStep := by simp only [Chip.mapSlots]
@[simp] theorem Chip.mapSlots_inpStep (c : Chip) (f : SlotId → Slot → Slot) : (c.mapSlots f).inpStep = c.inpStep := by simp only [Chip.mapSlots]
@[simp] theorem Chip.mapSlots_clockHz (c : Chip) (f : SlotId → Slot → Slot) : (c.mapSlots f).clockHz = c.clockHz := by simp only [Chip.mapSlots]
@[simp] theorem Chip.mapSlots_rateHz (c : Chip) (f : SlotId → Slot → Slot) : (c.mapSlots f).rateHz = c.rateHz := by simp only [Chip.mapSlots]
@[simp] theorem Chip.mapSlots_wse (c : Chip) (f : SlotId → Slot → Slot) : (c.mapSlots f).wse = c.wse := by simp only [Chip.mapSlots]
@[simp] theorem Chip.mapSlots_csm (c : Chip) (f : SlotId → Slot → Slot) : (c.mapSlots f).csm = c.csm := by simp only [Chip.mapSlots]
@[simp] theorem Chip.mapSlots_nts (c : Chip) (f : SlotId → Slot → Slot) : (c.mapSlots f).nts = c.nts := by simp only [Chip.mapSlots]
@[simp] theorem Chip.mapSlots_dam (c : Chip) (f : SlotId → Slot → Slot) : (c.mapSlots f).dam = c.dam := by simp only [Chip.mapSlots]
@[simp] theorem Chip.mapSlots_dvb (c : Chip) (f : SlotId → Slot → Slot) : (c.mapSlots f).dvb = c.dvb := by simp only [Chip.mapSlots]
@[simp] theorem Chip.mapSlots_rhythm (c : Chip) (f : SlotId → Slot → Slot) : (c.mapSlots f).rhythm = c.rhythm := by simp only [Chip.mapSlots]
@[simp] theorem Chip.mapSlots_rkey (c : Chip) (f : SlotId → Slot → Slot) : (c.mapSlots f).rkey = c.rkey := by simp only [Chip.mapSlots]
@[simp] theorem Chip.mapSlots_t1 (c : Chip) (f : SlotId → Slot → Slot) : (c.mapSlots f).t1 = c.t1 := by simp only [Chip.mapSlots]
@[simp] theorem Chip.mapSlots_t2 (c : Chip) (f : SlotId → Slot → Slot) : (c.mapSlots f).t2 = c.t2 := by simp only [Chip.mapSlots]
@[simp] theorem Chip.mapSlots_csmPulse (c : Chip) (f : SlotId → Slot → Slot) : (c.mapSlots f).csmPulse = c.csmPulse := by simp only [Chip.mapSlots]
@[simp] theorem Chip.mapSlots_amPos (c : Chip) (f : SlotId → Slot → Slot) : (c.mapSlots f).amPos = c.amPos := by simp only [Chip.mapSlots]
@[simp] theorem Chip.mapSlots_pmPos (c : Chip) (f : SlotId → Slot → Slot) : (c.mapSlots f).pmPos = c.pmPos := by simp only [Chip.mapSlots]
@[simp] theorem Chip.mapSlots_noise (c : Chip) (f : SlotId → Slot → Slot) : (c.mapSlots f).noise = c.noise := by simp only [Chip.mapSlots]
@[simp] theorem Chip.mapSlots_keyMask (c : Chip) (f : SlotId → Slot → Slot) : (c.mapSlots f).keyMask = c.keyMask := by simp only [Chip.mapSlots]
@[simp] theorem Chip.mapSlots_muteMask (c : Chip) (f : SlotId → Slot → Slot) : (c.mapSlots f).muteMask = c.muteMask := by simp only [Chip.mapSlots]
@[simp] theorem Chip.mapSlots_chan (c : Chip) (f : SlotId → Slot → Slot) : (c.mapSlots f).chan = c.chan := by simp only [Chip.mapSlots]
@[simp] theorem Chip.mapSlots_conv (c : Chip) (f : SlotId → Slot → Slot) : (c.mapSlots f).conv = c.conv := by simp only [Chip.mapSlots]
@[simp] theorem Chip.mapSlots_mixOut (c : Chip) (f : SlotId → Slot → Slot) : (c.mapSlots f).mixOut = c.mixOut := by simp only [Chip.mapSlots]

@[simp] theorem Chip.markChanDirty_reg (c : Chip) (i : ChanId) (d : Dirty) : (c.markChanDirty i d).reg = c.reg := by simp [Chip.markChanDirty]
@[simp] theorem Chip.markChanDirty_tick (c : Chip) (i : ChanId) (d : Dirty) : (c.markChanDirty i d).tick = c.tick := by simp [Chip.markChanDirty]
@[simp] theorem Chip.markChanDirty_outTime (c : Chip) (i : ChanId) (d : Dirty) : (c.markChanDirty i d).outTime = c.outTime := by simp [Chip.markChanDirty]
@[simp] theorem Chip.markChanDirty_outStep (c : Chip) (i : ChanId) (d : Dirty) : (c.markChanDirty i d).outStep = c.outStep := by simp [Chip.markChanDirty]
@[simp] theorem Chip.markChanDirty_inpStep (c : Chip) (i : ChanId) (d : Dirty) : (c.markChanDirty i d).inpStep = c.inpStep := by simp [Chip.markChanDirty]
@[simp] theorem Chip.markChanDirty_clockHz (c : Chip) (i : ChanId) (d : Dirty) : (c.markChanDirty i d).clockHz = c.clockHz := by simp [Chip.markChanDirty]
@[simp] theorem Chip.markChanDirty_rateHz (c : Chip) (i : ChanId) (d : Dirty) : (c.markChanDirty i d).rateHz = c.rateHz := by simp [Chip.markChanDirty]
@[simp] theorem Chip.markChanDirty_wse (c : Chip) (i : ChanId) (d : Dirty) : (c.markChanDirty i d).wse = c.wse := by simp [Chip.markChanDirty]
@[simp] theorem Chip.markChanDirty_csm (c : Chip) (i : ChanId) (d : Dirty) : (c.markChanDirty i d).csm = c.csm := by simp [Chip.markChanDirty]
@[simp] theorem Chip.markChanDirty_nts (c : Chip) (i : ChanId) (d : Dirty) : (c.markChanDirty i d).nts = c.nts := by simp [Chip.markChanDirty]
@[simp] theorem Chip.markChanDirty_dam (c : Chip) (i : ChanId) (d : Dirty) : (c.markChanDirty i d).dam = c.dam := by simp [Chip.markChanDirty]
@[simp] theorem Chip.markChanDirty_dvb (c : Chip) (i : ChanId) (d : Dirty) : (c.markChanDirty i d).dvb = c.dvb := by simp [Chip.markChanDirty]
@[simp] theorem Chip.markChanDirty_rhythm (c : Chip) (i : ChanId) (d : Dirty) : (c.markChanDirty i d).rhythm = c.rhythm := by simp [Chip.markChanDirty]
@[simp] theorem Chip.markChanDirty_rkey (c : Chip) (i : ChanId) (d : Dirty) : (c.markChanDirty i d).rkey = c.rkey := by simp [Chip.markChanDirty]
@[simp] theorem Chip.markChanDirty_t1 (c : Chip) (i : ChanId) (d : Dirty) : (c.markChanDirty i d).t1 = c.t1 := by simp [Chip.markChanDirty]
@[simp] theorem Chip.markChanDirty_t2 (c : Chip) (i : ChanId) (d : Dirty) : (c.markChanDirty i d).t2 = c.t2 := by simp [Chip.markChanDirty]
@[simp] theorem Chip.markChanDirty_csmPulse (c : Chip) (i : ChanId) (d : Dirty) : (c.markChanDirty i d).csmPulse = c.csmPulse := by simp [Chip.markChanDirty]
@[simp] theorem Chip.markChanDirty_amPos (c : Chip) (i : ChanId) (d : Dirty) : (c.markChanDirty i d).amPos = c.amPos := by simp [Chip.markChanDirty]
@[simp] theorem Chip.markChanDirty_pmPos (c : Chip) (i : ChanId) (d : Dirty) : (c.markChanDirty i d).pmPos = c.pmPos := by simp [Chip.markChanDirty]
@[simp] theorem Chip.markChanDirty_noise (c : Chip) (i : ChanId) (d : Dirty) : (c.markChanDirty i d).noise = c.noise := by simp [Chip.markChanDirty]
@[simp] theorem Chip.markChanDirty_keyMask (c : Chip) (i : ChanId) (d : Dirty) : (c.markChanDirty i d).keyMask = c.keyMask := by simp [Chip.markChanDirty]
@[simp] theorem Chip.markChanDirty_muteMask (c : Chip) (i : ChanId) (d : Dirty) : (c.markChanDirty i d).muteMask = c.muteMask := by simp [Chip.markChanDirty]
@[simp] theorem Chip.markChanDirty_chan (c : Chip) (i : ChanId) (d : Dirty) : (c.markChanDirty i d).chan = c.chan := by simp [Chip.markChanDirty]
@[simp] theorem Chip.markChanDirty_conv (c : Chip) (i : ChanId) (d : Dirty) : (c.markChanDirty i d).conv = c.conv := by simp [Chip.markChanDirty]
@[simp] theorem Chip.markChanDirty_mixOut (c : Chip) (i : ChanId) (d : Dirty) : (c.markChanDirty i d).mixOut = c.mixOut := by simp [Chip.markChanDirty]

/-! ## Slot -/

@[simp] theorem Slot.markDirty_am (sl : Slot) (d : Dirty) : (sl.markDirty d).am = sl.am := rfl
@[simp] theorem Slot.markDirty_pm (sl : Slot) (d : Dirty) : (sl.markDirty d).pm = sl.pm := rfl
@[simp] theorem Slot.markDirty_eg (sl : Slot) (d : Dirty) : (sl.markDirty d).eg = sl.eg := rfl
@[simp] theorem Slot.markDirty_kr (sl : Slot) (d : Dirty) : (sl.markDirty d).kr = sl.kr := rfl
@[simp] theorem Slot.markDirty_ml (sl : Slot) (d : Dirty) : (sl.markDirty d).ml = sl.ml := rfl
@[simp] theorem Slot.markDirty_kl (sl : Slot) (d : Dirty) : (sl.markDirty d).kl = sl.kl := rfl
@[simp] theorem Slot.markDirty_tl (sl : Slot) (d : Dirty) : (sl.markDirty d).tl = sl.tl := rfl
@[simp] theorem Slot.markDirty_ar (sl : Slot) (d : Dirty) : (sl.markDirty d).ar = sl.ar := rfl
@[simp] theorem Slot.markDirty_dr (sl : Slot) (d : Dirty) : (sl.markDirty d).dr = sl.dr := rfl
@[simp] theorem Slot.markDirty_sl (sl : Slot) (d : Dirty) : (sl.markDirty d).sl = sl.sl := rfl
@[simp] theorem Slot.markDirty_rr (sl : Slot) (d : Dirty) : (sl.markDirty d).rr = sl.rr := rfl
@[simp] theorem Slot.markDirty_ws (sl : Slot) (d : Dirty) : (sl.markDirty d).ws = sl.ws := rfl
@[simp] theorem Slot.markDirty_egState (sl : Slot) (d : Dirty) : (sl.markDirty d).egState = sl.egState := rfl
@[simp] theorem Slot.markDirty_egOut (sl : Slot) (d : Dirty) : (sl.markDirty d).egOut = sl.egOut := rfl
@[simp] theorem Slot.markDirty_phase (sl : Slot) (d : Dirty) : (sl.markDirty d).phase = sl.phase := rfl
@[simp] theorem Slot.markDirty_out1 (sl : Slot) (d : Dirty) : (sl.markDirty d).out1 = sl.out1 := rfl
@[simp] theorem Slot.markDirty_out2 (sl : Slot) (d : Dirty) : (sl.markDirty d).out2 = sl.out2 := rfl
@[simp] theorem Slot.markDirty_tll (sl : Slot) (d : Dirty) : (sl.markDirty d).tll = sl.tll := rfl
@[simp] theorem Slot.markDirty_rks (sl : Slot) (d : Dirty) : (sl.markDirty d).rks = sl.rks := rfl
@[simp] theorem Slot.markDirty_egRateH (sl : Slot) (d : Dirty) : (sl.markDirty d).egRateH = sl.egRateH := rfl
@[simp] theorem Slot.markDirty_egRateL (sl : Slot) (d : Dirty) : (sl.markDirty d).egRateL = sl.egRateL := rfl
@[simp] theorem Slot.markDirty_egShift (sl : Slot) (d : Dirty) : (sl.markDirty d).egShift = sl.egShift := rfl
@[simp] theorem Slot.markDirty_wave (sl : Slot) (d : Dirty) : (sl.markDirty d).wave = sl.wave := rfl
@[simp] theorem Slot.markDirty_dirty (sl : Slot) (d : Dirty) : (sl.markDirty d).dirty = sl.dirty.or d := rfl

/-! ## Accessors -/

/-- A register reads the value last written to it, and no other register changes (R24). -/
@[simp] theorem Chip.regAt_setReg (c : Chip) (a b v : Byte) :
    (c.setReg a v).regAt b = if b = a then v else c.regAt b := by
  by_cases h : b = a
  · subst h; simp [Chip.regAt, Chip.setReg]
  · have h' : a.toNat ≠ b.toNat := fun e => h (BitVec.eq_of_toNat_eq e.symm)
    simp [Chip.regAt, Chip.setReg, h, Vector.getElem_set_ne, h']

@[simp] theorem Chip.slotAt_updSlot (c : Chip) (i j : SlotId) (f : Slot → Slot) :
    (c.updSlot i f).slotAt j = if j = i then f (c.slotAt i) else c.slotAt j := by
  by_cases h : j = i
  · subst h; simp [Chip.slotAt, Chip.updSlot]
  · have h' : i.val ≠ j.val := fun e => h (Fin.ext e.symm)
    simp [Chip.slotAt, Chip.updSlot, h, Vector.getElem_set_ne, h']

@[simp] theorem Chip.slotAt_mapSlots (c : Chip) (f : SlotId → Slot → Slot) (i : SlotId) :
    (c.mapSlots f).slotAt i = f i (c.slotAt i) := by
  simp [Chip.slotAt, Chip.mapSlots]

@[simp] theorem Chip.chanAt_updChan (c : Chip) (i j : ChanId) (f : Channel → Channel) :
    (c.updChan i f).chanAt j = if j = i then f (c.chanAt i) else c.chanAt j := by
  by_cases h : j = i
  · subst h; simp [Chip.chanAt, Chip.updChan]
  · have h' : i.val ≠ j.val := fun e => h (Fin.ext e.symm)
    simp [Chip.chanAt, Chip.updChan, h, Vector.getElem_set_ne, h']

/-- Two instances with the same slots read the same slots. -/
theorem Chip.slotAt_congr {c d : Chip} (h : c.slot = d.slot) (i : SlotId) : c.slotAt i = d.slotAt i := by
  simp [Chip.slotAt, h]

/-- Two instances with the same channels read the same channels. -/
theorem Chip.chanAt_congr {c d : Chip} (h : c.chan = d.chan) (i : ChanId) : c.chanAt i = d.chanAt i := by
  simp [Chip.chanAt, h]

@[simp] theorem Chip.chanAt_setReg (c : Chip) (a v : Byte) (i : ChanId) :
    (c.setReg a v).chanAt i = c.chanAt i := rfl
@[simp] theorem Chip.slotAt_setReg (c : Chip) (a v : Byte) (i : SlotId) :
    (c.setReg a v).slotAt i = c.slotAt i := rfl
@[simp] theorem Chip.chanAt_updSlot (c : Chip) (i : SlotId) (f : Slot → Slot) (j : ChanId) :
    (c.updSlot i f).chanAt j = c.chanAt j := rfl
@[simp] theorem Chip.slotAt_updChan (c : Chip) (i : ChanId) (f : Channel → Channel) (j : SlotId) :
    (c.updChan i f).slotAt j = c.slotAt j := rfl
@[simp] theorem Chip.chanAt_mapSlots (c : Chip) (f : SlotId → Slot → Slot) (j : ChanId) :
    (c.mapSlots f).chanAt j = c.chanAt j := by simp only [Chip.mapSlots, Chip.chanAt]
@[simp] theorem Chip.chanAt_markChanDirty (c : Chip) (i : ChanId) (d : Dirty) (j : ChanId) :
    (c.markChanDirty i d).chanAt j = c.chanAt j := by simp [Chip.chanAt]
@[simp] theorem Chip.chanFor_mapSlots (c : Chip) (f : SlotId → Slot → Slot) (j : SlotId) :
    (c.mapSlots f).chanFor j = c.chanFor j := by simp only [Chip.mapSlots, Chip.chanFor, Chip.chanAt]
@[simp] theorem Chip.chanFor_updSlot (c : Chip) (i : SlotId) (f : Slot → Slot) (j : SlotId) :
    (c.updSlot i f).chanFor j = c.chanFor j := rfl
@[simp] theorem Chip.chanFor_setReg (c : Chip) (a v : Byte) (j : SlotId) :
    (c.setReg a v).chanFor j = c.chanFor j := rfl
@[simp] theorem Chip.chanFor_markChanDirty (c : Chip) (i : ChanId) (d : Dirty) (j : SlotId) :
    (c.markChanDirty i d).chanFor j = c.chanFor j := by simp [Chip.chanFor, Chip.chanAt]

/-! ## Slots and channels (R85) -/

/-- A slot is the modulator or the carrier of its channel. -/
theorem modSlot_or_carSlot (i : SlotId) : i = modSlot (chanOfSlot i) ∨ i = carSlot (chanOfSlot i) := by
  revert i; decide

@[simp] theorem chanOfSlot_modSlot (c : ChanId) : chanOfSlot (modSlot c) = c := by revert c; decide
@[simp] theorem chanOfSlot_carSlot (c : ChanId) : chanOfSlot (carSlot c) = c := by revert c; decide
@[simp] theorem isModulator_modSlot (c : ChanId) : isModulator (modSlot c) = true := by revert c; decide
@[simp] theorem isModulator_carSlot (c : ChanId) : isModulator (carSlot c) = false := by revert c; decide
theorem carSlot_ne_modSlot (c d : ChanId) : carSlot c ≠ modSlot d := by revert c d; decide

/-- What marking a channel's two slots dirty does to each slot (R131, R132). -/
theorem Chip.slotAt_markChanDirty (c : Chip) (ch : ChanId) (d : Dirty) (i : SlotId) :
    (c.markChanDirty ch d).slotAt i
      = if chanOfSlot i = ch then (c.slotAt i).markDirty d else c.slotAt i := by
  unfold Chip.markChanDirty
  rw [Chip.slotAt_updSlot, Chip.slotAt_updSlot, Chip.slotAt_updSlot]
  rcases modSlot_or_carSlot i with h | h
  · by_cases hc : chanOfSlot i = ch
    · have : i = modSlot ch := by rw [h, hc]
      subst this; simp [(carSlot_ne_modSlot _ _).symm]
    · have h1 : i ≠ modSlot ch := fun e => hc (by rw [e]; simp)
      have h2 : i ≠ carSlot ch := fun e => hc (by rw [e]; simp)
      simp [h1, h2, hc]
  · by_cases hc : chanOfSlot i = ch
    · have : i = carSlot ch := by rw [h, hc]
      subst this; simp [carSlot_ne_modSlot]
    · have h1 : i ≠ modSlot ch := fun e => hc (by rw [e]; simp)
      have h2 : i ≠ carSlot ch := fun e => hc (by rw [e]; simp)
      simp [h1, h2, hc]

end Sys2Proof.Machine
end

