-- ==== Sys2Proof/Laws/Keys.lean ====
section
/-!
SUPPORT. What committing a slot and updating the keys do (R42, R140, R141).
-/

namespace Sys2Proof.Machine

/-! ## Commit -/

/-- A slot with every derived field recomputed and no flag set (R40). -/
def Slot.recomputed (nts : Bool) (ch : Channel) (sl : Slot) : Slot :=
  { sl with
    wave := sl.ws
    tll := tllOf ch sl.tl sl.kl
    rks := rksOf nts ch sl.kr
    egRateH := rateHigh sl.parameterRate (rksOf nts ch sl.kr)
    egRateL := rateLow sl.parameterRate (rksOf nts ch sl.kr)
    egShift := shiftOf (rateHigh sl.parameterRate (rksOf nts ch sl.kr))
    dirty := Dirty.none }

/-- The commit of a coherent slot recomputes every derived field in effect (R42). -/
theorem commitSlot_of_cacheOk {nts : Bool} {ch : Channel} {sl : Slot} (h : sl.cacheOk nts ch) :
    commitSlot nts ch sl = sl.recomputed nts ch := by
  obtain ⟨hw, ht, hr, he⟩ := h
  unfold commitSlot Slot.recomputed
  cases h1 : sl.dirty.wave <;> cases h2 : sl.dirty.tll <;> cases h3 : sl.dirty.rks <;> cases h4 : sl.dirty.egRate <;>
    simp_all

/-- A committed slot is coherent. -/
theorem recomputed_cacheOk (nts : Bool) (ch : Channel) (sl : Slot) : (sl.recomputed nts ch).cacheOk nts ch :=
  ⟨fun _ => rfl, fun _ => rfl, fun _ => rfl, fun _ => ⟨rfl, rfl, rfl, rfl⟩⟩

/-- Marking fields dirty keeps coherence, if an unflagged rate has an unflagged `rks` (R41). -/
theorem markDirty_cacheOk {nts : Bool} {ch : Channel} {sl : Slot} (h : sl.cacheOk nts ch) (d : Dirty)
    (hd : d.rks = true → d.egRate = true) : (sl.markDirty d).cacheOk nts ch := by
  obtain ⟨hw, ht, hr, he⟩ := h
  refine ⟨?_, ?_, ?_, ?_⟩ <;> intro hf <;>
    simp only [Slot.markDirty_dirty, Dirty.or, Bool.or_eq_false_iff] at hf
  · exact hw hf.1
  · exact ht hf.1
  · exact hr hf.1
  · obtain ⟨h1, h2⟩ := he hf.1
    refine ⟨?_, h2⟩
    simp only [Slot.markDirty_dirty, Dirty.or, Bool.or_eq_false_iff]
    refine ⟨h1, ?_⟩
    cases hr : d.rks with
    | false => rfl
    | true => simp [hd hr] at hf

@[simp] theorem commitSlot_egState (nts : Bool) (ch : Channel) (sl : Slot) : (commitSlot nts ch sl).egState = sl.egState := rfl
@[simp] theorem commitSlot_egOut (nts : Bool) (ch : Channel) (sl : Slot) : (commitSlot nts ch sl).egOut = sl.egOut := rfl
@[simp] theorem commitSlot_phase (nts : Bool) (ch : Channel) (sl : Slot) : (commitSlot nts ch sl).phase = sl.phase := rfl
@[simp] theorem commitSlot_out1 (nts : Bool) (ch : Channel) (sl : Slot) : (commitSlot nts ch sl).out1 = sl.out1 := rfl
@[simp] theorem commitSlot_out2 (nts : Bool) (ch : Channel) (sl : Slot) : (commitSlot nts ch sl).out2 = sl.out2 := rfl
@[simp] theorem commitSlot_dirty (nts : Bool) (ch : Channel) (sl : Slot) : (commitSlot nts ch sl).dirty = Dirty.none := rfl

@[simp] theorem Chip.commit_reg (c : Chip) : (c.commit).reg = c.reg := by simp only [Chip.commit, Chip.mapSlots]
@[simp] theorem Chip.commit_tick (c : Chip) : (c.commit).tick = c.tick := by simp only [Chip.commit, Chip.mapSlots]
@[simp] theorem Chip.commit_outTime (c : Chip) : (c.commit).outTime = c.outTime := by simp only [Chip.commit, Chip.mapSlots]
@[simp] theorem Chip.commit_outStep (c : Chip) : (c.commit).outStep = c.outStep := by simp only [Chip.commit, Chip.mapSlots]
@[simp] theorem Chip.commit_inpStep (c : Chip) : (c.commit).inpStep = c.inpStep := by simp only [Chip.commit, Chip.mapSlots]
@[simp] theorem Chip.commit_clockHz (c : Chip) : (c.commit).clockHz = c.clockHz := by simp only [Chip.commit, Chip.mapSlots]
@[simp] theorem Chip.commit_rateHz (c : Chip) : (c.commit).rateHz = c.rateHz := by simp only [Chip.commit, Chip.mapSlots]
@[simp] theorem Chip.commit_wse (c : Chip) : (c.commit).wse = c.wse := by simp only [Chip.commit, Chip.mapSlots]
@[simp] theorem Chip.commit_csm (c : Chip) : (c.commit).csm = c.csm := by simp only [Chip.commit, Chip.mapSlots]
@[simp] theorem Chip.commit_nts (c : Chip) : (c.commit).nts = c.nts := by simp only [Chip.commit, Chip.mapSlots]
@[simp] theorem Chip.commit_dam (c : Chip) : (c.commit).dam = c.dam := by simp only [Chip.commit, Chip.mapSlots]
@[simp] theorem Chip.commit_dvb (c : Chip) : (c.commit).dvb = c.dvb := by simp only [Chip.commit, Chip.mapSlots]
@[simp] theorem Chip.commit_rhythm (c : Chip) : (c.commit).rhythm = c.rhythm := by simp only [Chip.commit, Chip.mapSlots]
@[simp] theorem Chip.commit_rkey (c : Chip) : (c.commit).rkey = c.rkey := by simp only [Chip.commit, Chip.mapSlots]
@[simp] theorem Chip.commit_t1 (c : Chip) : (c.commit).t1 = c.t1 := by simp only [Chip.commit, Chip.mapSlots]
@[simp] theorem Chip.commit_t2 (c : Chip) : (c.commit).t2 = c.t2 := by simp only [Chip.commit, Chip.mapSlots]
@[simp] theorem Chip.commit_csmPulse (c : Chip) : (c.commit).csmPulse = c.csmPulse := by simp only [Chip.commit, Chip.mapSlots]
@[simp] theorem Chip.commit_amPos (c : Chip) : (c.commit).amPos = c.amPos := by simp only [Chip.commit, Chip.mapSlots]
@[simp] theorem Chip.commit_pmPos (c : Chip) : (c.commit).pmPos = c.pmPos := by simp only [Chip.commit, Chip.mapSlots]
@[simp] theorem Chip.commit_noise (c : Chip) : (c.commit).noise = c.noise := by simp only [Chip.commit, Chip.mapSlots]
@[simp] theorem Chip.commit_keyMask (c : Chip) : (c.commit).keyMask = c.keyMask := by simp only [Chip.commit, Chip.mapSlots]
@[simp] theorem Chip.commit_muteMask (c : Chip) : (c.commit).muteMask = c.muteMask := by simp only [Chip.commit, Chip.mapSlots]
@[simp] theorem Chip.commit_chan (c : Chip) : (c.commit).chan = c.chan := by simp only [Chip.commit, Chip.mapSlots]
@[simp] theorem Chip.commit_conv (c : Chip) : (c.commit).conv = c.conv := by simp only [Chip.commit, Chip.mapSlots]
@[simp] theorem Chip.commit_mixOut (c : Chip) : (c.commit).mixOut = c.mixOut := by simp only [Chip.commit, Chip.mapSlots]

@[simp] theorem Chip.slotAt_commit (c : Chip) (i : SlotId) :
    c.commit.slotAt i = commitSlot c.nts (c.chanFor i) (c.slotAt i) := by
  simp [Chip.commit]

@[simp] theorem Chip.chanFor_commit (c : Chip) (i : SlotId) : c.commit.chanFor i = c.chanFor i := by
  simp [Chip.chanFor, Chip.chanAt]

/-! ## Keys -/

@[simp] theorem Chip.getLsbD_wantMask (c : Chip) (i : SlotId) : c.wantMask.getLsbD i.val = c.wantsKey i := by
  simp [Chip.wantMask]

/-- The desired keys read the channel keys, the rhythm latches and the pulse alone (R140). -/
theorem Chip.wantsKey_congr {c d : Chip} (h1 : c.chan = d.chan) (h2 : c.csmPulse = d.csmPulse)
    (h3 : c.rhythm = d.rhythm) (h4 : c.rkey = d.rkey) (i : SlotId) : c.wantsKey i = d.wantsKey i := by
  simp [Chip.wantsKey, Chip.chanFor, Chip.chanAt, h1, h2, h3, h4]

theorem Chip.wantMask_congr {c d : Chip} (h1 : c.chan = d.chan) (h2 : c.csmPulse = d.csmPulse)
    (h3 : c.rhythm = d.rhythm) (h4 : c.rkey = d.rkey) : c.wantMask = d.wantMask := by
  unfold Chip.wantMask
  rw [funext (Chip.wantsKey_congr h1 h2 h3 h4)]

@[simp] theorem Chip.updateKeys_reg (c : Chip) : (c.updateKeys).reg = c.reg := by simp only [Chip.updateKeys, Chip.mapSlots]
@[simp] theorem Chip.updateKeys_tick (c : Chip) : (c.updateKeys).tick = c.tick := by simp only [Chip.updateKeys, Chip.mapSlots]
@[simp] theorem Chip.updateKeys_outTime (c : Chip) : (c.updateKeys).outTime = c.outTime := by simp only [Chip.updateKeys, Chip.mapSlots]
@[simp] theorem Chip.updateKeys_outStep (c : Chip) : (c.updateKeys).outStep = c.outStep := by simp only [Chip.updateKeys, Chip.mapSlots]
@[simp] theorem Chip.updateKeys_inpStep (c : Chip) : (c.updateKeys).inpStep = c.inpStep := by simp only [Chip.updateKeys, Chip.mapSlots]
@[simp] theorem Chip.updateKeys_clockHz (c : Chip) : (c.updateKeys).clockHz = c.clockHz := by simp only [Chip.updateKeys, Chip.mapSlots]
@[simp] theorem Chip.updateKeys_rateHz (c : Chip) : (c.updateKeys).rateHz = c.rateHz := by simp only [Chip.updateKeys, Chip.mapSlots]
@[simp] theorem Chip.updateKeys_wse (c : Chip) : (c.updateKeys).wse = c.wse := by simp only [Chip.updateKeys, Chip.mapSlots]
@[simp] theorem Chip.updateKeys_csm (c : Chip) : (c.updateKeys).csm = c.csm := by simp only [Chip.updateKeys, Chip.mapSlots]
@[simp] theorem Chip.updateKeys_nts (c : Chip) : (c.updateKeys).nts = c.nts := by simp only [Chip.updateKeys, Chip.mapSlots]
@[simp] theorem Chip.updateKeys_dam (c : Chip) : (c.updateKeys).dam = c.dam := by simp only [Chip.updateKeys, Chip.mapSlots]
@[simp] theorem Chip.updateKeys_dvb (c : Chip) : (c.updateKeys).dvb = c.dvb := by simp only [Chip.updateKeys, Chip.mapSlots]
@[simp] theorem Chip.updateKeys_rhythm (c : Chip) : (c.updateKeys).rhythm = c.rhythm := by simp only [Chip.updateKeys, Chip.mapSlots]
@[simp] theorem Chip.updateKeys_rkey (c : Chip) : (c.updateKeys).rkey = c.rkey := by simp only [Chip.updateKeys, Chip.mapSlots]
@[simp] theorem Chip.updateKeys_t1 (c : Chip) : (c.updateKeys).t1 = c.t1 := by simp only [Chip.updateKeys, Chip.mapSlots]
@[simp] theorem Chip.updateKeys_t2 (c : Chip) : (c.updateKeys).t2 = c.t2 := by simp only [Chip.updateKeys, Chip.mapSlots]
@[simp] theorem Chip.updateKeys_csmPulse (c : Chip) : (c.updateKeys).csmPulse = c.csmPulse := by simp only [Chip.updateKeys, Chip.mapSlots]
@[simp] theorem Chip.updateKeys_amPos (c : Chip) : (c.updateKeys).amPos = c.amPos := by simp only [Chip.updateKeys, Chip.mapSlots]
@[simp] theorem Chip.updateKeys_pmPos (c : Chip) : (c.updateKeys).pmPos = c.pmPos := by simp only [Chip.updateKeys, Chip.mapSlots]
@[simp] theorem Chip.updateKeys_noise (c : Chip) : (c.updateKeys).noise = c.noise := by simp only [Chip.updateKeys, Chip.mapSlots]
@[simp] theorem Chip.updateKeys_muteMask (c : Chip) : (c.updateKeys).muteMask = c.muteMask := by simp only [Chip.updateKeys, Chip.mapSlots]
@[simp] theorem Chip.updateKeys_chan (c : Chip) : (c.updateKeys).chan = c.chan := by simp only [Chip.updateKeys, Chip.mapSlots]
@[simp] theorem Chip.updateKeys_conv (c : Chip) : (c.updateKeys).conv = c.conv := by simp only [Chip.updateKeys, Chip.mapSlots]
@[simp] theorem Chip.updateKeys_mixOut (c : Chip) : (c.updateKeys).mixOut = c.mixOut := by simp only [Chip.updateKeys, Chip.mapSlots]

@[simp] theorem Chip.updateKeys_keyMask (c : Chip) : c.updateKeys.keyMask = c.wantMask := rfl

@[simp] theorem Chip.slotAt_updateKeys (c : Chip) (i : SlotId) :
    c.updateKeys.slotAt i = c.keyEdge i (c.slotAt i) :=
  Chip.slotAt_mapSlots c c.keyEdge i

/-- The keys asked for stay the same through an update. -/
@[simp] theorem Chip.updateKeys_wantMask (c : Chip) : c.updateKeys.wantMask = c.wantMask :=
  Chip.wantMask_congr (by simp) (by simp) (by simp) (by simp)

/-- The four cases of a slot's edge (R140). -/
theorem Chip.keyEdge_eq (c : Chip) (i : SlotId) (sl : Slot) :
    c.keyEdge i sl =
      if c.keyMask.getLsbD i.val = c.wantsKey i then sl
      else if c.wantsKey i then slotOn c.nts (c.chanFor i) sl else slotOff sl := by
  unfold Chip.keyEdge
  cases h1 : c.keyMask.getLsbD i.val <;> cases h2 : c.wantsKey i <;> simp

end Sys2Proof.Machine
end

