-- ==== Sys2Proof/Laws/Tick.lean ====
section
/-!
SUPPORT. What a native tick does (45_render.md R291), part by part: the timers and the key pulse, the
state before the slots step, the slots, and the whole tick.
-/

namespace Sys2Proof.Machine

/-! ## Timers and the key pulse -/

/-- A running timer whose prescaler wraps at 255 overflows, and no other (R370, R371). -/
theorem Timer.step_overflow {w : Nat} (t : Timer w) :
    t.step.2 = true ↔ t.run = true ∧ t.pre + 1 = 0 ∧ t.cnt = 255 := by
  unfold Timer.step
  by_cases h1 : t.run = true <;> by_cases h2 : t.pre + 1 = 0 <;> by_cases h3 : t.cnt = 255 <;>
    simp only [h1, h2, h3, if_true, if_false, Bool.false_eq_true, and_self, and_true, and_false]

/-- Timer 1 overflows at the next tick (R370, R371). -/
theorem Chip.timer1Overflows_iff (c : Chip) : c.t1.step.2 = true ↔ c.timer1Overflows := by
  have h : ∀ p : BitVec 2, p + 1 = 0 ↔ p = 3 := by decide
  rw [Timer.step_overflow, h]

/-- A step keeps what the control write owns (R370). -/
theorem Timer.step_kept {w : Nat} (t : Timer w) :
    t.step.1.latch = t.latch ∧ t.step.1.mask = t.mask ∧ t.step.1.run = t.run := by
  unfold Timer.step
  dsimp only
  split
  · split
    · split <;> exact ⟨rfl, rfl, rfl⟩
    · exact ⟨rfl, rfl, rfl⟩
  · exact ⟨rfl, rfl, rfl⟩

/-- A step sets the flag at an unmasked overflow and keeps it otherwise (R371, R373). -/
theorem Timer.step_flag {w : Nat} (t : Timer w) : t.step.1.flag = (t.flag || (t.step.2 && !t.mask)) := by
  unfold Timer.step
  dsimp only
  split
  · split
    · split <;> simp [Timer.overflowFlag]
    · simp
  · simp

@[simp] theorem Chip.csmRelease_reg (c : Chip) : (c.csmRelease).reg = c.reg := by unfold Chip.csmRelease; split <;> simp
@[simp] theorem Chip.csmRelease_tick (c : Chip) : (c.csmRelease).tick = c.tick := by unfold Chip.csmRelease; split <;> simp
@[simp] theorem Chip.csmRelease_outTime (c : Chip) : (c.csmRelease).outTime = c.outTime := by unfold Chip.csmRelease; split <;> simp
@[simp] theorem Chip.csmRelease_outStep (c : Chip) : (c.csmRelease).outStep = c.outStep := by unfold Chip.csmRelease; split <;> simp
@[simp] theorem Chip.csmRelease_inpStep (c : Chip) : (c.csmRelease).inpStep = c.inpStep := by unfold Chip.csmRelease; split <;> simp
@[simp] theorem Chip.csmRelease_clockHz (c : Chip) : (c.csmRelease).clockHz = c.clockHz := by unfold Chip.csmRelease; split <;> simp
@[simp] theorem Chip.csmRelease_rateHz (c : Chip) : (c.csmRelease).rateHz = c.rateHz := by unfold Chip.csmRelease; split <;> simp
@[simp] theorem Chip.csmRelease_wse (c : Chip) : (c.csmRelease).wse = c.wse := by unfold Chip.csmRelease; split <;> simp
@[simp] theorem Chip.csmRelease_csm (c : Chip) : (c.csmRelease).csm = c.csm := by unfold Chip.csmRelease; split <;> simp
@[simp] theorem Chip.csmRelease_nts (c : Chip) : (c.csmRelease).nts = c.nts := by unfold Chip.csmRelease; split <;> simp
@[simp] theorem Chip.csmRelease_dam (c : Chip) : (c.csmRelease).dam = c.dam := by unfold Chip.csmRelease; split <;> simp
@[simp] theorem Chip.csmRelease_dvb (c : Chip) : (c.csmRelease).dvb = c.dvb := by unfold Chip.csmRelease; split <;> simp
@[simp] theorem Chip.csmRelease_rhythm (c : Chip) : (c.csmRelease).rhythm = c.rhythm := by unfold Chip.csmRelease; split <;> simp
@[simp] theorem Chip.csmRelease_rkey (c : Chip) : (c.csmRelease).rkey = c.rkey := by unfold Chip.csmRelease; split <;> simp
@[simp] theorem Chip.csmRelease_t1 (c : Chip) : (c.csmRelease).t1 = c.t1 := by unfold Chip.csmRelease; split <;> simp
@[simp] theorem Chip.csmRelease_t2 (c : Chip) : (c.csmRelease).t2 = c.t2 := by unfold Chip.csmRelease; split <;> simp
@[simp] theorem Chip.csmRelease_amPos (c : Chip) : (c.csmRelease).amPos = c.amPos := by unfold Chip.csmRelease; split <;> simp
@[simp] theorem Chip.csmRelease_pmPos (c : Chip) : (c.csmRelease).pmPos = c.pmPos := by unfold Chip.csmRelease; split <;> simp
@[simp] theorem Chip.csmRelease_noise (c : Chip) : (c.csmRelease).noise = c.noise := by unfold Chip.csmRelease; split <;> simp
@[simp] theorem Chip.csmRelease_muteMask (c : Chip) : (c.csmRelease).muteMask = c.muteMask := by unfold Chip.csmRelease; split <;> simp
@[simp] theorem Chip.csmRelease_chan (c : Chip) : (c.csmRelease).chan = c.chan := by unfold Chip.csmRelease; split <;> simp
@[simp] theorem Chip.csmRelease_conv (c : Chip) : (c.csmRelease).conv = c.conv := by unfold Chip.csmRelease; split <;> simp
@[simp] theorem Chip.csmRelease_mixOut (c : Chip) : (c.csmRelease).mixOut = c.mixOut := by unfold Chip.csmRelease; split <;> simp

@[simp] theorem Chip.timer1Step_reg (c : Chip) : (c.timer1Step).reg = c.reg := by unfold Chip.timer1Step; dsimp only; split <;> simp
@[simp] theorem Chip.timer1Step_tick (c : Chip) : (c.timer1Step).tick = c.tick := by unfold Chip.timer1Step; dsimp only; split <;> simp
@[simp] theorem Chip.timer1Step_outTime (c : Chip) : (c.timer1Step).outTime = c.outTime := by unfold Chip.timer1Step; dsimp only; split <;> simp
@[simp] theorem Chip.timer1Step_outStep (c : Chip) : (c.timer1Step).outStep = c.outStep := by unfold Chip.timer1Step; dsimp only; split <;> simp
@[simp] theorem Chip.timer1Step_inpStep (c : Chip) : (c.timer1Step).inpStep = c.inpStep := by unfold Chip.timer1Step; dsimp only; split <;> simp
@[simp] theorem Chip.timer1Step_clockHz (c : Chip) : (c.timer1Step).clockHz = c.clockHz := by unfold Chip.timer1Step; dsimp only; split <;> simp
@[simp] theorem Chip.timer1Step_rateHz (c : Chip) : (c.timer1Step).rateHz = c.rateHz := by unfold Chip.timer1Step; dsimp only; split <;> simp
@[simp] theorem Chip.timer1Step_wse (c : Chip) : (c.timer1Step).wse = c.wse := by unfold Chip.timer1Step; dsimp only; split <;> simp
@[simp] theorem Chip.timer1Step_csm (c : Chip) : (c.timer1Step).csm = c.csm := by unfold Chip.timer1Step; dsimp only; split <;> simp
@[simp] theorem Chip.timer1Step_nts (c : Chip) : (c.timer1Step).nts = c.nts := by unfold Chip.timer1Step; dsimp only; split <;> simp
@[simp] theorem Chip.timer1Step_dam (c : Chip) : (c.timer1Step).dam = c.dam := by unfold Chip.timer1Step; dsimp only; split <;> simp
@[simp] theorem Chip.timer1Step_dvb (c : Chip) : (c.timer1Step).dvb = c.dvb := by unfold Chip.timer1Step; dsimp only; split <;> simp
@[simp] theorem Chip.timer1Step_rhythm (c : Chip) : (c.timer1Step).rhythm = c.rhythm := by unfold Chip.timer1Step; dsimp only; split <;> simp
@[simp] theorem Chip.timer1Step_rkey (c : Chip) : (c.timer1Step).rkey = c.rkey := by unfold Chip.timer1Step; dsimp only; split <;> simp
@[simp] theorem Chip.timer1Step_t2 (c : Chip) : (c.timer1Step).t2 = c.t2 := by unfold Chip.timer1Step; dsimp only; split <;> simp
@[simp] theorem Chip.timer1Step_amPos (c : Chip) : (c.timer1Step).amPos = c.amPos := by unfold Chip.timer1Step; dsimp only; split <;> simp
@[simp] theorem Chip.timer1Step_pmPos (c : Chip) : (c.timer1Step).pmPos = c.pmPos := by unfold Chip.timer1Step; dsimp only; split <;> simp
@[simp] theorem Chip.timer1Step_noise (c : Chip) : (c.timer1Step).noise = c.noise := by unfold Chip.timer1Step; dsimp only; split <;> simp
@[simp] theorem Chip.timer1Step_muteMask (c : Chip) : (c.timer1Step).muteMask = c.muteMask := by unfold Chip.timer1Step; dsimp only; split <;> simp
@[simp] theorem Chip.timer1Step_chan (c : Chip) : (c.timer1Step).chan = c.chan := by unfold Chip.timer1Step; dsimp only; split <;> simp
@[simp] theorem Chip.timer1Step_conv (c : Chip) : (c.timer1Step).conv = c.conv := by unfold Chip.timer1Step; dsimp only; split <;> simp
@[simp] theorem Chip.timer1Step_mixOut (c : Chip) : (c.timer1Step).mixOut = c.mixOut := by unfold Chip.timer1Step; dsimp only; split <;> simp

theorem Chip.csmRelease_csmPulse (c : Chip) : c.csmRelease.csmPulse = false := by
  unfold Chip.csmRelease
  split
  · simp
  · simp_all

@[simp] theorem Chip.timer1Step_t1 (c : Chip) : c.timer1Step.t1 = c.t1.step.1 := by
  unfold Chip.timer1Step
  dsimp only
  split <;> simp

theorem Chip.timer1Step_csmPulse (c : Chip) :
    c.timer1Step.csmPulse = ((c.t1.step.2 && c.csm) || c.csmPulse) := by
  unfold Chip.timer1Step
  dsimp only
  split
  · simp_all
  · simp_all

/-! ## Steps 0 to 3 -/

@[simp] theorem Chip.preTick_reg (c : Chip) : (c.preTick).reg = c.reg := by simp [Chip.preTick, Chip.noiseStep, Chip.timerStep, Chip.timer2Step, Chip.lfoStep]
@[simp] theorem Chip.preTick_outTime (c : Chip) : (c.preTick).outTime = c.outTime := by simp [Chip.preTick, Chip.noiseStep, Chip.timerStep, Chip.timer2Step, Chip.lfoStep]
@[simp] theorem Chip.preTick_outStep (c : Chip) : (c.preTick).outStep = c.outStep := by simp [Chip.preTick, Chip.noiseStep, Chip.timerStep, Chip.timer2Step, Chip.lfoStep]
@[simp] theorem Chip.preTick_inpStep (c : Chip) : (c.preTick).inpStep = c.inpStep := by simp [Chip.preTick, Chip.noiseStep, Chip.timerStep, Chip.timer2Step, Chip.lfoStep]
@[simp] theorem Chip.preTick_clockHz (c : Chip) : (c.preTick).clockHz = c.clockHz := by simp [Chip.preTick, Chip.noiseStep, Chip.timerStep, Chip.timer2Step, Chip.lfoStep]
@[simp] theorem Chip.preTick_rateHz (c : Chip) : (c.preTick).rateHz = c.rateHz := by simp [Chip.preTick, Chip.noiseStep, Chip.timerStep, Chip.timer2Step, Chip.lfoStep]
@[simp] theorem Chip.preTick_wse (c : Chip) : (c.preTick).wse = c.wse := by simp [Chip.preTick, Chip.noiseStep, Chip.timerStep, Chip.timer2Step, Chip.lfoStep]
@[simp] theorem Chip.preTick_csm (c : Chip) : (c.preTick).csm = c.csm := by simp [Chip.preTick, Chip.noiseStep, Chip.timerStep, Chip.timer2Step, Chip.lfoStep]
@[simp] theorem Chip.preTick_nts (c : Chip) : (c.preTick).nts = c.nts := by simp [Chip.preTick, Chip.noiseStep, Chip.timerStep, Chip.timer2Step, Chip.lfoStep]
@[simp] theorem Chip.preTick_dam (c : Chip) : (c.preTick).dam = c.dam := by simp [Chip.preTick, Chip.noiseStep, Chip.timerStep, Chip.timer2Step, Chip.lfoStep]
@[simp] theorem Chip.preTick_dvb (c : Chip) : (c.preTick).dvb = c.dvb := by simp [Chip.preTick, Chip.noiseStep, Chip.timerStep, Chip.timer2Step, Chip.lfoStep]
@[simp] theorem Chip.preTick_rhythm (c : Chip) : (c.preTick).rhythm = c.rhythm := by simp [Chip.preTick, Chip.noiseStep, Chip.timerStep, Chip.timer2Step, Chip.lfoStep]
@[simp] theorem Chip.preTick_rkey (c : Chip) : (c.preTick).rkey = c.rkey := by simp [Chip.preTick, Chip.noiseStep, Chip.timerStep, Chip.timer2Step, Chip.lfoStep]
@[simp] theorem Chip.preTick_muteMask (c : Chip) : (c.preTick).muteMask = c.muteMask := by simp [Chip.preTick, Chip.noiseStep, Chip.timerStep, Chip.timer2Step, Chip.lfoStep]
@[simp] theorem Chip.preTick_chan (c : Chip) : (c.preTick).chan = c.chan := by simp [Chip.preTick, Chip.noiseStep, Chip.timerStep, Chip.timer2Step, Chip.lfoStep]
@[simp] theorem Chip.preTick_conv (c : Chip) : (c.preTick).conv = c.conv := by simp [Chip.preTick, Chip.noiseStep, Chip.timerStep, Chip.timer2Step, Chip.lfoStep]
@[simp] theorem Chip.preTick_mixOut (c : Chip) : (c.preTick).mixOut = c.mixOut := by simp [Chip.preTick, Chip.noiseStep, Chip.timerStep, Chip.timer2Step, Chip.lfoStep]

@[simp] theorem Chip.preTick_tick (c : Chip) : c.preTick.tick = c.tick + 1 := by
  simp [Chip.preTick, Chip.noiseStep, Chip.timerStep, Chip.timer2Step, Chip.lfoStep]

@[simp] theorem Chip.preTick_t1 (c : Chip) : c.preTick.t1 = c.t1.step.1 := by
  simp [Chip.preTick, Chip.noiseStep, Chip.timerStep, Chip.timer2Step, Chip.lfoStep]

@[simp] theorem Chip.preTick_t2 (c : Chip) : c.preTick.t2 = c.t2.step.1 := by
  simp [Chip.preTick, Chip.noiseStep, Chip.timerStep, Chip.timer2Step, Chip.lfoStep]

/-- The LFO positions and the noise register move as their rules say, whatever the keys do (R166, R169, R278). -/
theorem Chip.preTick_lfo (c : Chip) :
    c.preTick.amPos = c.lfoStep.amPos ∧ c.preTick.pmPos = c.lfoStep.pmPos
      ∧ c.preTick.noise = (c.noise >>> 1) ||| (((c.noise ^^^ (c.noise >>> 14)) &&& 1) <<< 22) := by
  simp [Chip.preTick, Chip.noiseStep, Chip.timerStep, Chip.timer2Step, Chip.lfoStep]

@[simp] theorem Chip.preTick_chanFor (c : Chip) (i : SlotId) : c.preTick.chanFor i = c.chanFor i := by
  simp [Chip.chanFor, Chip.chanAt]

/-- The pulse of the tick: an overflow of timer 1 under `csm` (R374). -/
theorem Chip.preTick_csmPulse (c : Chip) : c.preTick.csmPulse = (c.t1.step.2 && c.csm) := by
  simp [Chip.preTick, Chip.noiseStep, Chip.timerStep, Chip.timer2Step, Chip.lfoStep, Chip.timer1Step_csmPulse,
    Chip.csmRelease_csmPulse]

theorem Chip.timer1Step_of_no_pulse {c : Chip} (h : (c.t1.step.2 && c.csm) = false) :
    c.timer1Step = { c with t1 := c.t1.step.1 } := by
  unfold Chip.timer1Step
  exact if_neg (by simp [h])

theorem Chip.csmRelease_of_no_pulse {c : Chip} (h : c.csmPulse = false) : c.csmRelease = c := by
  unfold Chip.csmRelease
  exact if_neg (by simp [h])

/-- No key edge: the pulse neither ends nor starts. -/
theorem Chip.no_pulse_of_quiet {c : Chip} (h : c.quiet) : (c.t1.step.2 && c.csm) = false := by
  cases h4 : c.t1.step.2 <;> cases h5 : c.csm <;> simp
  exact h.2 ⟨(Chip.timer1Overflows_iff c).1 h4, h5⟩

/-- Steps 2 and 3 of a tick without a key pulse to end or to start. -/
theorem Chip.timers_of_quiet {c : Chip} (h1 : c.csmPulse = false) (h2 : (c.t1.step.2 && c.csm) = false) :
    c.csmRelease.timerStep.noiseStep
      = { c with t1 := c.t1.step.1, t2 := c.t2.step.1, noise := c.noiseStep.noise } := by
  unfold Chip.timerStep
  rw [Chip.csmRelease_of_no_pulse h1, Chip.timer1Step_of_no_pulse h2]
  rfl

theorem Chip.lfoStep_t1 (c : Chip) : c.lfoStep.t1 = c.t1 := rfl
theorem Chip.lfoStep_t2 (c : Chip) : c.lfoStep.t2 = c.t2 := rfl
theorem Chip.lfoStep_csm (c : Chip) : c.lfoStep.csm = c.csm := rfl
theorem Chip.lfoStep_csmPulse (c : Chip) : c.lfoStep.csmPulse = c.csmPulse := rfl
theorem Chip.slotAt_lfoStep (c : Chip) (i : SlotId) : c.lfoStep.slotAt i = c.slotAt i := rfl

/-- The slots of an instance are its `slot` field alone. -/
theorem Chip.slotAt_update (c : Chip) (t1 : Timer 2) (t2 : Timer 4) (n : BitVec 23) (i : SlotId) :
    Chip.slotAt { c with t1 := t1, t2 := t2, noise := n } i = c.slotAt i := rfl

/-- Without a key pulse to end or to start, steps 0 to 3 fire no key edge. -/
theorem Chip.preTick_of_quiet {c : Chip} (h : c.quiet) :
    c.preTick = { c.commit.lfoStep with
      t1 := c.t1.step.1, t2 := c.t2.step.1, noise := c.commit.lfoStep.noiseStep.noise } := by
  have h1 : c.commit.lfoStep.t1 = c.t1 := (Chip.lfoStep_t1 _).trans (Chip.commit_t1 c)
  have h2 : c.commit.lfoStep.t2 = c.t2 := (Chip.lfoStep_t2 _).trans (Chip.commit_t2 c)
  have h3 : c.commit.lfoStep.csm = c.csm := (Chip.lfoStep_csm _).trans (Chip.commit_csm c)
  have h4 : c.commit.lfoStep.csmPulse = c.csmPulse := (Chip.lfoStep_csmPulse _).trans (Chip.commit_csmPulse c)
  have h5 := Chip.timers_of_quiet (c := c.commit.lfoStep) (h4.trans h.1) (by rw [h1, h3]; exact Chip.no_pulse_of_quiet h)
  rw [h1, h2] at h5
  exact h5

/-- Without a key edge a slot is only committed in steps 0 to 3. -/
theorem Chip.slotAt_preTick_of_quiet {c : Chip} (h : c.quiet) (i : SlotId) :
    c.preTick.slotAt i = commitSlot c.nts (c.chanFor i) (c.slotAt i) := by
  rw [Chip.preTick_of_quiet h, Chip.slotAt_update, Chip.slotAt_lfoStep, Chip.slotAt_commit]

/-! ## Step 4 -/

@[simp] theorem Chip.slotsTick_reg (c : Chip) : (c.slotsTick).reg = c.reg := by simp only [Chip.slotsTick, Chip.mapSlots]
@[simp] theorem Chip.slotsTick_tick (c : Chip) : (c.slotsTick).tick = c.tick := by simp only [Chip.slotsTick, Chip.mapSlots]
@[simp] theorem Chip.slotsTick_outTime (c : Chip) : (c.slotsTick).outTime = c.outTime := by simp only [Chip.slotsTick, Chip.mapSlots]
@[simp] theorem Chip.slotsTick_outStep (c : Chip) : (c.slotsTick).outStep = c.outStep := by simp only [Chip.slotsTick, Chip.mapSlots]
@[simp] theorem Chip.slotsTick_inpStep (c : Chip) : (c.slotsTick).inpStep = c.inpStep := by simp only [Chip.slotsTick, Chip.mapSlots]
@[simp] theorem Chip.slotsTick_clockHz (c : Chip) : (c.slotsTick).clockHz = c.clockHz := by simp only [Chip.slotsTick, Chip.mapSlots]
@[simp] theorem Chip.slotsTick_rateHz (c : Chip) : (c.slotsTick).rateHz = c.rateHz := by simp only [Chip.slotsTick, Chip.mapSlots]
@[simp] theorem Chip.slotsTick_wse (c : Chip) : (c.slotsTick).wse = c.wse := by simp only [Chip.slotsTick, Chip.mapSlots]
@[simp] theorem Chip.slotsTick_csm (c : Chip) : (c.slotsTick).csm = c.csm := by simp only [Chip.slotsTick, Chip.mapSlots]
@[simp] theorem Chip.slotsTick_nts (c : Chip) : (c.slotsTick).nts = c.nts := by simp only [Chip.slotsTick, Chip.mapSlots]
@[simp] theorem Chip.slotsTick_dam (c : Chip) : (c.slotsTick).dam = c.dam := by simp only [Chip.slotsTick, Chip.mapSlots]
@[simp] theorem Chip.slotsTick_dvb (c : Chip) : (c.slotsTick).dvb = c.dvb := by simp only [Chip.slotsTick, Chip.mapSlots]
@[simp] theorem Chip.slotsTick_rhythm (c : Chip) : (c.slotsTick).rhythm = c.rhythm := by simp only [Chip.slotsTick, Chip.mapSlots]
@[simp] theorem Chip.slotsTick_rkey (c : Chip) : (c.slotsTick).rkey = c.rkey := by simp only [Chip.slotsTick, Chip.mapSlots]
@[simp] theorem Chip.slotsTick_t1 (c : Chip) : (c.slotsTick).t1 = c.t1 := by simp only [Chip.slotsTick, Chip.mapSlots]
@[simp] theorem Chip.slotsTick_t2 (c : Chip) : (c.slotsTick).t2 = c.t2 := by simp only [Chip.slotsTick, Chip.mapSlots]
@[simp] theorem Chip.slotsTick_csmPulse (c : Chip) : (c.slotsTick).csmPulse = c.csmPulse := by simp only [Chip.slotsTick, Chip.mapSlots]
@[simp] theorem Chip.slotsTick_amPos (c : Chip) : (c.slotsTick).amPos = c.amPos := by simp only [Chip.slotsTick, Chip.mapSlots]
@[simp] theorem Chip.slotsTick_pmPos (c : Chip) : (c.slotsTick).pmPos = c.pmPos := by simp only [Chip.slotsTick, Chip.mapSlots]
@[simp] theorem Chip.slotsTick_noise (c : Chip) : (c.slotsTick).noise = c.noise := by simp only [Chip.slotsTick, Chip.mapSlots]
@[simp] theorem Chip.slotsTick_keyMask (c : Chip) : (c.slotsTick).keyMask = c.keyMask := by simp only [Chip.slotsTick, Chip.mapSlots]
@[simp] theorem Chip.slotsTick_muteMask (c : Chip) : (c.slotsTick).muteMask = c.muteMask := by simp only [Chip.slotsTick, Chip.mapSlots]
@[simp] theorem Chip.slotsTick_chan (c : Chip) : (c.slotsTick).chan = c.chan := by simp only [Chip.slotsTick, Chip.mapSlots]
@[simp] theorem Chip.slotsTick_conv (c : Chip) : (c.slotsTick).conv = c.conv := by simp only [Chip.slotsTick, Chip.mapSlots]
@[simp] theorem Chip.slotsTick_mixOut (c : Chip) : (c.slotsTick).mixOut = c.mixOut := by simp only [Chip.slotsTick, Chip.mapSlots]

@[simp] theorem Chip.slotAt_slotsTick (c : Chip) (i : SlotId) : c.slotsTick.slotAt i = c.slotTick i (c.slotAt i) := by
  simp [Chip.slotsTick]

@[simp] theorem Chip.atOutputs_reg (c : Chip) : (c.atOutputs).reg = c.reg := by simp [Chip.atOutputs]
@[simp] theorem Chip.atOutputs_outTime (c : Chip) : (c.atOutputs).outTime = c.outTime := by simp [Chip.atOutputs]
@[simp] theorem Chip.atOutputs_outStep (c : Chip) : (c.atOutputs).outStep = c.outStep := by simp [Chip.atOutputs]
@[simp] theorem Chip.atOutputs_inpStep (c : Chip) : (c.atOutputs).inpStep = c.inpStep := by simp [Chip.atOutputs]
@[simp] theorem Chip.atOutputs_clockHz (c : Chip) : (c.atOutputs).clockHz = c.clockHz := by simp [Chip.atOutputs]
@[simp] theorem Chip.atOutputs_rateHz (c : Chip) : (c.atOutputs).rateHz = c.rateHz := by simp [Chip.atOutputs]
@[simp] theorem Chip.atOutputs_wse (c : Chip) : (c.atOutputs).wse = c.wse := by simp [Chip.atOutputs]
@[simp] theorem Chip.atOutputs_csm (c : Chip) : (c.atOutputs).csm = c.csm := by simp [Chip.atOutputs]
@[simp] theorem Chip.atOutputs_nts (c : Chip) : (c.atOutputs).nts = c.nts := by simp [Chip.atOutputs]
@[simp] theorem Chip.atOutputs_dam (c : Chip) : (c.atOutputs).dam = c.dam := by simp [Chip.atOutputs]
@[simp] theorem Chip.atOutputs_dvb (c : Chip) : (c.atOutputs).dvb = c.dvb := by simp [Chip.atOutputs]
@[simp] theorem Chip.atOutputs_rhythm (c : Chip) : (c.atOutputs).rhythm = c.rhythm := by simp [Chip.atOutputs]
@[simp] theorem Chip.atOutputs_rkey (c : Chip) : (c.atOutputs).rkey = c.rkey := by simp [Chip.atOutputs]
@[simp] theorem Chip.atOutputs_muteMask (c : Chip) : (c.atOutputs).muteMask = c.muteMask := by simp [Chip.atOutputs]
@[simp] theorem Chip.atOutputs_chan (c : Chip) : (c.atOutputs).chan = c.chan := by simp [Chip.atOutputs]
@[simp] theorem Chip.atOutputs_conv (c : Chip) : (c.atOutputs).conv = c.conv := by simp [Chip.atOutputs]
@[simp] theorem Chip.atOutputs_mixOut (c : Chip) : (c.atOutputs).mixOut = c.mixOut := by simp [Chip.atOutputs]

@[simp] theorem Chip.atOutputs_chanFor (c : Chip) (i : SlotId) : c.atOutputs.chanFor i = c.chanFor i := by
  simp [Chip.chanFor, Chip.chanAt]

theorem Chip.slotAt_atOutputs (c : Chip) (i : SlotId) :
    c.atOutputs.slotAt i = c.preTick.slotTick i (c.preTick.slotAt i) := by
  simp [Chip.atOutputs]

/-! ## The whole tick -/

@[simp] theorem Chip.tick1_reg (c : Chip) : (c.tick1).reg = c.reg := by simp [Chip.tick1, Chip.outputTick, Chip.shiftHistory]
@[simp] theorem Chip.tick1_outTime (c : Chip) : (c.tick1).outTime = c.outTime := by simp [Chip.tick1, Chip.outputTick, Chip.shiftHistory]
@[simp] theorem Chip.tick1_outStep (c : Chip) : (c.tick1).outStep = c.outStep := by simp [Chip.tick1, Chip.outputTick, Chip.shiftHistory]
@[simp] theorem Chip.tick1_inpStep (c : Chip) : (c.tick1).inpStep = c.inpStep := by simp [Chip.tick1, Chip.outputTick, Chip.shiftHistory]
@[simp] theorem Chip.tick1_clockHz (c : Chip) : (c.tick1).clockHz = c.clockHz := by simp [Chip.tick1, Chip.outputTick, Chip.shiftHistory]
@[simp] theorem Chip.tick1_rateHz (c : Chip) : (c.tick1).rateHz = c.rateHz := by simp [Chip.tick1, Chip.outputTick, Chip.shiftHistory]
@[simp] theorem Chip.tick1_wse (c : Chip) : (c.tick1).wse = c.wse := by simp [Chip.tick1, Chip.outputTick, Chip.shiftHistory]
@[simp] theorem Chip.tick1_csm (c : Chip) : (c.tick1).csm = c.csm := by simp [Chip.tick1, Chip.outputTick, Chip.shiftHistory]
@[simp] theorem Chip.tick1_nts (c : Chip) : (c.tick1).nts = c.nts := by simp [Chip.tick1, Chip.outputTick, Chip.shiftHistory]
@[simp] theorem Chip.tick1_dam (c : Chip) : (c.tick1).dam = c.dam := by simp [Chip.tick1, Chip.outputTick, Chip.shiftHistory]
@[simp] theorem Chip.tick1_dvb (c : Chip) : (c.tick1).dvb = c.dvb := by simp [Chip.tick1, Chip.outputTick, Chip.shiftHistory]
@[simp] theorem Chip.tick1_rhythm (c : Chip) : (c.tick1).rhythm = c.rhythm := by simp [Chip.tick1, Chip.outputTick, Chip.shiftHistory]
@[simp] theorem Chip.tick1_rkey (c : Chip) : (c.tick1).rkey = c.rkey := by simp [Chip.tick1, Chip.outputTick, Chip.shiftHistory]
@[simp] theorem Chip.tick1_muteMask (c : Chip) : (c.tick1).muteMask = c.muteMask := by simp [Chip.tick1, Chip.outputTick, Chip.shiftHistory]
@[simp] theorem Chip.tick1_chan (c : Chip) : (c.tick1).chan = c.chan := by simp [Chip.tick1, Chip.outputTick, Chip.shiftHistory]
@[simp] theorem Chip.tick1_conv (c : Chip) : (c.tick1).conv = c.conv := by simp [Chip.tick1, Chip.outputTick, Chip.shiftHistory]

@[simp] theorem Chip.tick1_tick (c : Chip) : c.tick1.tick = c.tick + 1 := by
  simp [Chip.tick1, Chip.outputTick, Chip.shiftHistory]

theorem Chip.tick1_eq_preTick (c : Chip) :
    c.tick1.amPos = c.preTick.amPos ∧ c.tick1.pmPos = c.preTick.pmPos ∧ c.tick1.noise = c.preTick.noise
      ∧ c.tick1.t1 = c.preTick.t1 ∧ c.tick1.t2 = c.preTick.t2 ∧ c.tick1.csmPulse = c.preTick.csmPulse
      ∧ c.tick1.keyMask = c.preTick.keyMask := by
  simp [Chip.tick1, Chip.outputTick, Chip.shiftHistory]

@[simp] theorem Chip.tick1_mixOut (c : Chip) : c.tick1.mixOut = c.atOutputs.mix := by simp only [Chip.tick1, Chip.outputTick]

@[simp] theorem Chip.tick1_chanFor (c : Chip) (i : SlotId) : c.tick1.chanFor i = c.chanFor i := by
  simp [Chip.chanFor, Chip.chanAt]

theorem Chip.slotAt_withMix (c : Chip) (x : Sample) (i : SlotId) :
    Chip.slotAt { c with mixOut := x } i = c.slotAt i := rfl

/-- Steps 5 to 7 for one slot: its history shifts (R264). -/
theorem Chip.slotAt_outputTick (c : Chip) (i : SlotId) :
    c.outputTick.slotAt i = { c.slotAt i with out2 := (c.slotAt i).out1, out1 := c.slotOutput i } :=
  (Chip.slotAt_withMix _ _ i).trans (Chip.slotAt_mapSlots c _ i)

/-- A slot after a tick: as step 4 left it, its history shifted (R264). -/
theorem Chip.slotAt_tick1 (c : Chip) (i : SlotId) :
    c.tick1.slotAt i = { c.atOutputs.slotAt i with
      out2 := (c.atOutputs.slotAt i).out1, out1 := c.atOutputs.slotOutput i } :=
  Chip.slotAt_outputTick c.atOutputs i

/-! ## Renders (R290) -/

theorem render_length (n : Nat) : ∀ c : Chip, (render n c).1.length = n := by
  induction n with
  | zero => intro c; rfl
  | succ n ih => intro c; simp [render, ih]

end Sys2Proof.Machine
end

