-- ==== Sys2Proof/Laws/Batch.lean ====
section
/-!
SUPPORT. A tick seen slot by slot and chip-wide, as the batch renderer computes it (R300).
-/

namespace Sys2Proof.Machine

theorem Chip.keyEdge_congr {c d : Chip} (h1 : c.chan = d.chan) (h2 : c.csmPulse = d.csmPulse)
    (h3 : c.rhythm = d.rhythm) (h4 : c.rkey = d.rkey) (h5 : c.keyMask = d.keyMask) (h6 : c.nts = d.nts)
    (i : SlotId) (sl : Slot) : c.keyEdge i sl = d.keyEdge i sl := by
  rw [Chip.keyEdge_eq, Chip.keyEdge_eq, Chip.wantsKey_congr h1 h2 h3 h4, h5, h6]
  simp [Chip.chanFor, Chip.chanAt, h1]

/-- The end of a pulse, for one slot. -/
theorem Chip.slotAt_csmRelease (c : Chip) (i : SlotId) :
    c.csmRelease.slotAt i
      = if c.csmPulse then Chip.keyEdge { c with csmPulse := false } i (c.slotAt i) else c.slotAt i := by
  unfold Chip.csmRelease
  split
  · rw [Chip.slotAt_updateKeys]
    rfl
  · rfl

theorem Chip.csmRelease_keyMask (c : Chip) :
    c.csmRelease.keyMask = if c.csmPulse then Chip.wantMask { c with csmPulse := false } else c.keyMask := by
  unfold Chip.csmRelease
  split <;> simp

/-- The start of a pulse, for one slot. -/
theorem Chip.slotAt_timer1Step (c : Chip) (i : SlotId) :
    c.timer1Step.slotAt i
      = if (c.t1.step.2 && c.csm) = true then Chip.keyEdge { c with csmPulse := true } i (c.slotAt i) else c.slotAt i := by
  unfold Chip.timer1Step
  dsimp only
  split
  · rw [Chip.slotAt_updateKeys]
    rfl
  · rfl

theorem Chip.slotAt_noiseStep (c : Chip) (i : SlotId) : c.noiseStep.slotAt i = c.slotAt i := rfl
theorem Chip.slotAt_timer2Step (c : Chip) (i : SlotId) : c.timer2Step.slotAt i = c.slotAt i := rfl

/-- Key edges of steps 0 to 3 for a chip whose counters have moved already. -/
theorem Chip.slotAt_control_aux (c : Chip) (i : SlotId) :
    c.csmRelease.timerStep.noiseStep.slotAt i = c.slotEdges i (c.slotAt i) := by
  rw [Chip.slotAt_noiseStep, Chip.timerStep, Chip.slotAt_timer2Step, Chip.slotAt_timer1Step, Chip.slotAt_csmRelease]
  rfl

/-- The LFO step and the commit change nothing a key edge reads. -/
theorem Chip.slotEdges_congr {c d : Chip} (h1 : c.chan = d.chan) (h2 : c.csmPulse = d.csmPulse)
    (h3 : c.rhythm = d.rhythm) (h4 : c.rkey = d.rkey) (h5 : c.keyMask = d.keyMask) (h6 : c.nts = d.nts)
    (h7 : c.t1 = d.t1) (h8 : c.csm = d.csm) (i : SlotId) (sl : Slot) : c.slotEdges i sl = d.slotEdges i sl := by
  have hk : c.csmRelease.keyMask = d.csmRelease.keyMask := by
    rw [Chip.csmRelease_keyMask, Chip.csmRelease_keyMask, h2, h5]
    split
    · exact Chip.wantMask_congr h1 rfl h3 h4
    · rfl
  have ha (sl : Slot) : Chip.keyEdge { c with csmPulse := false } i sl = Chip.keyEdge { d with csmPulse := false } i sl :=
    Chip.keyEdge_congr (c := { c with csmPulse := false }) (d := { d with csmPulse := false }) h1 rfl h3 h4 h5 h6 i sl
  have hb (sl : Slot) : Chip.keyEdge { c.csmRelease with csmPulse := true } i sl
      = Chip.keyEdge { d.csmRelease with csmPulse := true } i sl :=
    Chip.keyEdge_congr (c := { c.csmRelease with csmPulse := true }) (d := { d.csmRelease with csmPulse := true })
      (by simpa using h1) rfl (by simpa using h3) (by simpa using h4) hk (by simpa using h6) i sl
  have ht : (c.csmRelease.t1.step.2 && c.csmRelease.csm) = (d.csmRelease.t1.step.2 && d.csmRelease.csm) := by
    simp [h7, h8]
  unfold Chip.slotEdges
  dsimp only
  rw [ht, h2, ha, hb]

theorem Chip.slotEdges_lfoStep (c : Chip) (i : SlotId) (sl : Slot) : c.lfoStep.slotEdges i sl = c.slotEdges i sl :=
  Chip.slotEdges_congr (c := c.lfoStep) (d := c) rfl rfl rfl rfl rfl rfl rfl rfl i sl

/-- A slot when step 4 of a tick begins: committed, then its key edges (R291, R374). -/
theorem Chip.slotAt_preTick (c : Chip) (i : SlotId) :
    c.preTick.slotAt i = c.slotEdges i (commitSlot c.nts (c.chanFor i) (c.slotAt i)) := by
  have h := Chip.slotAt_control_aux c.commit.lfoStep i
  rw [Chip.slotAt_lfoStep, Chip.slotAt_commit] at h
  unfold Chip.preTick
  rw [h, Chip.slotEdges_lfoStep]
  exact Chip.slotEdges_congr (Chip.commit_chan c) (Chip.commit_csmPulse c) (Chip.commit_rhythm c)
    (Chip.commit_rkey c) (Chip.commit_keyMask c) (Chip.commit_nts c) (Chip.commit_t1 c) (Chip.commit_csm c) i _

/-- A tick without a pulse to end or to start has no key edge. -/
theorem Chip.slotEdges_of_no_edge {c : Chip} (h : c.hasEdge = false) (i : SlotId) (sl : Slot) :
    c.slotEdges i sl = sl := by
  unfold Chip.hasEdge at h
  rw [Bool.or_eq_false_iff] at h
  unfold Chip.slotEdges
  dsimp only
  rw [Chip.csmRelease_of_no_pulse h.1, h.1, h.2]
  simp

end Sys2Proof.Machine
end

