-- ==== Sys2Proof/Laws/Cache.lean ====
section
/-!
SUPPORT. The waveform selector and total level a tick's outputs use are those of the patch fields, from every
coherent instance (R42, R231, R234).
-/

namespace Sys2Proof.Machine

/-- The selector and total level of a slot are those of its fields, and not flagged. -/
def Slot.cacheShown (ch : Channel) (sl : Slot) : Prop :=
  sl.wave = sl.ws ∧ sl.tll = tllOf ch sl.tl sl.kl ∧ sl.dirty.wave = false ∧ sl.dirty.tll = false

/-- A coherent slot after a commit (R42). -/
theorem Slot.cacheShown_commit {nts ch sl} (h : Slot.cacheOk nts ch sl) : Slot.cacheShown ch (commitSlot nts ch sl) := by
  obtain ⟨h1,h2,h3,h4⟩ := h
  refine ⟨?_,?_,rfl,rfl⟩ <;> simp only [commitSlot]
  · split <;> rename_i hh
    · rfl
    · exact h1 (by simpa using hh)
  · split <;> rename_i hh
    · rfl
    · exact h2 (by simpa using hh)

theorem Slot.cacheShown_recommit {nts ch sl} (h : Slot.cacheShown ch sl) : Slot.cacheShown ch (commitSlot nts ch sl) := by
  obtain ⟨h1,h2,h3,h4⟩ := h
  refine ⟨?_,?_,rfl,rfl⟩ <;> simp [commitSlot, h3, h4, h1, h2]

theorem Slot.cacheShown_markRate {ch sl} (h : Slot.cacheShown ch sl) : Slot.cacheShown ch (sl.markDirty Dirty.forRate) := by
  obtain ⟨h1,h2,h3,h4⟩ := h
  exact ⟨h1,h2,by simp [Slot.markDirty, Dirty.or, Dirty.forRate, h3],by simp [Slot.markDirty, Dirty.or, Dirty.forRate, h4]⟩

theorem Slot.cacheShown_slotOn {nts ch sl} (h : Slot.cacheShown ch sl) : Slot.cacheShown ch (slotOn nts ch sl) := by
  unfold slotOn
  apply Slot.cacheShown_markRate
  have := Slot.cacheShown_recommit (nts := nts) h
  dsimp only
  split <;> exact this

theorem Slot.cacheShown_slotOff {ch sl} (h : Slot.cacheShown ch sl) : Slot.cacheShown ch (slotOff sl) := by
  unfold slotOff
  exact Slot.cacheShown_markRate (sl := { sl with egState := .release }) h

/-- A key edge touches neither (R205, R206). -/
theorem Chip.cacheShown_keyEdge (c : Chip) (i : SlotId) {sl} (h : Slot.cacheShown (c.chanFor i) sl) : Slot.cacheShown (c.chanFor i) (c.keyEdge i sl) := by
  unfold Chip.keyEdge
  split
  · exact Slot.cacheShown_slotOn h
  · exact Slot.cacheShown_slotOff h
  · exact h
  · exact h

/-- The key edges of a tick touch neither (R374). -/
theorem Chip.cacheShown_slotEdges (c : Chip) (i : SlotId) {sl} (h : Slot.cacheShown (c.chanFor i) sl) : Slot.cacheShown (c.chanFor i) (c.slotEdges i sl) := by
  unfold Chip.slotEdges
  dsimp only
  have hr : c.csmRelease.chan = c.chan := by simp
  have hc : ∀ p : Bool, Chip.chanFor { c.csmRelease with csmPulse := p } i = c.chanFor i := fun p =>
    Chip.chanAt_congr (c := { c.csmRelease with csmPulse := p }) (d := c) hr _
  have h1 : Slot.cacheShown (c.chanFor i) (if c.csmPulse = true then Chip.keyEdge { c with csmPulse := false } i sl else sl) := by
    split
    · exact Chip.cacheShown_keyEdge { c with csmPulse := false } i h
    · exact h
  split
  · have := Chip.cacheShown_keyEdge { c.csmRelease with csmPulse := true } i (sl := (if c.csmPulse = true then Chip.keyEdge { c with csmPulse := false } i sl else sl)) (by rw [hc]; exact h1)
    rwa [hc] at this
  · exact h1

theorem Slot.cacheShown_enter {ch sl} (st : EgState) (h : Slot.cacheShown ch sl) : Slot.cacheShown ch (sl.enter st) := by
  unfold Slot.enter
  split
  · exact h
  · exact Slot.cacheShown_markRate (sl := { sl with egState := st }) h

/-- An envelope step touches neither. -/
theorem Slot.cacheShown_egStep {ch sl} (t : BitVec 16) (h : Slot.cacheShown ch sl) : Slot.cacheShown ch (sl.egStep t) := by
  unfold Slot.egStep
  dsimp only
  exact Slot.cacheShown_enter (sl := { sl with egOut := _ }) _ h

/-- Every slot of a coherent instance when step 4 of a tick begins. -/
theorem Chip.cacheShown_preTick (c : Chip) (h : c.cacheOk) (i : SlotId) : Slot.cacheShown (c.chanFor i) (c.preTick.slotAt i) := by
  rw [Chip.slotAt_preTick]
  exact Chip.cacheShown_slotEdges c i (Slot.cacheShown_commit (h i))

/-- Every slot of a coherent instance when step 5 of a tick begins: the outputs use the patch fields. -/
theorem Chip.cacheShown_atOutputs (c : Chip) (h : c.cacheOk) (i : SlotId) : Slot.cacheShown (c.chanFor i) (c.atOutputs.slotAt i) := by
  rw [Chip.slotAt_atOutputs]
  have := Chip.cacheShown_preTick c h i
  have hc : c.preTick.chanFor i = c.chanFor i := by simp [Chip.chanFor, Chip.chanAt]
  unfold Chip.slotTick
  dsimp only
  rw [hc]
  have h1 := Slot.cacheShown_recommit (nts := c.preTick.nts) this
  have h2 := Slot.cacheShown_egStep c.preTick.tick h1
  have h3 := Slot.cacheShown_recommit (nts := c.preTick.nts) h2
  exact h3

end Sys2Proof.Machine
end

