-- ==== Sys2Proof/Laws/Encode.lean ====
section
/-!
SUPPORT. The bits of command words (R80, R81), and what the decoder reads in them.
-/

namespace Sys2Proof

theorem getLsbD_commandWord (code : Byte) (o : BitVec 24) (i : Nat) :
    (commandWord code o).getLsbD i = if i < 24 then o.getLsbD i else code.getLsbD (i - 24) :=
  BitVec.getLsbD_append

theorem getLsbD_writeWord (a v : Byte) (i : Nat) :
    (writeWord a v).getLsbD i
      = if i < 8 then v.getLsbD i else if i < 16 then a.getLsbD (i - 8) else (1#8).getLsbD (i - 24) && decide (24 ≤ i) := by
  have h1 : (0#8 ++ (a ++ v) : BitVec (8 + (8 + 8))).getLsbD i
      = if i < 16 then (a ++ v : BitVec (8 + 8)).getLsbD i else (0#8).getLsbD (i - 16) := BitVec.getLsbD_append
  have h2 : (a ++ v : BitVec (8 + 8)).getLsbD i = if i < 8 then v.getLsbD i else a.getLsbD (i - 8) :=
    BitVec.getLsbD_append
  have h := getLsbD_commandWord 1#8 (0#8 ++ (a ++ v)) i
  rw [show writeWord a v = commandWord 1#8 (0#8 ++ (a ++ v)) from rfl, h, h1, h2]
  by_cases h8 : i < 8
  · simp [h8, show i < 24 by omega, show i < 16 by omega]
  · by_cases h16 : i < 16
    · simp [h8, h16, show i < 24 by omega]
    · by_cases h24 : i < 24
      · simp [h8, h16, h24]
      · simp [h8, h16, h24, show 24 ≤ i by omega]

@[simp] theorem commandWord_code (code : Byte) (o : BitVec 24) : (commandWord code o).extractLsb' 24 8 = code := by
  apply BitVec.eq_of_getLsbD_eq
  intro i hi
  simp [getLsbD_commandWord, hi]

@[simp] theorem commandWord_operand (code : Byte) (o : BitVec 24) : (commandWord code o).extractLsb' 0 24 = o := by
  apply BitVec.eq_of_getLsbD_eq
  intro i hi
  simp [getLsbD_commandWord, hi]

@[simp] theorem writeWord_code (a v : Byte) : (writeWord a v).extractLsb' 24 8 = 0x01 := by
  apply BitVec.eq_of_getLsbD_eq
  intro i hi
  simp [getLsbD_writeWord, hi, show ¬ 24 + i < 16 by omega, show ¬ 24 + i < 8 by omega]

@[simp] theorem writeWord_zero (a v : Byte) : (writeWord a v).extractLsb' 16 8 = 0 := by
  apply BitVec.eq_of_getLsbD_eq
  intro i hi
  simp [getLsbD_writeWord, hi, show ¬ 16 + i < 8 by omega, show ¬ 24 ≤ 16 + i by omega]

@[simp] theorem writeWord_addr (a v : Byte) : (writeWord a v).extractLsb' 8 8 = a := by
  apply BitVec.eq_of_getLsbD_eq
  intro i hi
  simp [getLsbD_writeWord, hi, show 8 + i < 16 by omega]

@[simp] theorem writeWord_value (a v : Byte) : (writeWord a v).extractLsb' 0 8 = v := by
  apply BitVec.eq_of_getLsbD_eq
  intro i hi
  simp [getLsbD_writeWord, hi]

/-- A register write decodes by the dispatch of R89 on its address and value. -/
@[simp] theorem decode_writeWord (a v : Byte) : decode (writeWord a v) = some (decodeWrite a v) := by
  simp [decode]

/-- A word is its code and its operand. -/
theorem commandWord_of_fields (w : Word) : commandWord (w.extractLsb' 24 8) (w.extractLsb' 0 24) = w := by
  apply BitVec.eq_of_getLsbD_eq
  intro i hi
  rw [getLsbD_commandWord]
  by_cases h : i < 24
  · simp [h]
  · simp [h, show i - 24 < 8 by omega, show 24 + (i - 24) = i by omega]

/-- A word with code 0x01 and zero bits 23..16 is a register write. -/
theorem writeWord_of_fields {w : Word} (h1 : w.extractLsb' 24 8 = 0x01) (h2 : w.extractLsb' 16 8 = 0) :
    writeWord (w.extractLsb' 8 8) (w.extractLsb' 0 8) = w := by
  apply BitVec.eq_of_getLsbD_eq
  intro i hi
  rw [getLsbD_writeWord]
  by_cases h8 : i < 8
  · simp [h8]
  by_cases h16 : i < 16
  · simp [h8, h16, show i - 8 < 8 by omega, show 8 + (i - 8) = i by omega]
  by_cases h24 : i < 24
  · have := congrArg (·.getLsbD (i - 16)) h2
    simp only [BitVec.getLsbD_extractLsb', show 16 + (i - 16) = i by omega] at this
    simp [show i - 16 < 8 by omega] at this
    simp [h8, h16, show ¬ 24 ≤ i by omega, this]
  · have := congrArg (·.getLsbD (i - 24)) h1
    simp only [BitVec.getLsbD_extractLsb', show 24 + (i - 24) = i by omega] at this
    simp [show i - 24 < 8 by omega] at this
    simp [h8, h16, show 24 ≤ i by omega, this]

/-! ## Slots and channels (R82 to R85, R92) -/

@[simp] theorem slotOf_offsetOf (s : SlotId) : slotOf (BitVec.ofNat 5 (offsetOf s)) = some s := by
  revert s; decide

/-- A channel address names its channel (R83). -/
theorem chanOf_chanAddr (c : ChanId) :
    chanOf (chanAddr 0xA0 c) = some c ∧ chanOf (chanAddr 0xB0 c) = some c ∧ chanOf (chanAddr 0xC0 c) = some c := by
  revert c; decide

/-- The dispatch of a slot group write (R89). -/
theorem decodeWrite_slot (s : SlotId) (v : Byte) :
    decodeWrite (slotAddr 0x20 s) v = .amVib s v ∧ decodeWrite (slotAddr 0x40 s) v = .kslTl s v
      ∧ decodeWrite (slotAddr 0x60 s) v = .arDr s v ∧ decodeWrite (slotAddr 0x80 s) v = .slRr s v
      ∧ decodeWrite (slotAddr 0xE0 s) v = .ws s v := by
  fin_cases s <;> simp [decodeWrite, slotAddr, offsetOf, slotWrite, slotOf]

/-- The dispatch of a channel group write (R89). -/
theorem decodeWrite_chan (c : ChanId) (v : Byte) :
    decodeWrite (chanAddr 0xA0 c) v = .fnumLo c v ∧ decodeWrite (chanAddr 0xB0 c) v = .keyBlock c v
      ∧ decodeWrite (chanAddr 0xC0 c) v = .fbAlg c v := by
  fin_cases c <;> simp [decodeWrite, chanAddr, chanWrite, chanOf]

end Sys2Proof
end

