-- ==== Sys2Proof/Laws/Envelope.lean ====
section
/-!
SUPPORT. The envelope generator (42_envelope.md): the rate key scale as arithmetic, one envelope step
field by field, and the slot a tick leaves.
-/

namespace Sys2Proof.Machine

/-- `rks` as arithmetic (R191). -/
theorem rksOf_eq (nts : Bool) (ch : Channel) (kr : Bool) :
    rksOf nts ch kr =
      if kr then ch.block.toNat * 2 + (if (if nts then ch.fnum.getLsbD 8 else ch.fnum.getLsbD 9) then 1 else 0)
      else (ch.block.toNat * 2 + (if (if nts then ch.fnum.getLsbD 8 else ch.fnum.getLsbD 9) then 1 else 0)) / 4 := by
  have h : ∀ (n : Nat) (b : Bool), (n <<< 1) ||| b.toNat = n * 2 + if b then 1 else 0 := by
    intro n b
    have h2 : b.toNat < 2 ^ 1 := by cases b <;> decide
    rw [← Nat.shiftLeft_add_eq_or_of_lt h2, Nat.shiftLeft_eq]
    cases b <;> rfl
  unfold rksOf
  dsimp only
  rw [h]
  cases nts <;> simp [Nat.shiftRight_eq_div_pow]

/-- `rks` is at most 15 (R191). -/
theorem rksOf_le (nts : Bool) (ch : Channel) (kr : Bool) : rksOf nts ch kr ≤ 15 := by
  have := ch.block.isLt
  have h : ∀ b : Bool, (if b then 1 else 0) ≤ 1 := by decide
  have := h (if nts then ch.fnum.getLsbD 8 else ch.fnum.getLsbD 9)
  rw [rksOf_eq]
  split <;> omega

theorem Slot.enter_eq (st : EgState) (sl : Slot) :
    (sl.enter st).egState = st ∧ (sl.enter st).egOut = sl.egOut ∧ (sl.enter st).phase = sl.phase
      ∧ (sl.enter st).out1 = sl.out1 ∧ (sl.enter st).out2 = sl.out2 := by
  unfold Slot.enter
  split <;> simp_all

/-- The level after an envelope step. -/
theorem Slot.egStep_egOut (tick : BitVec 16) (sl : Slot) :
    (sl.egStep tick).egOut = if sl.updateDue tick then sl.updatedLevel (sl.stepValue tick) else sl.egOut :=
  (Slot.enter_eq _ _).2.1

/-- The state after an envelope step: the checks read the level the step leaves. -/
theorem Slot.egStep_egState (tick : BitVec 16) (sl : Slot) :
    (sl.egStep tick).egState = Slot.nextState { sl with egOut := (sl.egStep tick).egOut } := by
  rw [Slot.egStep_egOut]
  exact (Slot.enter_eq _ _).1

theorem Slot.egStep_kept (tick : BitVec 16) (sl : Slot) :
    (sl.egStep tick).phase = sl.phase ∧ (sl.egStep tick).out1 = sl.out1 ∧ (sl.egStep tick).out2 = sl.out2 :=
  (Slot.enter_eq _ _).2.2

@[simp] theorem Slot.advancePhase_egOut (inc : Int) (sl : Slot) : (sl.advancePhase inc).egOut = sl.egOut := rfl
@[simp] theorem Slot.advancePhase_egState (inc : Int) (sl : Slot) : (sl.advancePhase inc).egState = sl.egState := rfl
@[simp] theorem Slot.advancePhase_out1 (inc : Int) (sl : Slot) : (sl.advancePhase inc).out1 = sl.out1 := rfl
@[simp] theorem Slot.advancePhase_out2 (inc : Int) (sl : Slot) : (sl.advancePhase inc).out2 = sl.out2 := rfl

/-- The level and state a tick leaves are those of the envelope step of the slot after steps 0 to 3. -/
theorem Chip.tick1_envelope (c : Chip) (i : SlotId) :
    let sl := (commitSlot c.nts (c.chanFor i) (c.preTick.slotAt i)).egStep (c.tick + 1)
    (c.tick1.slotAt i).egOut = sl.egOut ∧ (c.tick1.slotAt i).egState = sl.egState := by
  rw [Chip.slotAt_tick1, Chip.slotAt_atOutputs, Chip.slotTick]
  simp only [Chip.preTick_nts, Chip.preTick_chanFor, Chip.preTick_tick, Slot.advancePhase_egOut,
    Slot.advancePhase_egState, commitSlot_egOut, commitSlot_egState, and_self]

/-- A committed coherent slot is committed already. -/
theorem commitSlot_recomputed (nts : Bool) (ch : Channel) (sl : Slot) :
    commitSlot nts ch (sl.recomputed nts ch) = sl.recomputed nts ch :=
  commitSlot_of_cacheOk (recomputed_cacheOk nts ch sl)

/-- In a tick without a key edge a coherent slot takes one envelope step at the rate of its fields. -/
theorem Chip.tick1_envelope_of_quiet {c : Chip} (hc : c.cacheOk) (hq : c.quiet) (i : SlotId) :
    let sl := ((c.slotAt i).recomputed c.nts (c.chanFor i)).egStep (c.tick + 1)
    (c.tick1.slotAt i).egOut = sl.egOut ∧ (c.tick1.slotAt i).egState = sl.egState := by
  have h := c.tick1_envelope i
  rw [Chip.slotAt_preTick_of_quiet hq, commitSlot_of_cacheOk (hc i), commitSlot_recomputed] at h
  exact h

/-- The ATTACK update as arithmetic, at level 0 too (R198). -/
theorem attackLevel_eq (egOut step : Nat) :
    (attackLevel egOut step : Int) = max 0 ((egOut : Int) + (-(egOut : Int) - 1) * step / 8) := by
  unfold attackLevel
  split
  · rename_i h
    subst h
    have : (-(0 : Int) - 1) * step / 8 ≤ 0 := by omega
    simp only [Nat.cast_zero]
    omega
  · have h : ((-(egOut : Int) - 1) * (step : Int)) >>> (3 : Nat) = (-(egOut : Int) - 1) * step / 8 :=
      Int.shiftRight_eq_div_pow _ 3
    rw [← h]
    exact Int.toNat_of_nonneg (le_max_left _ _)

end Sys2Proof.Machine
end

