-- ==== Sys2Proof/Laws/Operands.lean ====
section
/-!
SUPPORT. What the operand forms read: register addresses as numbers, the fnum of a channel, the value of
a register 0x04 write.
-/

namespace Sys2Proof.Machine

/-- The address of a slot in each slot group (R82, R92), whichever way the base is written. -/
theorem slotAddr_eq (base : Byte) (n : Nat) (h : base.toNat = n) (i : SlotId) :
    slotAddr base i = BitVec.ofNat 8 (n + i.val / 6 * 8 + i.val % 6) := by
  apply BitVec.eq_of_toNat_eq
  simp [slotAddr, offsetOf, h, Nat.add_assoc]

/-- The address of a channel in each channel group (R83). -/
theorem chanAddr_eq (base : Byte) (n : Nat) (h : base.toNat = n) (i : ChanId) :
    chanAddr base i = BitVec.ofNat 8 (n + i.val) := by
  apply BitVec.eq_of_toNat_eq
  simp [chanAddr, h]

/-- The fnum with a new low byte (R131). -/
theorem assembleFnum_low (f : BitVec 10) (v : Byte) :
    assembleFnum (f.extractLsb' 8 2) v = (f &&& 0x300) ||| v.setWidth 10 := by
  apply BitVec.eq_of_getLsbD_eq
  intro i hi
  have h : (f.extractLsb' 8 2 ++ v : BitVec (2 + 8)).getLsbD i = _ := BitVec.getLsbD_append
  unfold assembleFnum
  rw [h]
  interval_cases i <;> simp

/-- The fnum with new high bits (R132). -/
theorem assembleFnum_high (f : BitVec 10) (v : Byte) :
    assembleFnum (field v 0 2) (f.extractLsb' 0 8) = (f &&& 0xFF) ||| ((v.setWidth 10 &&& 3) <<< 8) := by
  apply BitVec.eq_of_getLsbD_eq
  intro i hi
  have h : (field v 0 2 ++ f.extractLsb' 0 8 : BitVec (2 + 8)).getLsbD i = _ := BitVec.getLsbD_append
  unfold assembleFnum
  rw [h]
  interval_cases i <;> simp [field]

/-- The low bits of a register 0x04 value are the instruction's (R124, R125). -/
theorem bit_timerByte (top : Bool) (v : BitVec 7) (i : Nat) (h : i < 7) : bit (timerByte top v) i = v.getLsbD i := by
  have h1 : (BitVec.ofBool top ++ v : BitVec (1 + 7)).getLsbD i = _ := BitVec.getLsbD_append
  unfold bit timerByte
  rw [h1]
  simp [h]

end Sys2Proof.Machine
end

