-- ==== Sys2Proof/Laws/Ops.lean ====
section
/-!
SUPPORT. What the shared operations do: the checks before a command, the common path of a register
write, and host memory.
-/

namespace Sys2Proof.Machine

/-! ## The checks before a command (R364) -/

/-- A command runs on a ready state when it has no refusal of its own. -/
theorem issue_of_ready {s : State} (h : s.created = true ∧ s.faults = [] ∧ s.args.overlaps = false)
    (inst : Bool) (run : Host.Outcome State Fault Refusal) : issue s none inst run = run := by
  obtain ⟨hc, hf, ho⟩ := h
  simp [issue, hc, hf, ho]

/-- A command that ends in a next state ran: no check stopped it. -/
theorem issue_eq_next {s t : State} {own : Option Refusal} {inst : Bool}
    {run : Host.Outcome State Fault Refusal} (h : issue s own inst run = .next t) :
    s.faults = [] ∧ s.args.overlaps = false ∧ own = none ∧ (inst = true → s.created = true) ∧ run = .next t := by
  unfold issue at h
  cases hf : s.faults with
  | cons e l => simp [hf] at h
  | nil =>
    cases ho : s.args.overlaps with
    | true => simp [hf, ho] at h
    | false =>
      cases own with
      | some r => simp [hf, ho] at h
      | none => cases inst <;> cases hc : s.created <;> simp_all

/-- A faulted instance executes nothing (R47). -/
theorem issue_of_faulted {s : State} {e : FaultEntry} {l : List FaultEntry} (h : s.faults = e :: l)
    (own : Option Refusal) (inst : Bool) (run : Host.Outcome State Fault Refusal) :
    issue s own inst run = .fault (.stopped e) := by
  simp [issue, h]

/-- `R_CONCURRENT` comes before the other refusals (R364). -/
theorem issue_of_overlap {s : State} (hf : s.faults = []) (h : s.args.overlaps = true)
    (own : Option Refusal) (inst : Bool) (run : Host.Outcome State Fault Refusal) :
    issue s own inst run = .refused .concurrent := by
  simp [issue, hf, h]

/-- A command's own refusal comes before `R_NO_INSTANCE` (R364). -/
theorem issue_of_own {s : State} (hf : s.faults = []) (h : s.args.overlaps = false) (r : Refusal)
    (inst : Bool) (run : Host.Outcome State Fault Refusal) :
    issue s (some r) inst run = .refused r := by
  simp [issue, hf, h]

/-- `R_NO_INSTANCE` (R362). -/
theorem issue_of_no_instance {s : State} (hf : s.faults = []) (h : s.args.overlaps = false)
    (hc : s.created = false) (run : Host.Outcome State Fault Refusal) :
    issue s none true run = .refused .noInstance := by
  simp [issue, hf, h, hc]

/-! ## Register writes (R120) -/

/-- A register write on a ready state completes. -/
theorem registerWrite_of_ready {s : State} (h : s.created = true ∧ s.faults = [] ∧ s.args.overlaps = false)
    (a v : Byte) (f : Chip → Chip) :
    registerWrite a v f s = .next (s.setChip (f (s.chip.setReg a v))) :=
  issue_of_ready h _ _

/-- The next state of a register write: only the instance changes. -/
theorem registerWrite_eq_next {s t : State} {a v : Byte} {f : Chip → Chip}
    (h : registerWrite a v f s = .next t) : t = s.setChip (f (s.chip.setReg a v)) := by
  obtain ⟨_, _, _, _, h⟩ := issue_eq_next h
  exact (Host.Outcome.next.inj h).symm

/-! ## Host memory (R63, R64) -/

/-- Every listed address of a memory in canonical form is at least the first. -/
theorem Memory.wf_cons {x : Host.Cell} {m : Memory} :
    Memory.wf (x :: m) = true ↔ (∀ y ∈ m.head?, x.1 < y.1) ∧ Memory.wf m = true := by
  cases m with
  | nil => simp [Memory.wf]
  | cons y r => simp [Memory.wf]

/-- The first address after a byte is written is the written one or the old first. -/
theorem Memory.head?_writeByte (a : Nat) (b : Byte) (m : Memory) :
    ∀ y ∈ (Memory.writeByte a b m).head?, y.1 = a ∨ y ∈ m.head? := by
  cases m with
  | nil => simp [Memory.writeByte]
  | cons x r =>
    obtain ⟨x, z⟩ := x
    simp only [Memory.writeByte]
    split
    · simp
    · split <;> simp

/-- A byte write keeps the canonical form. -/
theorem Memory.wf_writeByte (a : Nat) (b : Byte) {m : Memory} (h : m.wf = true) :
    (Memory.writeByte a b m).wf = true := by
  induction m with
  | nil => rfl
  | cons x r ih =>
    obtain ⟨x, z⟩ := x
    obtain ⟨h1, h2⟩ := Memory.wf_cons.1 h
    simp only [Memory.writeByte]
    split
    · exact Memory.wf_cons.2 ⟨by simpa, h⟩
    · split
      · rename_i e
        subst e
        exact Memory.wf_cons.2 ⟨h1, h2⟩
      · refine Memory.wf_cons.2 ⟨fun y hy => ?_, ih h2⟩
        rcases Memory.head?_writeByte a b r y hy with e | e
        · show x < y.1
          omega
        · exact h1 y e

theorem Memory.wf_writeBytes (bs : List Byte) : ∀ (a : Nat) {m : Memory}, m.wf = true →
    (Memory.writeBytes a bs m).wf = true := by
  induction bs with
  | nil => intro a m h; exact h
  | cons b bs ih => intro a m h; exact ih (a + 1) (Memory.wf_writeByte a b h)

/-- Storing the elements of a buffer keeps the canonical form. -/
theorem Memory.wf_storeElems (es : List (List Byte)) : ∀ (a : Nat) {m : Memory}, m.wf = true →
    (Memory.storeElems a es m).wf = true := by
  induction es with
  | nil => intro a m h; exact h
  | cons e es ih => intro a m h; exact ih (a + e.length) (Memory.wf_writeBytes e a h)

/-- A byte reads as last written, every other byte as before. -/
theorem Memory.readByte_writeByte (a x : Nat) (b : Byte) (m : Memory) :
    Memory.readByte x (Memory.writeByte a b m) = if x = a then some b else Memory.readByte x m := by
  induction m with
  | nil => simp [Memory.writeByte, Memory.readByte]
  | cons c r ih =>
    obtain ⟨c, z⟩ := c
    simp only [Memory.writeByte]
    split
    · simp only [Memory.readByte]
    · split
      · rename_i e
        subst e
        simp only [Memory.readByte]
        split <;> simp_all
      · simp only [Memory.readByte, ih]
        split <;> split <;> simp_all

/-- What a stored byte sequence reads as. -/
theorem Memory.readByte_writeBytes (bs : List Byte) : ∀ (a x : Nat) (m : Memory),
    Memory.readByte x (Memory.writeBytes a bs m)
      = if a ≤ x ∧ x < a + bs.length then bs[x - a]? else Memory.readByte x m := by
  induction bs with
  | nil => intro a x m; simp [Memory.writeBytes]
  | cons b bs ih =>
    intro a x m
    rw [Memory.writeBytes, ih, Memory.readByte_writeByte]
    by_cases h : x = a
    · subst h; simp
    · by_cases h1 : a + 1 ≤ x ∧ x < a + 1 + bs.length
      · have h2 : a ≤ x ∧ x < a + (b :: bs).length := by simp; omega
        have h3 : x - a = (x - (a + 1)) + 1 := by omega
        rw [if_pos h1, if_pos h2, h3, List.getElem?_cons_succ]
      · have h2 : ¬(a ≤ x ∧ x < a + (b :: bs).length) := by simp; omega
        rw [if_neg h1, if_neg h2, if_neg h]

/-- Bytes outside a stored buffer of elements of `k` bytes read as before. -/
theorem Memory.readByte_storeElems_outside (k : Nat) (es : List (List Byte)) :
    ∀ (a x : Nat) (m : Memory), (∀ e ∈ es, e.length = k) → x < a ∨ a + k * es.length ≤ x →
      Memory.readByte x (Memory.storeElems a es m) = Memory.readByte x m := by
  induction es with
  | nil => intro a x m _ _; rfl
  | cons e es ih =>
    intro a x m hk hx
    have he : e.length = k := hk e (by simp)
    have hm : k * (e :: es).length = k * es.length + k := by simp [Nat.mul_add]
    rw [Memory.storeElems, ih _ _ _ (fun y hy => hk y (by simp [hy])) (by omega),
      Memory.readByte_writeBytes, if_neg (by omega)]

/-- Byte `j` of element `i` of a stored buffer of elements of `k` bytes. -/
theorem Memory.readByte_storeElems (k : Nat) (es : List (List Byte)) :
    ∀ (a i j : Nat) (e : List Byte) (m : Memory), (∀ e ∈ es, e.length = k) → es[i]? = some e → j < k →
      Memory.readByte (a + k * i + j) (Memory.storeElems a es m) = e[j]? := by
  induction es with
  | nil => intro a i j e m _ h _; simp at h
  | cons e0 es ih =>
    intro a i j e m hk h hj
    have he : e0.length = k := hk e0 (by simp)
    rw [Memory.storeElems]
    cases i with
    | zero =>
      obtain rfl : e0 = e := by simpa using h
      rw [Memory.readByte_storeElems_outside k _ _ _ _ (fun y hy => hk y (by simp [hy])) (by omega),
        Memory.readByte_writeBytes, if_pos (by omega)]
      congr 1; omega
    | succ i =>
      have := ih (a + e0.length) i j e (Memory.writeBytes a e0 m) (fun y hy => hk y (by simp [hy])) (by simpa using h) hj
      rw [← this]
      congr 1
      rw [he, Nat.mul_add]; omega

/-! ## Elements (R63, R64) -/

/-- A sample is stored low byte first. -/
theorem sampleLE_eq (x : Sample) : sampleLE x = [x.extractLsb' 0 8, x.extractLsb' 8 8] := by
  simp [sampleLE, bytesLE, List.range_succ]

/-- A frame is the two bytes of the sample, twice. -/
theorem frameLE_eq (x : Sample) :
    frameLE x = [x.extractLsb' 0 8, x.extractLsb' 8 8, x.extractLsb' 0 8, x.extractLsb' 8 8] := by
  have h (k : Nat) (hk : k < 4) : (stereoFrame x).extractLsb' (8 * k) 8 = x.extractLsb' (8 * (k % 2)) 8 := by
    apply BitVec.eq_of_getLsbD_eq
    intro i hi
    interval_cases k <;> interval_cases i <;> simp [stereoFrame]
  have h0 := h 0 (by omega)
  simp only [Nat.mul_zero, Nat.zero_mod] at h0
  simp [frameLE, bytesLE, List.range_succ, h 1, h 2, h 3, h0]

end Sys2Proof.Machine
end

