-- ==== Sys2Proof/Laws/PerInstr.lean ====
section
/-!
SUPPORT. Statements made per instruction. `TableRow`: the word of every well-formed instruction has the
fixed bits of its row in the opcode table.
-/

namespace Sys2Proof.Laws

/-- The word with address mask `m` and value mask `n` under ones everywhere else. -/
theorem writeWord_and (a v m n : Byte) :
    writeWord a v &&& commandWord 0xFF (0xFF#8 ++ (m ++ n)) = writeWord (a &&& m) (v &&& n) := by
  apply BitVec.eq_of_getLsbD_eq
  intro i hi
  have h1 : (0xFF#8 ++ (m ++ n) : BitVec (8 + (8 + 8))).getLsbD i
      = if i < 16 then (m ++ n : BitVec (8 + 8)).getLsbD i else (0xFF#8).getLsbD (i - 16) := BitVec.getLsbD_append
  have h2 : (m ++ n : BitVec (8 + 8)).getLsbD i = if i < 8 then n.getLsbD i else m.getLsbD (i - 8) :=
    BitVec.getLsbD_append
  rw [BitVec.getLsbD_and, getLsbD_writeWord, getLsbD_writeWord, getLsbD_commandWord, h1, h2]
  by_cases h8 : i < 8
  · simp [h8, show i < 16 by omega, show i < 24 by omega]
  by_cases h16 : i < 16
  · simp [h8, h16, show i < 24 by omega]
  · by_cases h24 : i < 24
    · simp [h8, h16, h24]
    · have h : BitVec.getLsbD (0xFF : Byte) (i - 24) = true := by
        interval_cases i <;> first | omega | rfl
      rw [if_neg h8, if_neg h16, if_neg h24, h]
      simp [h8, h16]

theorem commandWord_and (c d : Byte) (o p : BitVec 24) :
    commandWord c o &&& commandWord d p = commandWord (c &&& d) (o &&& p) := by
  apply BitVec.eq_of_getLsbD_eq
  intro i hi
  rw [BitVec.getLsbD_and, getLsbD_commandWord, getLsbD_commandWord, getLsbD_commandWord]
  split <;> simp

/-- A value with bit 7 alone kept (the rows of register 0x04). -/
theorem append_and_80 (b : Bool) (v : BitVec 7) :
    ((BitVec.ofBool b ++ v : BitVec (1 + 7)) : Byte) &&& 0x80 = if b then 0x80 else 0x00 := by
  apply BitVec.eq_of_getLsbD_eq
  intro i hi
  rw [BitVec.getLsbD_and, show ((BitVec.ofBool b ++ v : BitVec (1 + 7)) : Byte).getLsbD i
    = if i < 7 then v.getLsbD i else (BitVec.ofBool b).getLsbD (i - 7) from BitVec.getLsbD_append]
  interval_cases i <;> cases b <;> simp

/-- The slot groups and channel groups keep their group bits. -/
theorem slotAddr_and (s : SlotId) :
    slotAddr 0x20 s &&& 0xE0 = 0x20 ∧ slotAddr 0x40 s &&& 0xE0 = 0x40 ∧ slotAddr 0x60 s &&& 0xE0 = 0x60
      ∧ slotAddr 0x80 s &&& 0xE0 = 0x80 ∧ slotAddr 0xE0 s &&& 0xE0 = 0xE0 := by
  revert s; decide

theorem chanAddr_and (c : ChanId) :
    chanAddr 0xA0 c &&& 0xF0 = 0xA0 ∧ chanAddr 0xB0 c &&& 0xF0 = 0xB0 ∧ chanAddr 0xC0 c &&& 0xF0 = 0xC0 := by
  revert c; decide

namespace TableRow

/-- The mask and the fixed bits of an instruction's row in spec/opcode_table.json. -/
def row : Instr → Word × Word
  | .irqReset _ => (0xFFFFFF80, 0x01000480)
  | .test _ => (0xFFFFFF00, 0x01000100)
  | .timer1 _ => (0xFFFFFF00, 0x01000200)
  | .timer2 _ => (0xFFFFFF00, 0x01000300)
  | .timerCtl _ => (0xFFFFFF80, 0x01000400)
  | .mode _ => (0xFFFFFF00, 0x01000800)
  | .rhythm _ => (0xFFFFFF00, 0x0100BD00)
  | .amVib _ _ => (0xFFFFE000, 0x01002000)
  | .kslTl _ _ => (0xFFFFE000, 0x01004000)
  | .arDr _ _ => (0xFFFFE000, 0x01006000)
  | .slRr _ _ => (0xFFFFE000, 0x01008000)
  | .ws _ _ => (0xFFFFE000, 0x0100E000)
  | .fnumLo _ _ => (0xFFFFF000, 0x0100A000)
  | .keyBlock _ _ => (0xFFFFF000, 0x0100B000)
  | .fbAlg _ _ => (0xFFFFF000, 0x0100C000)
  | .reserved _ _ => (0xFFFF0000, 0x01000000)
  | .calcOne => (0xFFFFFFFF, 0x02000000)
  | .calcBuffer _ => (0xFF000000, 0x03000000)
  | .calcBufferStereo _ => (0xFF000000, 0x04000000)
  | .status => (0xFFFFFFFF, 0x05000000)
  | .setMask _ => (0xFFFFC000, 0x06000000)
  | .reset => (0xFFFFFFFF, 0x07000000)
  | .setRate _ => (0xFF000000, 0x08000000)
  | .new => (0xFFFFFFFF, 0x09000000)

/-- The word of a well-formed instruction has the fixed bits of its row. -/
def Statement (i : Instr) : Prop := i.wellFormed = true → encode i &&& (row i).1 = (row i).2

/-- The row of an exact register address. -/
theorem exact_row (a v : Byte) : writeWord a v &&& 0xFFFFFF00 = writeWord a 0 := by
  have h := writeWord_and a v 0xFF 0x00
  have h1 : a &&& 0xFF = a := by
    rw [show (0xFF : Byte) = BitVec.allOnes 8 from rfl, BitVec.and_allOnes]
  rw [h1, show ∀ x : Byte, x &&& 0 = 0 from fun _ => BitVec.and_zero] at h
  exact h

theorem slot_row (a v : Byte) : writeWord a v &&& 0xFFFFE000 = writeWord (a &&& 0xE0) 0 := by
  have h := writeWord_and a v 0xE0 0x00
  rw [show ∀ x : Byte, x &&& 0 = 0 from fun _ => BitVec.and_zero] at h
  exact h

theorem chan_row (a v : Byte) : writeWord a v &&& 0xFFFFF000 = writeWord (a &&& 0xF0) 0 := by
  have h := writeWord_and a v 0xF0 0x00
  rw [show ∀ x : Byte, x &&& 0 = 0 from fun _ => BitVec.and_zero] at h
  exact h

theorem timer_row (b : Bool) (v : BitVec 7) :
    writeWord 0x04 (BitVec.ofBool b ++ v) &&& 0xFFFFFF80 = writeWord 0x04 (if b then 0x80 else 0x00) := by
  have h := writeWord_and 0x04 (BitVec.ofBool b ++ v) 0xFF 0x80
  rw [append_and_80] at h
  exact h

theorem operand_row (code : Byte) (o : BitVec 24) : commandWord code o &&& 0xFF000000 = commandWord code 0 := by
  have h := commandWord_and code 0xFF o 0
  have h1 : code &&& 0xFF = code := by
    rw [show (0xFF : Byte) = BitVec.allOnes 8 from rfl, BitVec.and_allOnes]
  rw [h1, show ∀ x : BitVec 24, x &&& 0 = 0 from fun _ => BitVec.and_zero] at h
  exact h

theorem irqReset (v : BitVec 7) : Statement (.irqReset v) := fun _ => timer_row true v
theorem test (v : Byte) : Statement (.test v) := fun _ => exact_row 0x01 v
theorem timer1 (v : Byte) : Statement (.timer1 v) := fun _ => exact_row 0x02 v
theorem timer2 (v : Byte) : Statement (.timer2 v) := fun _ => exact_row 0x03 v
theorem timerCtl (v : BitVec 7) : Statement (.timerCtl v) := fun _ => timer_row false v
theorem mode (v : Byte) : Statement (.mode v) := fun _ => exact_row 0x08 v
theorem rhythm (v : Byte) : Statement (.rhythm v) := fun _ => exact_row 0xBD v
theorem amVib (s : SlotId) (v : Byte) : Statement (.amVib s v) := fun _ =>
  (slot_row _ v).trans (congrArg (writeWord · 0) (slotAddr_and s).1)
theorem kslTl (s : SlotId) (v : Byte) : Statement (.kslTl s v) := fun _ =>
  (slot_row _ v).trans (congrArg (writeWord · 0) (slotAddr_and s).2.1)
theorem arDr (s : SlotId) (v : Byte) : Statement (.arDr s v) := fun _ =>
  (slot_row _ v).trans (congrArg (writeWord · 0) (slotAddr_and s).2.2.1)
theorem slRr (s : SlotId) (v : Byte) : Statement (.slRr s v) := fun _ =>
  (slot_row _ v).trans (congrArg (writeWord · 0) (slotAddr_and s).2.2.2.1)
theorem ws (s : SlotId) (v : Byte) : Statement (.ws s v) := fun _ =>
  (slot_row _ v).trans (congrArg (writeWord · 0) (slotAddr_and s).2.2.2.2)
theorem fnumLo (c : ChanId) (v : Byte) : Statement (.fnumLo c v) := fun _ =>
  (chan_row _ v).trans (congrArg (writeWord · 0) (chanAddr_and c).1)
theorem keyBlock (c : ChanId) (v : Byte) : Statement (.keyBlock c v) := fun _ =>
  (chan_row _ v).trans (congrArg (writeWord · 0) (chanAddr_and c).2.1)
theorem fbAlg (c : ChanId) (v : Byte) : Statement (.fbAlg c v) := fun _ =>
  (chan_row _ v).trans (congrArg (writeWord · 0) (chanAddr_and c).2.2)
theorem reserved (a v : Byte) : Statement (.reserved a v) := fun _ => by
  have h := writeWord_and a v 0x00 0x00
  rw [show ∀ x : Byte, x &&& 0 = 0 from fun _ => BitVec.and_zero, show ∀ x : Byte, x &&& 0 = 0 from fun _ => BitVec.and_zero] at h
  exact h
theorem calcOne : Statement .calcOne := fun _ => by decide
theorem calcBuffer (n : BitVec 24) : Statement (.calcBuffer n) := fun _ => operand_row 0x03 n
theorem calcBufferStereo (n : BitVec 24) : Statement (.calcBufferStereo n) := fun _ => operand_row 0x04 n
theorem status : Statement .status := fun _ => by decide
theorem setMask (m : BitVec 14) : Statement (.setMask m) := fun _ => by
  have h := commandWord_and 0x06 0xFF (0#10 ++ m) 0xFFC000
  have h1 : ((0#10 ++ m : BitVec (10 + 14)) : BitVec 24) &&& 0xFFC000 = 0 := by
    apply BitVec.eq_of_getLsbD_eq
    intro i hi
    rw [BitVec.getLsbD_and, show ((0#10 ++ m : BitVec (10 + 14)) : BitVec 24).getLsbD i
      = if i < 14 then m.getLsbD i else (0#10).getLsbD (i - 14) from BitVec.getLsbD_append]
    interval_cases i <;> simp
  rw [h1] at h
  exact h
theorem reset : Statement .reset := fun _ => by decide
theorem setRate (r : BitVec 24) : Statement (.setRate r) := fun _ => operand_row 0x08 r
theorem new : Statement .new := fun _ => by decide

end TableRow

end Sys2Proof.Laws
end

