-- ==== Sys2Proof/Tests/Slice0.lean ====
section
/-!
SUPPORT. Tests of the model. Expected results come from spec/95_test_vectors.md (V1 to V14, P1 to P6) and from
the tables of the numbered rules; each test names its source. Each runs one operation or one step. The last
section gives, for every statement with hypotheses, a state and operands that meet them.
-/

namespace Sys2Proof.Machine

set_option Elab.async false

/-! ## Helpers -/

/-- The next state of an outcome. -/
def nextOf : Host.Outcome State Fault Refusal → Option State
  | .next t => some t
  | .fault _ => none
  | .refused _ => none

/-- The refusal of an outcome. -/
def refusalOf : Host.Outcome State Fault Refusal → Option Refusal
  | .next _ => none
  | .fault _ => none
  | .refused r => some r

/-- The fault of an outcome. -/
def faultOf : Host.Outcome State Fault Refusal → Option Fault
  | .next _ => none
  | .fault r => some r
  | .refused _ => none

theorem next_of_isSome (o : Host.Outcome State Fault Refusal) (h : (nextOf o).isSome = true) :
    ∃ t, o = .next t := by
  cases o with
  | next t => exact ⟨t, rfl⟩
  | fault _ => cases h
  | refused _ => cases h

/-- The state one step leaves on a command word. -/
def after (w : Nat) (s : State) : State := (nextOf (step (s.withFetchWord 32 w))).getD State.powerOn

/-- A state with a command word pending under given launch arguments. -/
def asked (w : Word) (a : LaunchArgs) (s : State) : State := { s with pending := [⟨w, a⟩] }

/-- The reset state with slot 3 (the carrier of channel 0) and channel 0 as given. -/
def carrierState (sl : Slot) (ch : Channel) : State :=
  { State.reset with
    chip := { State.reset.chip with slot := State.reset.chip.slot.set 3 sl, chan := State.reset.chip.chan.set 0 ch } }

/-- Program P1 after step 8: slot 3 keyed at full level, fnum 0x200, block 6. -/
def tone : State :=
  let s := carrierState { Slot.initial with ml := 1, ar := 15, egState := .decay, egOut := 0 }
    { Channel.initial with fnum := 0x200, block := 6, key := true }
  s.setChip ({ s.chip with keyMask := 9 }.updSlot 0 fun sl => { sl with egState := .attack })

/-- The patch of V7 with its register 0xC0 fields: the modulator at `tll` 64. -/
def fmTone (fb : BitVec 3) (alg : Bool) : State :=
  tone.setChip ((tone.chip.updSlot 0 fun sl =>
    { sl with ml := 1, ar := 15, tl := 16, egState := .decay, egOut := 0 }).updChan 0
      fun ch => { ch with fb := fb, alg := alg })

/-- The channel of V5: fnum 0, block 0. A slot keyed in ATTACK at 511 with attack rate `ar`, before a tick. -/
def attacking (ar : BitVec 4) : Slot := { Slot.initial with ar := ar, egState := .attack }

/-- Program P3 after step 8: the hi-hat keyed, everything else silent. -/
def hiHat : State :=
  { State.reset with chip := { State.reset.chip with
      rhythm := true
      rkey := 1
      keyMask := 0x2000
      slot := State.reset.chip.slot.set 13 { Slot.initial with ml := 1, ar := 15, egState := .decay, egOut := 0 } } }

/-- P6 just before the overflow of tick 4: timer 1 about to overflow, `csm` = 1, slot 3 with AR = RR = 15. -/
def csmBefore : State :=
  let s := carrierState { Slot.initial with ml := 1, ar := 15, rr := 15 } { Channel.initial with block := 6 }
  { s with chip := { s.chip with csm := true, t1 := ⟨0xFF, false, true, 0xFF, 3, false⟩ } }

/-- P6 after tick 4: the pulse is up and every slot is keyed by it. -/
def csmDuring : State := { csmBefore with chip := csmBefore.chip.tick1 }

/-- The reset state with the converter present (44,100 Hz), as `setRate(44100)` leaves it. -/
def converting : State := { State.reset with chip := Chip.initial 3579552 44100 true }

/-- An instance that has faulted. -/
def faulted : State := { State.reset with faults := [⟨.rateMismatch, 0x03000004⟩] }

/-! ## Well-formedness (R88) -/

theorem test_ill_formed_reserved : ∀ a ∈ [(0x01 : Byte), 0x02, 0x03, 0x04, 0x08, 0x20, 0x35, 0x4D, 0x72, 0x95, 0xA0,
    0xA8, 0xB0, 0xB8, 0xBD, 0xC0, 0xC8, 0xE0, 0xF5], (Instr.reserved a 0).wellFormed = false := by decide

theorem test_well_formed_reserved : ∀ a ∈ [(0x00 : Byte), 0x05, 0x07, 0x09, 0x1F, 0x26, 0x2F, 0x36, 0x5E, 0x9F, 0xA9,
    0xAF, 0xB9, 0xBC, 0xBE, 0xBF, 0xC9, 0xDF, 0xE6, 0xFF], (Instr.reserved a 0).wellFormed = true := by decide

/-! ## Decoding: words written out from R80 to R89, V1, V2 and the programs -/

theorem test_decode_chip_wide :
    decode 0x01000480 = some (.irqReset 0) ∧ decode 0x01000120 = some (.test 0x20)
      ∧ decode 0x010002FE = some (.timer1 0xFE) ∧ decode 0x010003FF = some (.timer2 0xFF)
      ∧ decode 0x01000443 = some (.timerCtl 0x43) ∧ decode 0x01000880 = some (.mode 0x80)
      ∧ decode 0x0100BD21 = some (.rhythm 0x21) := by decide

/-- V2: slot 17 at offset 0x15, slot 6 at 0x08, slot 10 at 0x0C, slot 14 at 0x12, slot 3 at 0x03. -/
theorem test_decode_slot_groups :
    decode 0x010035FF = some (.amVib 17 0xFF) ∧ decode 0x010048C5 = some (.kslTl 6 0xC5)
      ∧ decode 0x01006CA3 = some (.arDr 10 0xA3) ∧ decode 0x0100927E = some (.slRr 14 0x7E)
      ∧ decode 0x0100E302 = some (.ws 3 0x02) ∧ decode 0x01002301 = some (.amVib 3 0x01) := by decide

theorem test_decode_channel_groups :
    decode 0x0100A041 = some (.fnumLo 0 0x41) ∧ decode 0x0100B03A = some (.keyBlock 0 0x3A)
      ∧ decode 0x0100C00E = some (.fbAlg 0 0x0E) ∧ decode 0x0100B820 = some (.keyBlock 8 0x20)
      ∧ decode 0x0100A700 = some (.fnumLo 7 0x00) := by decide

theorem test_decode_reserved :
    decode 0x0100B900 = some (.reserved 0xB9 0x00) ∧ decode 0x01003601 = some (.reserved 0x36 0x01)
      ∧ decode 0x01002601 = some (.reserved 0x26 0x01) ∧ decode 0x01000000 = some (.reserved 0x00 0x00) := by decide

theorem test_decode_commands :
    decode 0x02000000 = some .calcOne ∧ decode 0x03000064 = some (.calcBuffer 100)
      ∧ decode 0x040000C8 = some (.calcBufferStereo 200) ∧ decode 0x05000000 = some .status
      ∧ decode 0x06000201 = some (.setMask 0x201) ∧ decode 0x07000000 = some .reset
      ∧ decode 0x0800AC44 = some (.setRate 44100) ∧ decode 0x09000000 = some .new := by decide

theorem test_decode_refuses :
    decode 0x01012301 = none ∧ decode 0x02000001 = none ∧ decode 0x0A000000 = none ∧ decode 0x06004000 = none
      ∧ decode 0x00000000 = none ∧ decode 0x05800000 = none ∧ decode 0x07000001 = none
      ∧ decode 0x09000001 = none ∧ decode 0xFF000000 = none := by decide

/-- The programs' words, as V1 and §3 list them, from the encoder. -/
theorem test_encode :
    encode (.keyBlock 0 0x3A) = 0x0100B03A ∧ encode (.amVib 3 0x21) = 0x01002321
      ∧ encode (.slRr 13 0) = 0x01009100 ∧ encode (.irqReset 0) = 0x01000480
      ∧ encode (.timerCtl 0x41) = 0x01000441 ∧ encode (.calcBuffer 16) = 0x03000010
      ∧ encode (.setRate 44100) = 0x0800AC44 := by decide

theorem test_decode_table_word :
    decodeTableWord 32 0x01006C35 = some (.arDr 10 0x35) ∧ decodeTableWord 24 0x09000001 = none := by decide

/-- R92: `noteOn(0, 0x200, 6)` is P1's steps 7 and 8, `noteOff` its step 10. -/
theorem test_pseudo_commands :
    noteOn 0 0x200 6 = [0x0100A000, 0x0100B03A] ∧ noteOff 0 0x200 6 = [0x0100B01A]
      ∧ setSlot 3 0x60 0xF0 = [0x010063F0] ∧ renderWords 40 = [0x04000028] := by decide

/-- R61: the arguments of `writeReg` are masked. -/
theorem test_write_masks : writeRegCall 0x123 0x201 = 0x01002301 := by decide

/-! ## Register writes, each one step from a small state -/

/-- V2: a waveform write with `wse` = 0 is dropped but stored. -/
theorem test_ws_dropped :
    let t := after 0x0100E302 State.reset
    (t.chip.slotAt 3).ws = 0 ∧ t.chip.regAt 0xE3 = 0x02 := by decide +kernel

/-- V2: with `wse` = 1 bits 7..2 are ignored. -/
theorem test_ws_taken :
    ((after 0x0100E3FF { State.reset with chip := { State.reset.chip with wse := true } }).chip.slotAt 3).ws = 3 := by
  decide +kernel

theorem test_wse : (after 0x01000120 State.reset).chip.wse = true ∧ (after 0x010001DF tone).chip.wse = false := by
  decide +kernel

/-- V2: `writeReg(0x48, 0xC5)`: slot 6, KL = 3, TL = 5. -/
theorem test_ksl_tl :
    let sl := (after 0x010048C5 State.reset).chip.slotAt 6
    sl.kl = 3 ∧ sl.tl = 5 := by decide +kernel

/-- V2: `writeReg(0x6C, 0xA3)`: slot 10, AR = 10, DR = 3. -/
theorem test_ar_dr :
    let sl := (after 0x01006CA3 State.reset).chip.slotAt 10
    sl.ar = 10 ∧ sl.dr = 3 := by decide +kernel

/-- V2: `writeReg(0x92, 0x7E)`: slot 14, SL = 7, RR = 14. -/
theorem test_sl_rr :
    let sl := (after 0x0100927E State.reset).chip.slotAt 14
    sl.sl = 7 ∧ sl.rr = 14 := by decide +kernel

/-- R87: bit 7 AM, bit 6 PM, bit 5 EG, bit 4 KR, bits 3..0 ML. -/
theorem test_am_vib :
    let sl := (after 0x010023A5 State.reset).chip.slotAt 3
    sl.am = true ∧ sl.pm = false ∧ sl.eg = true ∧ sl.kr = false ∧ sl.ml = 5 := by decide +kernel

/-- V2: `writeReg(0xB0, 0x12)` after `writeReg(0xA0, 0x41)`: fnum 0x241, BLOCK = 4, KEY = 0. -/
theorem test_fnum_block :
    let s := carrierState Slot.initial { Channel.initial with fnum := 0x041 }
    let ch := (after 0x0100B012 s).chip.chanAt 0
    ch.fnum = 0x241 ∧ ch.block = 4 ∧ ch.key = false := by decide +kernel

/-- R131: the low write keeps the high bits. -/
theorem test_fnum_low :
    ((after 0x0100A041 (carrierState Slot.initial { Channel.initial with fnum := 0x2FF })).chip.chanAt 0).fnum
      = 0x241 := by decide +kernel

/-- V2: `writeReg(0xC0, 0x0E)`: FB = 7, ALG = 0; `writeReg(0xC0, 0xF1)`: FB = 0, ALG = 1. -/
theorem test_fb_alg :
    let a := (after 0x0100C00E State.reset).chip.chanAt 0
    let b := (after 0x0100C0F1 State.reset).chip.chanAt 0
    a.fb = 7 ∧ a.alg = false ∧ b.fb = 0 ∧ b.alg = true := by decide +kernel

/-- V2: `writeReg(0x08, 0x40)`: `nts` = 1, `csm` = 0. -/
theorem test_mode :
    let c := (after 0x01000840 State.reset).chip
    c.nts = true ∧ c.csm = false := by decide +kernel

/-- P3 step 8: the hi-hat trigger keys slot 13 alone, at once to DECAY at 0 (AR = 15). -/
theorem test_rhythm_keys_hi_hat :
    let c := (after 0x0100BD21
      (State.reset.setChip (State.reset.chip.updSlot 13 fun sl => { sl with ar := 15 }))).chip
    c.keyMask = 0x2000 ∧ (c.slotAt 13).egState = .decay ∧ (c.slotAt 13).egOut = 0 ∧ c.rkey = 1 := by decide +kernel

/-- V5.5: AR = 13, KR = 1, block 7: rate 13 + 3 is 15 after clamping, DECAY at 0 at the key-on write. -/
theorem test_key_on_at_once :
    let sl := (after 0x0100B03C (carrierState { Slot.initial with ar := 13, kr := true } Channel.initial)).chip.slotAt 3
    sl.egState = .decay ∧ sl.egOut = 0 ∧ sl.phase = 0 := by decide +kernel

/-- V5.1: AR = 12 is in ATTACK at 511 after the key-on. -/
theorem test_key_on_attacks :
    let sl := (after 0x0100B020 (carrierState { Slot.initial with ar := 12, phase := 5 } Channel.initial)).chip.slotAt 3
    sl.egState = .attack ∧ sl.egOut = 511 ∧ sl.phase = 0 := by decide +kernel

/-- P1 step 10: the key-off sends slots 0 and 3 to RELEASE and keeps level and phase. -/
theorem test_key_off :
    let c := (after 0x0100B01A tone).chip
    (c.slotAt 3).egState = .release ∧ (c.slotAt 3).egOut = 0 ∧ (c.slotAt 0).egState = .release ∧ c.keyMask = 0 := by
  decide +kernel

/-- P2 step 3: the start loads the counter; step 11: a start of a running timer does not. -/
theorem test_timer_start :
    let s := { State.reset with chip := { State.reset.chip with t1 := ⟨0xFE, false, false, 0, 2, false⟩ } }
    let r := { State.reset with chip := { State.reset.chip with t1 := ⟨0xFE, false, true, 0xFF, 2, true⟩ } }
    (after 0x01000401 s).chip.t1 = ⟨0xFE, false, true, 0xFE, 0, false⟩
      ∧ (after 0x01000441 r).chip.t1 = ⟨0xFE, true, true, 0xFF, 2, true⟩ := by decide +kernel

/-- P2 step 9: the flags are cleared and `t1_run` stays 1. -/
theorem test_irq_reset :
    let r := { State.reset with chip := { State.reset.chip with t1 := ⟨0xFE, false, true, 0xFF, 0, true⟩ } }
    let t := after 0x01000480 r
    t.chip.t1 = ⟨0xFE, false, true, 0xFF, 0, false⟩ ∧ t.chip.regAt 0x04 = 0x80 := by decide +kernel

theorem test_timer_latches :
    (after 0x010002FE State.reset).chip.t1.latch = 0xFE ∧ (after 0x010003FF State.reset).chip.t2.latch = 0xFF
      ∧ (after 0x010002FE State.reset).chip.t1.cnt = 0 := by decide +kernel

/-- V2: a reserved write is stored, nothing else. -/
theorem test_reserved :
    let c := (after 0x010036AB State.reset).chip
    c.regAt 0x36 = 0xAB ∧ c.regAt 0x37 = 0 ∧ c.slotAt 17 = Slot.initial ∧ c.chanAt 8 = Channel.initial := by
  decide +kernel

/-! ## Phase and LFOs (V3, V4) -/

theorem test_phase_increments :
    let inc := fun (f : BitVec 10) (b : BitVec 3) (ml : BitVec 4) =>
      phaseInc false 0 { Channel.initial with fnum := f, block := b } { Slot.initial with ml := ml }
    inc 0x241 4 1 = 18464 ∧ inc 0x241 4 0 = 9232 ∧ inc 0x241 4 15 = 276960 ∧ inc 0x200 6 1 = 65536
      ∧ inc 0x000 7 15 = 0 := by decide

/-- V3's last row: the largest increment, and the wrap of the phase past 2^21. -/
theorem test_phase_wraps :
    let sl := { Slot.initial with ml := 15, pm := true }
    phaseInc true 2 { Channel.initial with fnum := 0x3FF, block := 7 } sl = 3955200
      ∧ (sl.advancePhase 3955200).pidx = 907 := by decide

theorem test_vibrato_offsets :
    pmOffset true 2 0x3FF = 7 ∧ pmOffset false 2 0x3FF = 3 ∧ pmOffset false 6 0x3FF = -3
      ∧ pmOffset true 1 0x2FF = 2 ∧ pmOffset true 2 0x07F = 0 := by decide

theorem test_tremolo_table :
    (List.range 8).map amTable = [0, 0, 0, 0, 1, 1, 1, 1]
      ∧ ((List.range 10).map fun i => amTable (100 + i)) = [25, 25, 25, 25, 26, 26, 26, 25, 25, 25]
      ∧ ((List.range 5).map fun i => amTable (205 + i)) = [1, 1, 0, 0, 0] := by decide

theorem test_tremolo_value :
    { State.reset.chip with amPos := 104, dam := true }.amVal = 26
      ∧ { State.reset.chip with amPos := 104 }.amVal = 6 := by decide +kernel

/-- R166, R169: the positions move at multiples of 64 and of 1024; at 209 tremolo wraps to 0. -/
theorem test_lfo_steps :
    let a := { State.reset.chip with tick := 63, amPos := 209 }.lfoStep
    let b := { State.reset.chip with tick := 1023, pmPos := 7, amPos := 3 }.lfoStep
    a.tick = 64 ∧ a.amPos = 0 ∧ a.pmPos = 0 ∧ b.pmPos = 0 ∧ b.amPos = 4 := by decide +kernel

/-! ## Envelope (V5) -/

theorem test_attack_levels :
    attackLevel 511 1 = 447 ∧ attackLevel 1 4 = 0 ∧ attackLevel 0 4 = 0 ∧ attackLevel 447 1 = 391 := by decide

/-- V5: `rks` for fnum 0x241 and block 4. -/
theorem test_rate_key_scale :
    let ch := { Channel.initial with fnum := 0x241, block := 4 }
    rksOf false ch false = 2 ∧ rksOf false ch true = 9 ∧ rksOf true ch true = 8 := by decide

/-- V5.1 (AR = 12), V5.3 (AR = 14), V5.9 (AR = 0) after the first tick. -/
theorem test_first_attack_tick :
    let level := fun ar => ((carrierState (attacking ar) Channel.initial).chip.tick1.slotAt 3).egOut
    level 12 = 447 ∧ level 14 = 383 ∧ level 0 = 511 := by decide +kernel

/-- V5.6: AR = 1 is first updated at tick 2,048. -/
theorem test_slow_attack :
    let level := fun n => ({ (carrierState (attacking 1) Channel.initial).chip with tick := n }.tick1.slotAt 3).egOut
    level 2046 = 511 ∧ level 2047 = 447 := by decide +kernel

/-- V5.7: DECAY at rate 15 and SL = 1 ends at 16. -/
theorem test_decay_to_sustain :
    let sl := fun n => (carrierState { Slot.initial with dr := 15, sl := 1, egState := .decay, egOut := n }
      Channel.initial).chip.tick1.slotAt 3
    (sl 8).egState = .decay ∧ (sl 8).egOut = 12 ∧ (sl 12).egState = .sustain ∧ (sl 12).egOut = 16 := by decide +kernel

/-- V5.8: SL = 15 never ends the decay; R207: the level saturates at 511. -/
theorem test_decay_saturates :
    let sl := (carrierState { Slot.initial with dr := 15, sl := 15, egState := .decay, egOut := 508 }
      Channel.initial).chip.tick1.slotAt 3
    sl.egState = .decay ∧ sl.egOut = 511 := by decide +kernel

/-- R192: SUSTAIN moves at the release rate only with `eg` = 0. -/
theorem test_sustain_hold :
    let level := fun eg => ((carrierState { Slot.initial with rr := 15, eg := eg, egState := .sustain, egOut := 32 }
      Channel.initial).chip.tick1.slotAt 3).egOut
    level true = 32 ∧ level false = 36 := by decide +kernel

/-! ## Waveform decoder (V6, R240) -/

/-- R240's table at `lvl` = 0. -/
theorem test_waveforms :
    let row := fun ws => [0, 1, 128, 255, 256, 384, 511, 512, 768, 1023].map fun i => decodeWave (waveEntry ws i) 0
    row 0 = [12, 37, 2896, 4084, 4084, 2880, 12, -12, -4084, -12]
      ∧ row 1 = [12, 37, 2896, 4084, 4084, 2880, 12, 0, 0, 0]
      ∧ row 2 = [12, 37, 2896, 4084, 4084, 2880, 12, 12, 4084, 12]
      ∧ row 3 = [12, 37, 2896, 4084, 0, 0, 0, 12, 0, 0] := by decide +kernel

theorem test_decode_levels :
    decodeWave (waveEntry 0 255) 100 = 468 ∧ decodeWave (waveEntry 0 32) 64 = 202
      ∧ decodeWave (waveEntry 0 234) 0 = 4052 ∧ decodeWave (waveEntry 0 256) 384 = 0 := by decide +kernel

/-- V6.7. -/
theorem test_total_level :
    let ch := { Channel.initial with fnum := 0x200, block := 4 }
    tllOf ch 0 0 = 0 ∧ tllOf ch 0 1 = 48 ∧ tllOf ch 0 2 = 24 ∧ tllOf ch 0 3 = 96 ∧ tllOf ch 63 3 = 348
      ∧ tllOf { Channel.initial with fnum := 0x3FF, block := 7 } 0 3 = 224
      ∧ tllOf { Channel.initial with fnum := 0x040 } 0 3 = 0 := by decide

/-! ## Channels, percussion, noise and mix (V7, V8) -/

/-- P1's first sample. -/
theorem test_tone_sample : tone.chip.tick1.mixOut = 809 := by decide +kernel

/-- V7, tick 1: FM 4052, sum 1011; the modulator's output is 202. -/
theorem test_algorithms :
    let a := (fmTone 0 false).chip.tick1
    let b := (fmTone 0 true).chip.tick1
    a.mixOut = 4052 ∧ (a.slotAt 0).out1 = 202 ∧ b.mixOut = 1011 := by decide +kernel

/-- V7's feedback corner: (-1 + 0) >> 8 is -1; tick 2 at FB 7: (202 + 0) >> 2 is 50. -/
theorem test_feedback : feedback 1 (-1) 0 = -1 ∧ feedback 7 202 0 = 50 ∧ feedback 0 202 0 = 0 := by decide

/-- V7: nine channels at +8168 saturate. -/
theorem test_mix_saturates :
    clampSample 73512 = 32767 ∧ clampSample (-73512) = (-32768 : BitVec 16) ∧ clampSample (-12) = 0xFFF4 := by decide

/-- V8: the noise register from 1, and a shift that feeds a 0 in. -/
theorem test_noise :
    { State.reset.chip with noise := 1 }.noiseStep.noise = 0x400000
      ∧ { State.reset.chip with noise := 0x400000 }.noiseStep.noise = 0x200000
      ∧ { State.reset.chip with noise := 0x008000 }.noiseStep.noise = 0x004000
      ∧ { State.reset.chip with noise := 0x004001 }.noiseStep.noise = 0x002000 := by decide +kernel

/-- P3: the hi-hat's sample is 2584 when the noise bit of the tick is 0 and 7824 when it is 1. -/
theorem test_hi_hat :
    hiHat.chip.tick1.mixOut = 2584 ∧ { hiHat.chip with noise := 2 }.tick1.mixOut = 7824 := by decide +kernel

/-- V8: the snare's and the cymbal's indices with `hh[8]` = 0 and `x` = 0; R272's `x` = 1 from phase bits. -/
theorem test_percussion_indices :
    let c := hiHat.chip
    let d := c.updSlot 13 fun sl => { sl with phase := BitVec.ofNat 21 (0x104 * 2048) }
    c.idxSD = 0x100 ∧ c.idxTC = 0x80 ∧ c.idxHH = 0xD0 ∧ { c with noise := 2 }.idxSD = 0
      ∧ d.idxHH = 0x234 ∧ d.idxTC = 0x280 ∧ d.idxSD = 0x200 := by decide +kernel

/-! ## Mask and status (V9) -/

/-- V9: a muted channel is silent and its slot goes on; bit 6 does nothing in percussion mode. -/
theorem test_mute :
    { tone.chip with muteMask := 1 }.tick1.mixOut = 0
      ∧ ({ tone.chip with muteMask := 1 }.tick1.slotAt 3).out1 = 809
      ∧ { hiHat.chip with muteMask := 0x40 }.tick1.mixOut = 2584
      ∧ { hiHat.chip with muteMask := 0x200 }.tick1.mixOut = 0 := by decide +kernel

theorem test_set_mask : (after 0x06000201 State.reset).chip.muteMask = 0x201 := by decide +kernel

theorem test_status :
    let s := fun a b => { State.reset with chip := { State.reset.chip with
      t1 := { Timer.initial 2 with flag := a }, t2 := { Timer.initial 4 with flag := b } } }
    let read := fun a b => (after 0x05000000 (s a b)).reply
    read true false = some (.status 0xC0) ∧ read false true = some (.status 0xA0)
      ∧ read true true = some (.status 0xE0) ∧ read false false = some (.status 0x00) := by decide +kernel

/-! ## Timers and CSM (V10) -/

/-- V10: the ticks 1, 4, 8 of timer 1 with latch 0xFE, and timer 2's prescaler of 16. -/
theorem test_timers :
    (Timer.step (w := 2) ⟨0xFE, false, true, 0xFE, 0, false⟩) = (⟨0xFE, false, true, 0xFE, 1, false⟩, false)
      ∧ (Timer.step (w := 2) ⟨0xFE, false, true, 0xFE, 3, false⟩) = (⟨0xFE, false, true, 0xFF, 0, false⟩, false)
      ∧ (Timer.step (w := 2) ⟨0xFE, false, true, 0xFF, 3, false⟩) = (⟨0xFE, false, true, 0xFE, 0, true⟩, true)
      ∧ (Timer.step (w := 2) ⟨0xFE, true, true, 0xFF, 3, false⟩) = (⟨0xFE, true, true, 0xFE, 0, false⟩, true)
      ∧ (Timer.step (w := 4) ⟨0xFF, false, true, 0xFF, 15, false⟩) = (⟨0xFF, false, true, 0xFF, 0, true⟩, true) := by
  decide

/-- P6: the overflow of tick 4 keys slot 3 and gives 12; at tick 5 the pulse is over: RELEASE, 4, sample 11. -/
theorem test_csm :
    csmDuring.chip.csmPulse = true ∧ csmDuring.chip.mixOut = 12 ∧ (csmDuring.chip.slotAt 3).egState = .sustain
      ∧ csmDuring.chip.statusByte = 0xC0
      ∧ csmDuring.chip.tick1.csmPulse = false ∧ csmDuring.chip.tick1.mixOut = 11
      ∧ (csmDuring.chip.tick1.slotAt 3).egState = .release ∧ (csmDuring.chip.tick1.slotAt 3).egOut = 4
      ∧ csmDuring.chip.tick1.keyMask = 0 := by decide +kernel

/-! ## Render commands (V11) -/

/-- V11.1: three zero samples, `tick` = 3. `MAX_BATCH` is put in the state as V11 assumes it. -/
theorem test_calc_buffer :
    let t := after 0x03000003 { State.reset with maxBatch := 200 }
    t.chip.tick = 3 ∧ (List.range 7).map (fun a => Memory.readByte a t.mem)
      = [some 0, some 0, some 0, some 0, some 0, some 0, none] := by decide +kernel

/-- V11.2: the frame of the sample -12. -/
theorem test_stereo_bytes :
    frameLE (-12) = [0xF4, 0xFF, 0xF4, 0xFF] ∧ sampleLE 809 = [0x29, 0x03] := by decide

/-- P1's first sample as one stereo frame. -/
theorem test_calc_buffer_stereo :
    let t := after 0x04000001 { tone with maxBatch := 200 }
    (List.range 5).map (fun a => Memory.readByte a t.mem) = [some 0x29, some 0x03, some 0x29, some 0x03, none]
      ∧ t.chip.outTime = 0 := by decide +kernel

/-- V11.5: a count of 0 changes nothing. -/
theorem test_calc_buffer_none :
    let t := after 0x03000000 tone
    t.chip.tick = 0 ∧ t.chip.slotAt 3 = tone.chip.slotAt 3 ∧ t.mem = [] ∧ t.faults = [] := by decide +kernel

/-- V11.3: `calcOne` returns P1's first sample after one tick. -/
theorem test_calc_one :
    let t := after 0x02000000 tone
    t.reply = some (.sample 809) ∧ t.chip.tick = 1 ∧ t.chip.outTime = 0 := by decide +kernel

/-- V11.6: the first call at 44,100 Hz runs 2 ticks, at 96,000 Hz one. -/
theorem test_calc_one_pacing :
    (after 0x02000000 converting).chip.tick = 2
      ∧ (after 0x02000000 { State.reset with chip := Chip.initial 3579552 96000 true }).chip.tick = 1 := by
  decide +kernel

/-- P6's samples of ticks 4 and 5 from the batch renderer, over the two key edges. -/
theorem test_batch_renderer :
    let r := batchRender 2 csmBefore.chip
    r.1 = [12, 11] ∧ r.2.csmPulse = false ∧ (r.2.slotAt 3).egState = .release ∧ (r.2.slotAt 3).egOut = 4
      ∧ r.2.mixOut = 11 ∧ (r.2.slotAt 3).out2 = 12 := by decide +kernel

/-! ## Rate converter (V12) -/

theorem test_converter_presence :
    convTest 3579552 49716 = false ∧ convTest 3579545 49716 = false ∧ convTest 3579552 44100 = true
      ∧ convTest 3579552 96000 = true ∧ convTest 3579552 49715 = true := by decide

/-- R340, the upsampling table. -/
theorem test_kernel_up :
    ([0, 1, 64, 128, 192, 256, 384, 512, 2047] : List (Fin 2048)).map (sincEntry 49716 96000)
      = [4096, 4095, 3673, 2566, 1186, 0, -753, 0, 0] := by decide +kernel

/-- R340, the downsampling table of 44,100 Hz. -/
theorem test_kernel_down :
    ([0, 64, 128, 256, 384, 512, 1024, 1792] : List (Fin 2048)).map (sincEntry 49716 44100)
      = [3633, 3336, 2534, 430, -669, -347, -139, 5] := by decide +kernel

/-- V12.3: sixteen 1000s give 1004 at `dn` = 49716/96000; a single 1000 gives 651 at place 8 and 606 at place 7. -/
theorem test_converter_get :
    let out := fun buf => ((⟨0, buf⟩ : Converter).get 49716 96000).2
    out (Vector.replicate 16 1000) = 1004 ∧ out ((Vector.replicate 16 0).set 8 1000) = 651
      ∧ out ((Vector.replicate 16 0).set 7 1000) = 606 := by decide +kernel

theorem test_converter_put :
    (Converter.put 5 ⟨0, (Vector.replicate 16 0).set 15 7⟩).buf = ((Vector.replicate 16 0).set 14 7).set 15 5 := by
  decide

/-! ## Reset and rates (V13) -/

/-- V13.1. -/
theorem test_reset :
    let t := after 0x07000000 csmDuring
    t.chip.statusByte = 0 ∧ t.chip.tick = 0 ∧ t.chip.noise = 1 ∧ (t.chip.slotAt 3).egState = .release
      ∧ (t.chip.slotAt 3).egOut = 511 ∧ t.chip.conv = none ∧ t.chip.clockHz = 3579552 := by decide +kernel

/-- V13.3: the synthesis state survives, the converter is present and cleared. -/
theorem test_set_rate :
    let t := after 0x0800AC44 tone
    t.chip.conv = some Converter.initial ∧ t.chip.outTime = 0 ∧ (t.chip.slotAt 3).egOut = 0
      ∧ t.chip.inpStep = 3175200 := by decide +kernel

/-- `new` on the state before it leaves the state the model calls reset (R400, log 2). -/
theorem test_new :
    let t := after 0x09000000 State.powerOn
    t.created = true ∧ t.chip.clockHz = 3579552 ∧ t.chip.inpStep = 3579552 ∧ t.chip.conv = none ∧ t.faults = [] := by
  decide +kernel

/-! ## Faults and refusals (V14) -/

/-- P4 step 4, with the count above and below `MAX_BATCH`: the rate mismatch comes first, nothing else changes. -/
theorem test_rate_mismatch :
    let t := after 0x03000004 { converting with maxBatch := 3 }
    t.faults = [⟨.rateMismatch, 0x03000004⟩] ∧ t.chip.tick = 0 ∧ t.mem = [] := by decide +kernel

theorem test_batch_too_large :
    let t := after 0x04000004 { State.reset with maxBatch := 3 }
    t.faults = [⟨.batchTooLarge 4, 0x04000004⟩] ∧ t.chip.tick = 0 ∧ t.mem = [] := by decide +kernel

theorem test_refusals :
    refusalOf (step (asked 0x05000000 LaunchArgs.initial State.powerOn)) = some .noInstance
      ∧ refusalOf (step (asked 0x08000000 LaunchArgs.initial State.reset)) = some .encoding
      ∧ refusalOf (step (asked 0x03000001 { LaunchArgs.initial with buf := 1 } State.reset)) = some .buffer
      ∧ refusalOf (step (asked 0x04000001 { LaunchArgs.initial with buf := 2 } State.reset)) = some .buffer
      ∧ refusalOf (step (asked 0x03000002 { LaunchArgs.initial with bufLen := 1 } State.reset)) = some .buffer
      ∧ refusalOf (step (asked 0x05000000 { LaunchArgs.initial with overlaps := true } State.reset)) = some .concurrent
      ∧ refusalOf (step (asked 0x0A000000 LaunchArgs.initial State.reset)) = some .encoding
      ∧ refusalOf (step (asked 0x09000000 { LaunchArgs.initial with rate := 0 } State.reset)) = some .encoding := by
  decide +kernel

theorem test_faulted_stays :
    faultOf (step (asked 0x05000000 LaunchArgs.initial faulted))
      = some (.stopped ⟨.rateMismatch, 0x03000004⟩) := by decide +kernel

/-- Host memory: a write lands in order and replaces. -/
theorem test_memory :
    Memory.writeByte 4 7 (Memory.writeByte 9 1 (Memory.writeByte 4 2 [])) = [(4, 7), (9, 1)] := by decide

/-! ## Witnesses

For every statement with hypotheses: a state and operands that meet them, clause by clause. -/

/-- An outcome that is a next state with a property. -/
theorem next_with (o : Host.Outcome State Fault Refusal) (p : State → Bool) (h : (nextOf o).any p = true) :
    ∃ t, o = .next t ∧ p t = true := by
  cases o with
  | next t => exact ⟨t, rfl, h⟩
  | fault _ => cases h
  | refused _ => cases h

/-- Every slot of the state may be keyed on or off: slot 3 on, slot 4 off, slot 0 asked for, slot 1 held. -/
def edges : Chip :=
  { State.reset.chip with
    rhythm := true
    rkey := 0x11
    keyMask := 0x2018
    chan := State.reset.chip.chan.set 0 { Channel.initial with key := true }
    slot := (State.reset.chip.slot.set 0 { Slot.initial with ar := 15 }).set 12 { Slot.initial with ar := 12 } }

theorem witness_DecodeOfEncodeIsTheInstruction :
    (Instr.reserved 0xB9 0).wellFormed = true ∧ (Instr.ws 17 0xFF).wellFormed = true := by decide

theorem witness_EncodeOfDecodeIsTheWord :
    decode 0x0100BFFF = some (.reserved 0xBF 0xFF) ∧ decode 0x06003FFF = some (.setMask 0x3FFF) := by decide

theorem witness_WordsOutsideTheFormatAreRefused :
    let s := asked 0x0A000000 LaunchArgs.initial State.powerOn
    s.pending = [⟨0x0A000000, LaunchArgs.initial⟩] ∧ decode 0x0A000000 = none ∧ s.faults = []
      ∧ LaunchArgs.initial.overlaps = false := by decide

theorem witness_StepRunsTheDecodedCommand :
    (asked 0x05000000 LaunchArgs.initial tone).pending = [⟨0x05000000, LaunchArgs.initial⟩]
      ∧ decode 0x05000000 = some .status ∧ State.reset.pending = [] := by decide

theorem witness_TestAndReservedWrites : State.reset.ready := by decide

theorem witness_TimerLatchWritesLeaveTheCounter :
    csmBefore.ready ∧ csmBefore.chip.t1.run = true ∧ csmBefore.chip.t1.pre + 1 = 0 ∧ csmBefore.chip.t1.cnt = 255
      ∧ State.reset.chip.t2.run = false := by decide

theorem witness_IrqResetClearsOnlyTheFlags : csmDuring.ready ∧ csmDuring.chip.t1.flag = true := by decide +kernel

theorem witness_TimerControlWrite : csmBefore.ready ∧ csmBefore.chip.t1.run = true := by decide

theorem witness_ModeWriteSetsCsmAndNts : tone.ready := by decide

theorem witness_RhythmWriteSetsLatchesAndKeys : hiHat.ready := by decide

theorem witness_SlotWritesSetTheirFields : tone.ready := by decide

theorem witness_WaveformWriteNeedsTheEnable :
    ({ State.reset with chip := { State.reset.chip with wse := true } } : State).ready ∧ State.reset.ready
      ∧ State.reset.chip.wse = false ∧ ∃ t, exec (.test 0x20) tone = .next t :=
  ⟨by decide, by decide, by decide, next_of_isSome _ (by decide +kernel)⟩

theorem witness_FnumLowWrite : tone.ready ∧ chanOfSlot 3 = 0 ∧ chanOfSlot 4 ≠ 0 := by decide

theorem witness_KeyBlockWrite : tone.ready ∧ chanOfSlot 17 = 8 ∧ chanOfSlot 12 = 6 := by decide

theorem witness_FeedbackAlgorithmWrite : tone.ready := by decide

theorem witness_EveryRegisterWriteStoresItsValue :
    State.reset.ready ∧ (encode (.ws 17 0xFF)).extractLsb' 24 8 = 0x01
      ∧ (encode (.reserved 0 0)).extractLsb' 24 8 = 0x01 := by decide

/-- Slot 0 rises at rate 15, slot 12 rises in ATTACK, slot 4 falls, slots 3 and 13 stay on, slot 1 stays off. -/
theorem witness_UpdateKeysFiresTheEdges :
    edges.cacheOk ∧ (keyWanted edges 0 ∧ edges.keyMask.getLsbD 0 = false)
      ∧ (keyWanted edges 12 ∧ edges.keyMask.getLsbD 12 = false)
      ∧ (¬ keyWanted edges 4 ∧ edges.keyMask.getLsbD 4 = true) ∧ (keyWanted edges 3 ∧ edges.keyMask.getLsbD 3 = true)
      ∧ (keyWanted edges 13 ∧ edges.keyMask.getLsbD 13 = true)
      ∧ (¬ keyWanted edges 1 ∧ edges.keyMask.getLsbD 1 = false) := by
  refine ⟨?_, ?_, ?_, ?_, ?_, ?_, ?_⟩ <;> decide +kernel

theorem witness_TickMovesCounterLfosAndNoise : State.reset.chip.noise ≠ 0 := by decide

/-- Each envelope state: ATTACK due (AR = 12) and not due (AR = 1), DECAY, SUSTAIN, RELEASE. -/
theorem witness_TickStepsTheEnvelope :
    let st := fun sl => (carrierState sl Channel.initial).chip
    (st (attacking 12)).cacheOk ∧ ((st (attacking 12)).preTick.slotAt 3).egState = .attack
      ∧ (st (attacking 1)).cacheOk ∧ ((st (attacking 1)).preTick.slotAt 3).egState = .attack
      ∧ tone.chip.cacheOk ∧ (tone.chip.preTick.slotAt 3).egState = .decay
      ∧ (st { Slot.initial with egState := .sustain }).cacheOk
      ∧ ((st { Slot.initial with egState := .sustain }).preTick.slotAt 3).egState = .sustain
      ∧ State.reset.chip.cacheOk ∧ (State.reset.chip.preTick.slotAt 3).egState = .release ∧ tone.chip.quiet := by
  refine ⟨?_, ?_, ?_, ?_, ?_, ?_, ?_, ?_, ?_, ?_, ?_⟩ <;> decide +kernel

theorem witness_EnvelopeMovesOneWay :
    let st := fun sl => (carrierState sl Channel.initial).chip
    ((st (attacking 12)).slotAt 3).egOut ≤ 511 ∧ ((st (attacking 12)).preTick.slotAt 3).egState = .attack
      ∧ (tone.chip.slotAt 3).egOut ≤ 511 ∧ (tone.chip.preTick.slotAt 3).egState = .decay
      ∧ (csmDuring.chip.slotAt 3).egOut ≤ 511 ∧ (csmDuring.chip.preTick.slotAt 3).egState = .release
      ∧ ((st { Slot.initial with egState := .sustain }).preTick.slotAt 3).egState = .sustain := by decide +kernel

theorem witness_TickAdvancesThePhase : tone.chip.quiet := by decide

theorem witness_PhaseIncrementIsBounded :
    ({ Channel.initial with fnum := 127 } : Channel).fnum.toNat < 128 := by decide

theorem witness_DecodeIsBoundedAndSilentAtMute :
    511 ≤ 511 ∧ State.reset.chip.quiet ∧ (State.reset.chip.slotAt 17).egState ≠ .attack
      ∧ (State.reset.chip.slotAt 17).egOut = 511 := by decide

theorem witness_SineIsSymmetric : (0 : BitVec 10).toNat < 512 ∧ (511 : BitVec 10).toNat < 512 := by decide

theorem witness_MelodicChannelOutputs :
    (tone.chip.cacheOk ∧ (tone.chip.rhythm = false ∨ (8 : ChanId).val < 7))
      ∧ (hiHat.chip.cacheOk ∧ (hiHat.chip.rhythm = false ∨ (6 : ChanId).val < 7)) := by
  refine ⟨⟨?_, ?_⟩, ?_, ?_⟩ <;> decide +kernel

theorem witness_PercussionVoiceOutputs : hiHat.chip.cacheOk ∧ hiHat.chip.rhythm = true := by decide +kernel

/-- Latch 0xFE over a prescaler of 4 (period 8) and latch 0 over one of 16 (period 4,096). -/
theorem witness_TimerOverflowsAfterItsPeriod :
    let a : Timer 2 := ⟨0xFE, false, true, 0xFE, 0, false⟩
    let b : Timer 4 := ⟨0, true, true, 0, 0, false⟩
    a.run = true ∧ a.cnt = a.latch ∧ a.pre = 0 ∧ 6 + 1 < (256 - a.latch.toNat) * 2 ^ 2
      ∧ b.run = true ∧ b.cnt = b.latch ∧ b.pre = 0 ∧ 4094 + 1 < (256 - b.latch.toNat) * 2 ^ 4
      ∧ State.reset.chip.t1.run = false := by decide

/-- The start of a pulse (slot 3 at attack rate 15, slot 0 at 0), its end with slot 3 unkeyed, a quiet state, and
the flag with the timer masked and unmasked. -/
theorem witness_CsmPulseLastsOneTick :
    csmBefore.chip.cacheOk ∧ csmBefore.chip.timer1Overflows ∧ csmBefore.chip.csm = true
      ∧ csmBefore.chip.csmPulse = false ∧ csmBefore.chip.keyMask.getLsbD 3 = false
      ∧ csmDuring.chip.cacheOk ∧ csmDuring.chip.csmPulse = true
      ∧ ¬(csmDuring.chip.timer1Overflows ∧ csmDuring.chip.csm = true) ∧ csmDuring.chip.keyMask.getLsbD 3 = true
      ∧ ¬ keyWanted { csmDuring.chip with csmPulse := false } 3 ∧ State.reset.chip.quiet
      ∧ csmBefore.chip.t1.mask = false := by
  refine ⟨?_, ?_, ?_, ?_, ?_, ?_, ?_, ?_, ?_, ?_, ?_, ?_⟩ <;> decide +kernel

theorem core_commit (c : Chip) : c.commit.core = c.core := by
  simp [Chip.core, Chip.commit, Chip.mapSlots, Chip.slotAt, commitSlot]

/-- The reset instance and the same instance committed: all flags set and none. -/
theorem witness_DirtyFlagsAreNotObservable :
    State.reset.chip.cacheOk ∧ State.reset.chip.commit.cacheOk ∧ State.reset.chip.core = State.reset.chip.commit.core
      ∧ (State.reset.chip.commit.slotAt 0).dirty ≠ (State.reset.chip.slotAt 0).dirty :=
  ⟨by decide +kernel, by decide +kernel, (core_commit _).symm, by decide +kernel⟩

theorem witness_CalcOnePacesAndReturns :
    (tone.ready ∧ 0 < tone.chip.inpStep ∧ tone.chip.outTime < tone.chip.inpStep ∧ tone.chip.conv = none)
      ∧ (converting.ready ∧ 0 < converting.chip.inpStep ∧ converting.chip.outTime < converting.chip.inpStep
        ∧ converting.chip.conv.isSome = true) := by decide

theorem witness_RenderIsIteratedTicks : 0 < 1 ∧ (render 1 tone.chip).1[0]? = some 809 := by decide +kernel

theorem witness_ResetInstanceRendersSilence : (render 2 (Chip.initial 1 1 false)).1 = [0, 0] := by decide +kernel

/-- A count at `MAX_BATCH` itself. -/
theorem witness_BufferRendersStoreTheSamples :
    let s := { tone with maxBatch := 200 }
    s.ready ∧ s.chip.conv = none ∧ (200 : BitVec 24).toNat ≤ s.maxBatch ∧ s.bufferReady 2 200 ∧ s.bufferReady 4 200 := by
  decide

theorem witness_CalcOneCallsEqualOneRender :
    tone.ready ∧ LaunchArgs.initial.overlaps = false ∧ 3 ≤ 5 ∧ tone.chip.conv = none ∧ tone.chip.outTime = 0
      ∧ tone.chip.outStep = tone.chip.inpStep ∧ 0 < tone.chip.inpStep := by decide

/-- The converter present; and a count one above `MAX_BATCH` without it. -/
theorem witness_BufferRendersRecordTheirFaults :
    let s := { State.reset with maxBatch := 3 }
    converting.ready ∧ converting.chip.conv.isSome = true ∧ converting.bufferReady 2 0 ∧ converting.bufferReady 4 0
      ∧ s.ready ∧ s.chip.conv = none ∧ s.maxBatch < (4 : BitVec 24).toNat ∧ s.bufferReady 2 4 ∧ s.bufferReady 4 4 := by
  decide

theorem witness_FaultedInstanceExecutesNothing : faulted.faults = [⟨.rateMismatch, 0x03000004⟩] := by decide

/-- Each clause: an overlap; a misaligned and a short buffer; a zero rate of `new`; no instance. -/
theorem witness_RefusalsComeInOrder :
    let s := fun a => { State.powerOn with args := a }
    (∀ a, (s a).faults = []) ∧ (s { LaunchArgs.initial with overlaps := true }).args.overlaps = true
      ∧ ¬ (s { LaunchArgs.initial with buf := 1 }).bufferReady 2 0
      ∧ ¬ (s { LaunchArgs.initial with buf := 2 }).bufferReady 4 0
      ∧ ¬ (s { LaunchArgs.initial with bufLen := 1 }).bufferReady 2 2
      ∧ ((s { LaunchArgs.initial with rate := 0 }).args.clock = 0 ∨ (s { LaunchArgs.initial with rate := 0 }).args.rate = 0)
      ∧ (s LaunchArgs.initial).created = false ∧ (s LaunchArgs.initial).bufferReady 2 (2 ^ 24 - 1)
      ∧ (s LaunchArgs.initial).args.overlaps = false :=
  ⟨fun _ => rfl, by decide, by decide, by decide, by decide, by decide, by decide, by decide, by decide⟩

theorem witness_NothingElseFaults :
    tone.faults = [] ∧ tone.chip.paced ∧ (∀ n, Instr.calcOne ≠ .calcBuffer n) ∧ (∀ n, Instr.calcOne ≠ .calcBufferStereo n) :=
  ⟨by decide, by decide, fun _ h => (by cases h), fun _ h => (by cases h)⟩

theorem witness_SetMaskSetsOnlyTheMask : tone.ready := by decide

theorem witness_StatusReturnsTheFlags : csmDuring.ready := by decide +kernel

theorem witness_ResetGivesTheTable : tone.ready ∧ converting.ready := by decide

theorem witness_ResetIsIdempotent :
    (∃ t u, exec .reset csmDuring = .next t ∧ exec .reset t = .next u)
      ∧ (∃ t u, exec .new State.powerOn = .next t ∧ exec .reset t = .next u) := by
  refine ⟨?_, ?_⟩
  · obtain ⟨t, ht, hp⟩ := next_with (exec .reset csmDuring) (fun t => (nextOf (exec .reset t)).isSome) (by decide +kernel)
    obtain ⟨u, hu⟩ := next_of_isSome _ hp
    exact ⟨t, u, ht, hu⟩
  · obtain ⟨t, ht, hp⟩ := next_with (exec .new State.powerOn) (fun t => (nextOf (exec .reset t)).isSome) (by decide +kernel)
    obtain ⟨u, hu⟩ := next_of_isSome _ hp
    exact ⟨t, u, ht, hu⟩

theorem witness_SetRateRebuildsTheConverter : tone.ready ∧ (1 : BitVec 24) ≠ 0 := by decide

theorem witness_NewMakesAResetInstance :
    let s := { State.powerOn with args := { LaunchArgs.initial with clock := 1, rate := 1 } }
    let z := { State.powerOn with args := { LaunchArgs.initial with rate := 0 } }
    (s.faults = [] ∧ s.args.overlaps = false ∧ 0 < s.args.clock ∧ 0 < s.args.rate)
      ∧ z.faults = [] ∧ z.args.overlaps = false ∧ (z.args.clock = 0 ∨ z.args.rate = 0) := by decide

theorem witness_ConverterPutGetAndDelay : 0 < 1 := by decide

/-- An upsampling and a downsampling ratio. -/
theorem witness_KernelIsTheTruncatedRealFormula :
    (0 < 49716 ∧ 0 < 96000 ∧ ¬ 96000 < 49716) ∧ 0 < 44100 ∧ 44100 < 49716 := by decide

theorem witness_StepKeepsTheBounds :
    csmBefore.chip.bounded ∧ ∃ t, step (asked 0x02000000 LaunchArgs.initial csmBefore) = .next t :=
  ⟨by decide +kernel, next_of_isSome _ (by decide +kernel)⟩

theorem witness_StepKeepsThePacing :
    converting.chip.paced ∧ ∃ t, step (asked 0x02000000 LaunchArgs.initial converting) = .next t :=
  ⟨by decide, next_of_isSome _ (by decide +kernel)⟩

theorem witness_StepKeepsTheCacheCoherent :
    csmDuring.chip.cacheOk ∧ ∃ t, step (asked 0x02000000 LaunchArgs.initial csmDuring) = .next t :=
  ⟨by decide +kernel, next_of_isSome _ (by decide +kernel)⟩

theorem witness_StepKeepsTheKeysApplied :
    csmDuring.chip.keysApplied ∧ ∃ t, step (asked 0x0100BD21 LaunchArgs.initial csmDuring) = .next t :=
  ⟨by decide +kernel, next_of_isSome _ (by decide +kernel)⟩

theorem witness_StepKeepsMemoryCanonical :
    let s := asked 0x03000001 LaunchArgs.initial { tone with maxBatch := 200, mem := [(1, 9), (7, 9)] }
    s.mem.wf = true ∧ ∃ t, step s = .next t ∧ decide (t.mem ≠ s.mem) = true :=
  ⟨by decide, next_with _ (fun t => decide (t.mem ≠ _)) (by decide +kernel)⟩

/-- A command that changes each thing the statement names. -/
theorem witness_OnlyTheseCommandsChangeTheConfiguration :
    let s := { tone with args := { LaunchArgs.initial with clock := 7 } }
    (∃ t, exec .new s = .next t ∧ decide (t.chip.clockHz ≠ s.chip.clockHz) = true)
      ∧ (∃ t, exec (.setRate 44100) s = .next t ∧ decide (t.chip.rateHz ≠ s.chip.rateHz) = true)
      ∧ (∃ t, exec (.timer1 9) s = .next t ∧ decide (t.chip.reg ≠ s.chip.reg) = true)
      ∧ (∃ t, exec (.setMask 9) s = .next t ∧ decide (t.chip.muteMask ≠ s.chip.muteMask) = true) :=
  ⟨next_with _ (fun t => decide (t.chip.clockHz ≠ _)) (by decide +kernel),
    next_with _ (fun t => decide (t.chip.rateHz ≠ _)) (by decide +kernel),
    next_with _ (fun t => decide (t.chip.reg ≠ _)) (by decide +kernel),
    next_with _ (fun t => decide (t.chip.muteMask ≠ _)) (by decide +kernel)⟩

end Sys2Proof.Machine
end

section
/-!
PROOFS. The commands of the host as their next states, and the statements of 10_state.md: no command on a
faulted chip (R47), `status` (R33), the derived-field cache (R40 to R42) and the key mask (R31).
-/

namespace Sys2Proof.Machine

/-! ## What a command answers -/

theorem registerWrite_of_faulted {s : State} {e : FaultEntry} {l : List FaultEntry} (h : s.faults = e :: l)
    (a v : Byte) (f : Chip → Chip) : registerWrite a v f s = .fault (.stopped e) :=
  issue_of_faulted h none true _

/-- A command that ends in a next state ran, so it left the chip its meaning says. -/
theorem issue_keeps {P : Chip → Prop} {s t u : State} {own : Option Refusal} {inst : Bool}
    (h : issue s own inst (.next u) = .next t) (hu : P u.chip) : P t.chip := by
  obtain ⟨_, _, _, _, hrun⟩ := issue_eq_next h
  exact Host.Outcome.next.inj hrun ▸ hu

/-- The chip a register write leaves: the byte in the bank, then the write's own fields (R120). -/
theorem registerWrite_keeps {P : Chip → Prop} {s t : State} {a v : Byte} {f : Chip → Chip}
    (h : registerWrite a v f s = .next t) (hf : P (f (s.chip.setReg a v))) : P t.chip :=
  issue_keeps h hf

/-- A step without a command changes nothing; any other is one `exec` on the same chip (R385). -/
theorem step_keeps {P : Chip → Prop} (hexec : ∀ i s t, P s.chip → exec i s = .next t → P t.chip)
    {s t : State} (hs : P s.chip) (h : step s = .next t) : P t.chip := by
  unfold step at h
  split at h
  next => exact Host.Outcome.next.inj h ▸ hs
  next call rest _ =>
    split at h
    next i _ => exact hexec i (s.accept call rest) t hs h
    next =>
      obtain ⟨_, _, hown, _, _⟩ := issue_eq_next h
      cases hown

/-! ## What ticks keep, renders keep (R290, R310 to R312) -/

section Renders
variable {P : Chip → Prop} (htick : ∀ c, P c → P c.tick1)
include htick

/-- `render(n)` is `n` ticks (R290). -/
theorem render_keeps (n : Nat) : ∀ c, P c → P (render n c).2 := by
  induction n with
  | zero => exact fun c hc => hc
  | succ n ih => exact fun c hc => ih c.tick1 (htick c hc)

theorem renderToBuffer_keeps (elem : Sample → List Byte) (n : Nat) (w : Word) {s : State} (hs : P s.chip) :
    P (renderToBuffer elem n w s).chip := by
  unfold renderToBuffer
  split
  · exact hs
  · split
    · exact hs
    · exact render_keeps htick n s.chip hs

theorem execCalcBuffer_keeps {n : BitVec 24} {s t : State} (hs : P s.chip)
    (h : execCalcBuffer n s = .next t) : P t.chip :=
  issue_keeps h (renderToBuffer_keeps htick _ _ _ hs)

theorem execCalcBufferStereo_keeps {n : BitVec 24} {s t : State} (hs : P s.chip)
    (h : execCalcBufferStereo n s = .next t) : P t.chip :=
  issue_keeps h (renderToBuffer_keeps htick _ _ _ hs)

end Renders

theorem paceLoop_keeps {P : Chip → Prop} (hturn : ∀ c, P c → P c.paceTurn) (fuel : Nat) :
    ∀ {c d : Chip}, P c → paceLoop fuel c = some d → P d := by
  induction fuel with
  | zero =>
    intro c d hc h
    unfold paceLoop at h
    split at h
    · cases h
    · exact Option.some.inj h ▸ hc
  | succ fuel ih =>
    intro c d hc h
    unfold paceLoop at h
    split at h
    · exact ih (hturn c hc) h
    · exact Option.some.inj h ▸ hc

/-- `calcOne` answers the chip its pacing loop leaves, with the pacing and the converter advanced (R310). -/
theorem execCalcOne_eq_next {s t : State} (h : execCalcOne s = .next t) :
    ∃ c, paceLoop (s.chip.outStep - s.chip.outTime) s.chip = some c
      ∧ t = (s.setChip c.finishOne.1).setReply (.sample c.finishOne.2) := by
  obtain ⟨_, _, _, _, hrun⟩ := issue_eq_next h
  split at hrun
  next => cases hrun
  next c hc => exact ⟨c, hc, (Host.Outcome.next.inj hrun).symm⟩

/-- Beside its ticks `calcOne` writes the pacing counter and the converter alone (R310). -/
theorem execCalcOne_keeps {P : Chip → Prop} (htick : ∀ c, P c → P c.tick1)
    (htime : ∀ (c : Chip) (t : Nat), P c → P { c with outTime := t })
    (hconv : ∀ (c : Chip) (k : Option Converter), P c → P { c with conv := k })
    {s t : State} (hs : P s.chip) (h : execCalcOne s = .next t) : P t.chip := by
  obtain ⟨c, hloop, rfl⟩ := execCalcOne_eq_next h
  have hc : P c := paceLoop_keeps (fun c hc => hconv _ _ (htick _ (htime c _ hc))) _ hs hloop
  change P c.finishOne.1
  unfold Chip.finishOne
  dsimp only
  split
  · exact htime c _ hc
  · exact hconv _ _ (htime c (c.outTime - c.outStep) hc)

/-! ## A faulted chip, and the status byte (R47, R33) -/

/-- Settles O42: the record is looked at before everything else (R47, R360). -/
theorem faultedInstanceExecutesNothing : Obligations.FaultedInstanceExecutesNothing := by
  intro i s e l h
  cases i with dsimp only [exec, execTimerCtl]
  | irqReset v | test v | timer1 v | timer2 v | timerCtl v | mode v | rhythm v | amVib n v | kslTl n v | arDr n v
  | slRr n v | ws n v | fnumLo ch v | keyBlock ch v | fbAlg ch v | reserved a v =>
    exact registerWrite_of_faulted h _ _ _
  | calcOne | calcBuffer n | calcBufferStereo n | status | setMask m | reset | setRate r | new =>
    exact issue_of_faulted h _ _ _

/-- The bits of the status byte (R33). -/
theorem Chip.statusByte_bits (c : Chip) :
    c.statusByte.getLsbD 7 = (c.t1.flag || c.t2.flag) ∧ c.statusByte.getLsbD 6 = c.t1.flag
      ∧ c.statusByte.getLsbD 5 = c.t2.flag ∧ c.statusByte.extractLsb' 0 5 = 0 := by
  unfold Chip.statusByte Chip.irq
  cases c.t1.flag <;> cases c.t2.flag <;> decide

/-- Settles O46: `status` on a ready state runs, and returns the status byte. -/
theorem statusReturnsTheFlags : Obligations.StatusReturnsTheFlags :=
  fun s hs => ⟨s.chip.statusByte, issue_of_ready hs true _, s.chip.statusByte_bits⟩

/-! ## The cache of one slot (R40 to R42) -/

/-- The derived fields of a slot and its dirty flags. -/
def Slot.cache (sl : Slot) : BitVec 2 × Nat × Nat × Nat × Nat × Nat × Dirty :=
  (sl.wave, sl.tll, sl.rks, sl.egRateH, sl.egRateL, sl.egShift, sl.dirty)

/-- R142: a change to the patch fields, the state, the channel or `nts` keeps the cache coherent when every
derived field whose defining function it changes is flagged. -/
theorem Slot.cacheOk_flagged {nts nts' : Bool} {ch ch' : Channel} {sl sl' : Slot} {d : Dirty} (h : sl.cacheOk nts ch)
    (hcache : sl'.cache = sl.cache)
    (hwave : d.wave = true ∨ sl'.ws = sl.ws)
    (htll : d.tll = true ∨ tllOf ch' sl'.tl sl'.kl = tllOf ch sl.tl sl.kl)
    (hrks : d.rks = true ∨ rksOf nts' ch' sl'.kr = rksOf nts ch sl.kr)
    (hrate : d.egRate = true ∨ d.rks = false ∧ sl'.parameterRate = sl.parameterRate) :
    (sl'.markDirty d).cacheOk nts' ch' := by
  simp only [Slot.cache, Prod.mk.injEq] at hcache
  obtain ⟨ew, et, er, eh, el, es, ed⟩ := hcache
  obtain ⟨ow, ot, or, oe⟩ := h
  refine ⟨fun hf => ?_, fun hf => ?_, fun hf => ?_, fun hf => ?_⟩ <;>
    simp only [Slot.markDirty_dirty, Dirty.or, ed, Bool.or_eq_false_iff] at hf <;>
    obtain ⟨hold, hnew⟩ := hf
  · simpa [ew, ow hold, eq_comm, hnew] using hwave
  · simpa [et, ot hold, eq_comm, hnew] using htll
  · simpa [er, or hold, eq_comm, hnew] using hrks
  · obtain ⟨hr, hp⟩ := hrate.resolve_left (by simp [hnew])
    obtain ⟨oks, ohi, olo, osh⟩ := oe hold
    have hpar : (sl'.markDirty d).parameterRate = sl.parameterRate := hp
    simp only [hpar, Slot.markDirty_dirty, Dirty.or, Slot.markDirty_egRateH, Slot.markDirty_egRateL,
      Slot.markDirty_egShift, Slot.markDirty_rks, ed, er, eh, el, es, oks, hr, Bool.or_self]
    exact ⟨trivial, ohi, olo, osh⟩

section SlotCache
variable {nts : Bool} {ch : Channel} {sl : Slot} (h : sl.cacheOk nts ch)
include h

/-- A state change that flags the rate keeps the cache coherent (R142, R203, R205, R206). -/
theorem Slot.cacheOk_setState (st : EgState) (level : Nat) (phase : BitVec 21) :
    ({ sl with egState := st, egOut := level, phase := phase }.markDirty Dirty.forRate).cacheOk nts ch :=
  Slot.cacheOk_flagged h rfl (.inr rfl) (.inr rfl) (.inr rfl) (.inl rfl)

theorem Slot.cacheOk_commit : (commitSlot nts ch sl).cacheOk nts ch := by
  rw [commitSlot_of_cacheOk h]
  exact recomputed_cacheOk nts ch sl

theorem Slot.cacheOk_slotOn : (slotOn nts ch sl).cacheOk nts ch := by
  have hc := Slot.cacheOk_commit h
  unfold slotOn
  dsimp only
  split
  · exact Slot.cacheOk_setState hc .decay 0 0
  · exact Slot.cacheOk_setState hc .attack sl.egOut 0

theorem Slot.cacheOk_slotOff : (slotOff sl).cacheOk nts ch :=
  Slot.cacheOk_setState h .release sl.egOut sl.phase

theorem Slot.cacheOk_enter (st : EgState) : (sl.enter st).cacheOk nts ch := by
  unfold Slot.enter
  split
  · exact h
  · exact Slot.cacheOk_setState h st sl.egOut sl.phase

theorem Slot.cacheOk_egStep (tick : BitVec 16) : (sl.egStep tick).cacheOk nts ch := by
  unfold Slot.egStep
  dsimp only
  refine Slot.cacheOk_enter ?_ _
  exact h

/-- No derived field reads the output history (R264). -/
theorem Slot.cacheOk_history (o1 o2 : Int) : ({ sl with out2 := o2, out1 := o1 } : Slot).cacheOk nts ch := h

end SlotCache

theorem Chip.cacheOk_keyEdge {c : Chip} {i : SlotId} {sl : Slot} (h : sl.cacheOk c.nts (c.chanFor i)) :
    (c.keyEdge i sl).cacheOk c.nts (c.chanFor i) := by
  rw [Chip.keyEdge_eq]
  split
  · exact h
  · split
    · exact Slot.cacheOk_slotOn h
    · exact Slot.cacheOk_slotOff h

theorem Chip.cacheOk_slotTick {c : Chip} {i : SlotId} {sl : Slot} (h : sl.cacheOk c.nts (c.chanFor i)) :
    (c.slotTick i sl).cacheOk c.nts (c.chanFor i) :=
  Slot.cacheOk_commit (Slot.cacheOk_egStep (Slot.cacheOk_commit h) c.tick)

/-! ## The cache of the chip -/

/-- Coherence reads the slots, the channels and `nts` alone. -/
theorem Chip.cacheOk_congr {c d : Chip} (h : c.cacheOk) (hslot : d.slot = c.slot) (hchan : d.chan = c.chan)
    (hnts : d.nts = c.nts) : d.cacheOk := by
  intro i
  rw [Chip.slotAt_congr hslot, Chip.chanFor, Chip.chanAt_congr hchan, hnts]
  exact h i

theorem Chip.cacheOk_mapSlots {c : Chip} {f : SlotId → Slot → Slot} (h : c.cacheOk)
    (hf : ∀ i sl, sl.cacheOk c.nts (c.chanFor i) → (f i sl).cacheOk c.nts (c.chanFor i)) :
    (c.mapSlots f).cacheOk := by
  intro i
  rw [Chip.slotAt_mapSlots, Chip.chanFor_mapSlots, Chip.mapSlots_nts]
  exact hf i _ (h i)

theorem Chip.cacheOk_updSlot {c : Chip} {j : SlotId} {f : Slot → Slot} (h : c.cacheOk)
    (hf : (c.slotAt j).cacheOk c.nts (c.chanFor j) → (f (c.slotAt j)).cacheOk c.nts (c.chanFor j)) :
    (c.updSlot j f).cacheOk := by
  intro i
  rw [Chip.slotAt_updSlot, Chip.chanFor_updSlot]
  split
  next hij => exact hij ▸ hf (h j)
  next => exact h i

theorem Chip.cacheOk_updateKeys {c : Chip} (h : c.cacheOk) : c.updateKeys.cacheOk := by
  intro i
  rw [Chip.slotAt_updateKeys, Chip.updateKeys_nts, Chip.chanFor, Chip.chanAt_congr (Chip.updateKeys_chan c)]
  exact Chip.cacheOk_keyEdge (h i)

/-- A channel write that marks its two slots for a new pitch keeps the cache coherent (R131, R132). -/
theorem Chip.cacheOk_pitch {c : Chip} (h : c.cacheOk) (ch : ChanId) (f : Channel → Channel) :
    ((c.updChan ch f).markChanDirty ch Dirty.forPitch).cacheOk := by
  intro i
  rw [Chip.slotAt_markChanDirty, Chip.slotAt_updChan, Chip.chanFor_markChanDirty, Chip.markChanDirty_nts,
    Chip.updChan_nts, Chip.chanFor, Chip.chanAt_updChan]
  split
  next => exact Slot.cacheOk_flagged (h i) rfl (.inr rfl) (.inl rfl) (.inl rfl) (.inl rfl)
  next => exact h i

/-- The derived fields read fnum and block of the channel alone. -/
theorem Slot.cacheOk_chan {nts : Bool} {ch ch' : Channel} {sl : Slot} (h : sl.cacheOk nts ch)
    (hfnum : ch'.fnum = ch.fnum) (hblock : ch'.block = ch.block) : sl.cacheOk nts ch' := by
  simpa only [Slot.cacheOk, tllOf, rksOf, hfnum, hblock] using h

/-- A channel write that keeps fnum and block flags nothing (R134). -/
theorem Chip.cacheOk_updChan {c : Chip} (h : c.cacheOk) (ch : ChanId) {f : Channel → Channel}
    (hfnum : ∀ k, (f k).fnum = k.fnum) (hblock : ∀ k, (f k).block = k.block) : (c.updChan ch f).cacheOk := by
  intro i
  rw [Chip.slotAt_updChan, Chip.chanFor, Chip.chanAt_updChan]
  split
  next hch =>
    exact Slot.cacheOk_chan (h i) (by rw [hfnum, ← hch, Chip.chanFor]) (by rw [hblock, ← hch, Chip.chanFor])
  next => exact h i

theorem Chip.cacheOk_lfoStep {c : Chip} (h : c.cacheOk) : c.lfoStep.cacheOk := Chip.cacheOk_congr h rfl rfl rfl
theorem Chip.cacheOk_noiseStep {c : Chip} (h : c.cacheOk) : c.noiseStep.cacheOk := Chip.cacheOk_congr h rfl rfl rfl
theorem Chip.cacheOk_timer2Step {c : Chip} (h : c.cacheOk) : c.timer2Step.cacheOk := Chip.cacheOk_congr h rfl rfl rfl

theorem Chip.cacheOk_csmRelease {c : Chip} (h : c.cacheOk) : c.csmRelease.cacheOk := by
  unfold Chip.csmRelease
  split
  · exact Chip.cacheOk_updateKeys (Chip.cacheOk_congr h rfl rfl rfl)
  · exact h

theorem Chip.cacheOk_timer1Step {c : Chip} (h : c.cacheOk) : c.timer1Step.cacheOk := by
  unfold Chip.timer1Step
  dsimp only
  split
  · exact Chip.cacheOk_updateKeys (Chip.cacheOk_congr h rfl rfl rfl)
  · exact Chip.cacheOk_congr h rfl rfl rfl

theorem Chip.cacheOk_commit {c : Chip} (h : c.cacheOk) : c.commit.cacheOk := by
  unfold Chip.commit
  exact Chip.cacheOk_mapSlots h fun _ _ => Slot.cacheOk_commit

theorem Chip.cacheOk_preTick {c : Chip} (h : c.cacheOk) : c.preTick.cacheOk := by
  unfold Chip.preTick Chip.timerStep
  exact Chip.cacheOk_noiseStep (Chip.cacheOk_timer2Step (Chip.cacheOk_timer1Step
    (Chip.cacheOk_csmRelease (Chip.cacheOk_lfoStep (Chip.cacheOk_commit h)))))

theorem Chip.cacheOk_slotsTick {c : Chip} (h : c.cacheOk) : c.slotsTick.cacheOk := by
  unfold Chip.slotsTick
  exact Chip.cacheOk_mapSlots h fun _ _ => Chip.cacheOk_slotTick

/-- The cache when step 5 of a tick begins (R291). -/
theorem Chip.cacheOk_atOutputs {c : Chip} (h : c.cacheOk) : c.atOutputs.cacheOk := by
  unfold Chip.atOutputs
  exact Chip.cacheOk_slotsTick (Chip.cacheOk_preTick h)

theorem Chip.cacheOk_tick1 (c : Chip) (h : c.cacheOk) : c.tick1.cacheOk := by
  intro i
  have hi := Chip.cacheOk_atOutputs h i
  rw [Chip.atOutputs_nts, Chip.atOutputs_chanFor] at hi
  rw [Chip.tick1_nts, Chip.tick1_chanFor, Chip.slotAt_tick1]
  exact Slot.cacheOk_history hi _ _

/-- After reset every derived field is flagged (R401). -/
theorem Chip.cacheOk_initial (clock rate : Nat) (conv : Bool) : (Chip.initial clock rate conv).cacheOk := by
  intro i
  have hi : (Chip.initial clock rate conv).slotAt i = Slot.initial := Vector.getElem_replicate _
  rw [hi]
  exact ⟨nofun, nofun, nofun, nofun⟩

theorem exec_keeps_cacheOk (i : Instr) (s t : State) (hs : s.chip.cacheOk) (h : exec i s = .next t) :
    t.chip.cacheOk := by
  have hreg (a v : Byte) : (s.chip.setReg a v).cacheOk := hs
  cases i with dsimp only [exec, execTimerCtl] at h
  | irqReset v | test v | timer1 v | timer2 v | timerCtl v | reserved a v =>
    exact registerWrite_keeps (P := Chip.cacheOk) h (Chip.cacheOk_congr hs rfl rfl rfl)
  | mode v =>
    refine registerWrite_keeps (P := Chip.cacheOk) h fun i => ?_
    rw [Chip.slotAt_mapSlots]
    exact Slot.cacheOk_flagged (hs i) rfl (.inr rfl) (.inr rfl) (.inl rfl) (.inl rfl)
  | rhythm v =>
    exact registerWrite_keeps (P := Chip.cacheOk) h (Chip.cacheOk_updateKeys (Chip.cacheOk_congr hs rfl rfl rfl))
  | amVib n v =>
    exact registerWrite_keeps (P := Chip.cacheOk) h (Chip.cacheOk_updSlot (hreg _ _) fun hn =>
      Slot.cacheOk_flagged hn rfl (.inr rfl) (.inr rfl) (.inl rfl) (.inl rfl))
  | kslTl n v =>
    exact registerWrite_keeps (P := Chip.cacheOk) h (Chip.cacheOk_updSlot (hreg _ _) fun hn =>
      Slot.cacheOk_flagged hn rfl (.inr rfl) (.inl rfl) (.inr rfl) (.inr ⟨rfl, rfl⟩))
  | arDr n v | slRr n v =>
    exact registerWrite_keeps (P := Chip.cacheOk) h (Chip.cacheOk_updSlot (hreg _ _) fun hn =>
      Slot.cacheOk_flagged hn rfl (.inr rfl) (.inr rfl) (.inr rfl) (.inl rfl))
  | ws n v =>
    refine registerWrite_keeps (P := Chip.cacheOk) h ?_
    split
    · exact Chip.cacheOk_updSlot (hreg _ _) fun hn =>
        Slot.cacheOk_flagged hn rfl (.inl rfl) (.inr rfl) (.inr rfl) (.inr ⟨rfl, rfl⟩)
    · exact hs
  | fnumLo ch v => exact registerWrite_keeps (P := Chip.cacheOk) h (Chip.cacheOk_pitch (hreg _ _) ch _)
  | keyBlock ch v =>
    exact registerWrite_keeps (P := Chip.cacheOk) h (Chip.cacheOk_updateKeys (Chip.cacheOk_pitch (hreg _ _) ch _))
  | fbAlg ch v =>
    exact registerWrite_keeps (P := Chip.cacheOk) h
      (Chip.cacheOk_updChan (hreg _ _) ch (fun _ => rfl) (fun _ => rfl))
  | calcOne =>
    exact execCalcOne_keeps (P := Chip.cacheOk) Chip.cacheOk_tick1
      (fun _ _ hc => Chip.cacheOk_congr hc rfl rfl rfl)
      (fun _ _ hc => Chip.cacheOk_congr hc rfl rfl rfl) hs h
  | calcBuffer n => exact execCalcBuffer_keeps (P := Chip.cacheOk) Chip.cacheOk_tick1 hs h
  | calcBufferStereo n => exact execCalcBufferStereo_keeps (P := Chip.cacheOk) Chip.cacheOk_tick1 hs h
  | status | setMask m | setRate r =>
    exact issue_keeps (P := Chip.cacheOk) h (Chip.cacheOk_congr hs rfl rfl rfl)
  | reset =>
    exact issue_keeps (P := Chip.cacheOk) h
      (Chip.cacheOk_congr (Chip.cacheOk_initial s.chip.clockHz s.chip.rateHz s.chip.conv.isSome) rfl rfl rfl)
  | new => exact issue_keeps (P := Chip.cacheOk) h (Chip.cacheOk_initial _ _ _)

/-- Settles O57: every command flags the derived fields whose defining functions it changes. -/
theorem stepKeepsTheCacheCoherent : Obligations.StepKeepsTheCacheCoherent :=
  fun _ _ hs h => step_keeps (P := Chip.cacheOk) exec_keeps_cacheOk hs h

/-! ## The key mask (R31, R140) -/

/-- The desired keys read the channels' key bits, the rhythm latches and the pulse (R140). -/
theorem Chip.wantMask_congr_key {c d : Chip} (hkey : ∀ ch, (c.chanAt ch).key = (d.chanAt ch).key)
    (hpulse : c.csmPulse = d.csmPulse) (hrhythm : c.rhythm = d.rhythm) (hrkey : c.rkey = d.rkey) :
    c.wantMask = d.wantMask := by
  unfold Chip.wantMask
  refine congrArg _ (funext fun i => ?_)
  simp only [Chip.wantsKey, Chip.chanFor, hkey, hpulse, hrhythm, hrkey]

theorem Chip.keysApplied_congr {c d : Chip} (h : c.keysApplied) (hmask : d.keyMask = c.keyMask)
    (hkey : ∀ ch, (d.chanAt ch).key = (c.chanAt ch).key) (hpulse : d.csmPulse = c.csmPulse)
    (hrhythm : d.rhythm = c.rhythm) (hrkey : d.rkey = c.rkey) : d.keysApplied := by
  unfold Chip.keysApplied
  rw [hmask, Chip.wantMask_congr_key hkey hpulse hrhythm hrkey]
  exact h

/-- A key update applies the desired keys, whatever was applied before. -/
theorem Chip.keysApplied_updateKeys (c : Chip) : c.updateKeys.keysApplied := by
  rw [Chip.keysApplied, Chip.updateKeys_keyMask, Chip.updateKeys_wantMask]

theorem Chip.keysApplied_mapSlots {c : Chip} (h : c.keysApplied) (f : SlotId → Slot → Slot) :
    (c.mapSlots f).keysApplied := by
  rw [Chip.keysApplied, Chip.mapSlots_keyMask, Chip.wantMask_congr (Chip.mapSlots_chan c f)
    (Chip.mapSlots_csmPulse c f) (Chip.mapSlots_rhythm c f) (Chip.mapSlots_rkey c f)]
  exact h

theorem Chip.keysApplied_markChanDirty {c : Chip} (h : c.keysApplied) (ch : ChanId) (d : Dirty) :
    (c.markChanDirty ch d).keysApplied := by
  rw [Chip.keysApplied, Chip.markChanDirty_keyMask, Chip.wantMask_congr (Chip.markChanDirty_chan c ch d)
    (Chip.markChanDirty_csmPulse c ch d) (Chip.markChanDirty_rhythm c ch d) (Chip.markChanDirty_rkey c ch d)]
  exact h

theorem Chip.keysApplied_lfoStep {c : Chip} (h : c.keysApplied) : c.lfoStep.keysApplied := h
theorem Chip.keysApplied_noiseStep {c : Chip} (h : c.keysApplied) : c.noiseStep.keysApplied := h
theorem Chip.keysApplied_timer2Step {c : Chip} (h : c.keysApplied) : c.timer2Step.keysApplied := h

theorem Chip.keysApplied_csmRelease {c : Chip} (h : c.keysApplied) : c.csmRelease.keysApplied := by
  unfold Chip.csmRelease
  split
  · exact Chip.keysApplied_updateKeys _
  · exact h

theorem Chip.keysApplied_timer1Step {c : Chip} (h : c.keysApplied) : c.timer1Step.keysApplied := by
  unfold Chip.timer1Step
  dsimp only
  split
  · exact Chip.keysApplied_updateKeys _
  · exact h

theorem Chip.keysApplied_preTick {c : Chip} (h : c.keysApplied) : c.preTick.keysApplied := by
  have hcommit : c.commit.keysApplied := by
    unfold Chip.commit
    exact Chip.keysApplied_mapSlots h _
  unfold Chip.preTick Chip.timerStep
  exact Chip.keysApplied_noiseStep (Chip.keysApplied_timer2Step (Chip.keysApplied_timer1Step
    (Chip.keysApplied_csmRelease (Chip.keysApplied_lfoStep hcommit))))

theorem Chip.keysApplied_tick1 (c : Chip) (h : c.keysApplied) : c.tick1.keysApplied := by
  obtain ⟨_, _, _, _, _, hpulse, hmask⟩ := c.tick1_eq_preTick
  have hchan : c.tick1.chan = c.preTick.chan := by rw [Chip.tick1_chan, Chip.preTick_chan]
  exact Chip.keysApplied_congr (Chip.keysApplied_preTick h) hmask (fun ch => by rw [Chip.chanAt_congr hchan]) hpulse
    (by rw [Chip.tick1_rhythm, Chip.preTick_rhythm]) (by rw [Chip.tick1_rkey, Chip.preTick_rkey])

/-- After reset no key is asked for and none applied (R401). -/
theorem Chip.keysApplied_initial (clock rate : Nat) (conv : Bool) : (Chip.initial clock rate conv).keysApplied := by
  have h0 : (Chip.initial 0 0 false).keysApplied := by decide
  exact Chip.keysApplied_congr h0 rfl (fun _ => rfl) rfl rfl rfl

theorem Chip.keysApplied_updChan {c : Chip} (h : c.keysApplied) (ch : ChanId) {f : Channel → Channel}
    (hf : ∀ k, (f k).key = k.key) : (c.updChan ch f).keysApplied := by
  refine Chip.keysApplied_congr h rfl (fun i => ?_) rfl rfl rfl
  rw [Chip.chanAt_updChan]
  split
  next hi => rw [hf, hi]
  next => rfl

theorem exec_keeps_keysApplied (i : Instr) (s t : State) (hs : s.chip.keysApplied) (h : exec i s = .next t) :
    t.chip.keysApplied := by
  have hreg (a v : Byte) : (s.chip.setReg a v).keysApplied := hs
  cases i with dsimp only [exec, execTimerCtl] at h
  | irqReset v | test v | timer1 v | timer2 v | timerCtl v | reserved a v | mode v
  | amVib n v | kslTl n v | arDr n v | slRr n v =>
    exact registerWrite_keeps (P := Chip.keysApplied) h
      (Chip.keysApplied_congr hs rfl (fun _ => rfl) rfl rfl rfl)
  | rhythm v | keyBlock ch v =>
    exact registerWrite_keeps (P := Chip.keysApplied) h (Chip.keysApplied_updateKeys _)
  | ws n v =>
    refine registerWrite_keeps (P := Chip.keysApplied) h ?_
    split <;> exact hs
  | fnumLo ch v =>
    refine registerWrite_keeps (P := Chip.keysApplied) h (Chip.keysApplied_markChanDirty ?_ ch _)
    exact Chip.keysApplied_updChan (hreg _ _) ch fun _ => rfl
  | fbAlg ch v =>
    exact registerWrite_keeps (P := Chip.keysApplied) h
      (Chip.keysApplied_updChan (hreg _ _) ch fun _ => rfl)
  | calcOne =>
    exact execCalcOne_keeps (P := Chip.keysApplied) Chip.keysApplied_tick1 (fun _ _ hc => hc) (fun _ _ hc => hc) hs h
  | calcBuffer n => exact execCalcBuffer_keeps (P := Chip.keysApplied) Chip.keysApplied_tick1 hs h
  | calcBufferStereo n => exact execCalcBufferStereo_keeps (P := Chip.keysApplied) Chip.keysApplied_tick1 hs h
  | status | setMask m | setRate r =>
    exact issue_keeps (P := Chip.keysApplied) h hs
  | reset =>
    exact issue_keeps (P := Chip.keysApplied) h
      (Chip.keysApplied_initial s.chip.clockHz s.chip.rateHz s.chip.conv.isSome)
  | new => exact issue_keeps (P := Chip.keysApplied) h (Chip.keysApplied_initial _ _ _)

/-- Settles O58: a command that changes a wanted key updates the keys, and no other touches either side. -/
theorem stepKeepsTheKeysApplied : Obligations.StepKeepsTheKeysApplied :=
  fun _ _ hs h => step_keeps (P := Chip.keysApplied) exec_keeps_keysApplied hs h

/-! ## The cache shows in no output (R40, R42) -/

theorem Chip.mapSlots_congr {c : Chip} {f g : SlotId → Slot → Slot}
    (h : ∀ i, f i (c.slotAt i) = g i (c.slotAt i)) : c.mapSlots f = c.mapSlots g := by
  unfold Chip.mapSlots
  rw [funext h]

theorem Chip.mapSlots_mapSlots (c : Chip) (f g : SlotId → Slot → Slot) :
    (c.mapSlots f).mapSlots g = c.mapSlots fun i sl => g i (f i sl) := by
  cases c
  simp [Chip.mapSlots, Chip.slotAt]

/-- The commit of a coherent chip recomputes every derived field from the fields `core` keeps (R42). -/
theorem Chip.commit_eq_of_core {c : Chip} (h : c.cacheOk) :
    c.commit = c.core.mapSlots fun i sl => sl.recomputed c.core.nts (c.core.chanFor i) := by
  unfold Chip.commit Chip.core
  rw [Chip.mapSlots_mapSlots]
  refine Chip.mapSlots_congr fun i => ?_
  rw [commitSlot_of_cacheOk (h i), Chip.chanFor_mapSlots, Chip.mapSlots_nts]
  rfl

/-- A tick begins with a commit, so it reads a coherent chip through its core (R291). -/
theorem Chip.tick1_eq_of_core {c d : Chip} (hc : c.cacheOk) (hd : d.cacheOk) (h : c.core = d.core) :
    c.tick1 = d.tick1 := by
  have hcommit : c.commit = d.commit := by
    rw [Chip.commit_eq_of_core hc, Chip.commit_eq_of_core hd, h]
  unfold Chip.tick1 Chip.preTick
  rw [hcommit]

/-- Settles O34: the first tick makes the two chips one. -/
theorem dirtyFlagsAreNotObservable : Obligations.DirtyFlagsAreNotObservable := by
  intro n c d hc hd h
  cases n with
  | zero => exact ⟨rfl, fun h0 => absurd h0 (Nat.lt_irrefl 0)⟩
  | succ n =>
    unfold render
    rw [Chip.tick1_eq_of_core hc hd h]
    exact ⟨rfl, fun _ => rfl⟩

end Sys2Proof.Machine
end

section
/-!
PROOFS. The statements of 20_memory.md: what a buffer render stores (R63, R64), and that host memory keeps
its canonical form and is changed by nothing else.
-/

namespace Sys2Proof.Machine

/-! ## The next state of a step and of a buffer render -/

/-- What a step that ends in a next state did: nothing without a command, else the decoded command (R385). -/
theorem step_eq_next {s t : State} (h : step s = .next t) :
    s.pending = [] ∧ t = s
      ∨ ∃ call rest i, s.pending = call :: rest ∧ decode call.word = some i
          ∧ exec i (s.accept call rest) = .next t := by
  unfold step at h
  split at h
  next hp => exact .inl ⟨hp, (Host.Outcome.next.inj h).symm⟩
  next call rest hp =>
    split at h
    next i hd => exact .inr ⟨call, rest, i, hp, hd, h⟩
    next =>
      obtain ⟨_, _, hown, _, _⟩ := issue_eq_next h
      cases hown

/-- A command whose run is a next state ends in that one or in none. -/
theorem issue_next_eq_next {s t u : State} {own : Option Refusal} {inst : Bool}
    (h : issue s own inst (.next u) = .next t) : t = u := by
  obtain ⟨_, _, _, _, hrun⟩ := issue_eq_next h
  exact (Host.Outcome.next.inj hrun).symm

/-- A buffer render with a valid buffer runs on a ready state (R65, R364). -/
theorem issue_of_bufferReady {s : State} (hs : s.ready) {elemBytes n : Nat} (hb : s.bufferReady elemBytes n)
    (run : Host.Outcome State Fault Refusal) : issue s (bufferRefusal s.args elemBytes n) true run = run := by
  have hown : bufferRefusal s.args elemBytes n = none := by
    obtain ⟨halign, hlen⟩ := hb
    simp [bufferRefusal, bufferOk, halign, hlen]
  rw [hown]
  exact issue_of_ready hs true run

/-- The state of a buffer render that meets no fault: the chip ticked, the samples stored (R311, R312). -/
def State.rendered (s : State) (elem : Sample → List Byte) (n : Nat) : State :=
  { s with
    chip := (render n s.chip).2
    mem := Memory.storeElems s.args.buf ((render n s.chip).1.map elem) s.mem }

theorem renderToBuffer_of_no_fault (elem : Sample → List Byte) {n : Nat} (w : Word) {s : State}
    (hconv : s.chip.conv = none) (hn : n ≤ s.maxBatch) : renderToBuffer elem n w s = s.rendered elem n := by
  simp [renderToBuffer, State.rendered, hconv, Nat.not_lt.2 hn]

section Ready
variable {n : BitVec 24} {s : State} (hs : s.ready) (hconv : s.chip.conv = none) (hn : n.toNat ≤ s.maxBatch)
include hs hconv hn

theorem exec_calcBuffer_of_ready (hb : s.bufferReady 2 n.toNat) :
    exec (.calcBuffer n) s = .next (s.rendered sampleLE n.toNat) := by
  rw [← renderToBuffer_of_no_fault sampleLE (encode (.calcBuffer n)) hconv hn]
  exact issue_of_bufferReady hs hb _

theorem exec_calcBufferStereo_of_ready (hb : s.bufferReady 4 n.toNat) :
    exec (.calcBufferStereo n) s = .next (s.rendered frameLE n.toNat) := by
  rw [← renderToBuffer_of_no_fault frameLE (encode (.calcBufferStereo n)) hconv hn]
  exact issue_of_bufferReady hs hb _

end Ready

/-- No tick moves the pacing counter. -/
theorem render_outTime (n : Nat) (c : Chip) : (render n c).2.outTime = c.outTime :=
  render_keeps (P := fun d => d.outTime = c.outTime) (fun d hd => (Chip.tick1_outTime d).trans hd) n c rfl

/-! ## The stored samples (R63, R64) -/

section Stored
variable {elem : Sample → List Byte} {k : Nat} (hk : ∀ x, (elem x).length = k)
include hk

/-- Byte `j` of the element at index `i` stands at `a + k * i + j`. -/
theorem readByte_storeElems_map {xs : List Sample} {i j : Nat} {x : Sample} (hx : xs[i]? = some x) (hj : j < k)
    (a : Nat) (m : Memory) :
    Memory.readByte (a + k * i + j) (Memory.storeElems a (xs.map elem) m) = (elem x)[j]? := by
  refine Memory.readByte_storeElems k _ a i j (elem x) m ?_ (by simp [hx]) hj
  simp [hk]

/-- Nothing but the `k` bytes of each of the `n` samples is written. -/
theorem readByte_storeElems_render_outside {n a x : Nat} (c : Chip) (hx : x < a ∨ a + k * n ≤ x) (m : Memory) :
    Memory.readByte x (Memory.storeElems a ((render n c).1.map elem) m) = Memory.readByte x m := by
  refine Memory.readByte_storeElems_outside k _ a x m ?_ ?_
  · simp [hk]
  · rwa [List.length_map, render_length]

end Stored

theorem sampleLE_length (x : Sample) : (sampleLE x).length = 2 := by rw [sampleLE_eq]; rfl
theorem frameLE_length (x : Sample) : (frameLE x).length = 4 := by rw [frameLE_eq]; rfl

/-- The two bytes of a stored sample. -/
theorem readByte_storeSamples {xs : List Sample} {i : Nat} {x : Sample} (hx : xs[i]? = some x) (a : Nat) (m : Memory) :
    Memory.readByte (a + 2 * i) (Memory.storeElems a (xs.map sampleLE) m) = some (x.extractLsb' 0 8)
      ∧ Memory.readByte (a + 2 * i + 1) (Memory.storeElems a (xs.map sampleLE) m) = some (x.extractLsb' 8 8) := by
  have hread (j : Nat) (hj : j < 2) := readByte_storeElems_map sampleLE_length hx hj a m
  rw [sampleLE_eq] at hread
  exact ⟨hread 0 (by decide), hread 1 (by decide)⟩

/-- The four bytes of a stored stereo frame: left, then right, each low byte first. -/
theorem readByte_storeFrames {xs : List Sample} {i : Nat} {x : Sample} (hx : xs[i]? = some x) (a : Nat) (m : Memory) :
    Memory.readByte (a + 4 * i) (Memory.storeElems a (xs.map frameLE) m) = some (x.extractLsb' 0 8)
      ∧ Memory.readByte (a + 4 * i + 1) (Memory.storeElems a (xs.map frameLE) m) = some (x.extractLsb' 8 8)
      ∧ Memory.readByte (a + 4 * i + 2) (Memory.storeElems a (xs.map frameLE) m) = some (x.extractLsb' 0 8)
      ∧ Memory.readByte (a + 4 * i + 3) (Memory.storeElems a (xs.map frameLE) m) = some (x.extractLsb' 8 8) := by
  have hread (j : Nat) (hj : j < 4) := readByte_storeElems_map frameLE_length hx hj a m
  rw [frameLE_eq] at hread
  exact ⟨hread 0 (by decide), hread 1 (by decide), hread 2 (by decide), hread 3 (by decide)⟩

/-- Settles O39: both renders run the same ticks and differ only in the bytes of an element. -/
theorem bufferRendersStoreTheSamples : Obligations.BufferRendersStoreTheSamples := by
  intro n s hs hconv hn
  exact ⟨fun hb => ⟨_, exec_calcBuffer_of_ready hs hconv hn hb, rfl, fun _ _ hx => readByte_storeSamples hx _ _,
      fun _ ha => readByte_storeElems_render_outside sampleLE_length _ ha _, render_outTime _ _⟩,
    fun hb => ⟨_, exec_calcBufferStereo_of_ready hs hconv hn hb, rfl, fun _ _ hx => readByte_storeFrames hx _ _,
      fun _ ha => readByte_storeElems_render_outside frameLE_length _ ha _, render_outTime _ _⟩⟩

/-! ## What changes host memory (R63) -/

/-- A buffer render leaves memory as it was, when it faults, or with elements stored from `buf` on. -/
theorem renderToBuffer_mem (elem : Sample → List Byte) (n : Nat) (w : Word) (s : State) :
    (renderToBuffer elem n w s).mem = s.mem
      ∨ ∃ es, (renderToBuffer elem n w s).mem = Memory.storeElems s.args.buf es s.mem := by
  unfold renderToBuffer
  split
  · exact .inl rfl
  · split
    · exact .inl rfl
    · exact .inr ⟨_, rfl⟩

/-- A render's memory is in canonical form when it began so. -/
theorem renderToBuffer_mem_wf (elem : Sample → List Byte) (n : Nat) (w : Word) {s : State} (hs : s.mem.wf = true) :
    (renderToBuffer elem n w s).mem.wf = true := by
  obtain h | ⟨es, h⟩ := renderToBuffer_mem elem n w s
  · rwa [h]
  · rw [h]
    exact Memory.wf_storeElems es _ hs

/-- A command whose run writes no memory leaves it alone. -/
theorem issue_keeps_mem {s t u : State} {own : Option Refusal} {inst : Bool}
    (h : issue s own inst (.next u) = .next t) (hu : u.mem = s.mem) : t.mem = s.mem := by
  rw [issue_next_eq_next h, hu]

/-- No register write touches memory (R120). -/
theorem registerWrite_keeps_mem {s t : State} {a v : Byte} {f : Chip → Chip} (h : registerWrite a v f s = .next t) :
    t.mem = s.mem := by
  rw [registerWrite_eq_next h, State.setChip_mem]

/-- A command leaves memory alone, or is one of the two buffer renders and leaves what that stores. -/
theorem exec_mem (i : Instr) (s t : State) (h : exec i s = .next t) :
    t.mem = s.mem
      ∨ ∃ n elem, (i = .calcBuffer n ∨ i = .calcBufferStereo n) ∧ t = renderToBuffer elem n.toNat (encode i) s := by
  cases i with dsimp only [exec, execTimerCtl] at h
  | irqReset v | test v | timer1 v | timer2 v | timerCtl v | mode v | rhythm v | amVib n v | kslTl n v | arDr n v
  | slRr n v | ws n v | fnumLo ch v | keyBlock ch v | fbAlg ch v | reserved a v =>
    exact .inl (registerWrite_keeps_mem h)
  | calcOne =>
    obtain ⟨c, -, rfl⟩ := execCalcOne_eq_next h
    exact .inl rfl
  | calcBuffer n => exact .inr ⟨n, sampleLE, .inl rfl, issue_next_eq_next h⟩
  | calcBufferStereo n => exact .inr ⟨n, frameLE, .inr rfl, issue_next_eq_next h⟩
  | status | setMask m | reset | setRate r | new => exact .inl (issue_keeps_mem h rfl)

/-- Settles O59: the one command a step runs stores through `writeByte` or not at all. -/
theorem stepKeepsMemoryCanonical : Obligations.StepKeepsMemoryCanonical := by
  intro s t hs h
  obtain ⟨-, rfl⟩ | ⟨call, rest, i, hp, hd, hexec⟩ := step_eq_next h
  · exact ⟨hs, fun hne => absurd rfl hne⟩
  · obtain hmem | ⟨n, elem, hi, rfl⟩ := exec_mem i _ t hexec
    · rw [State.accept_mem] at hmem
      exact ⟨hmem ▸ hs, fun hne => absurd hmem hne⟩
    · refine ⟨renderToBuffer_mem_wf elem _ _ hs, fun _ => ⟨call, rest, n, hp, ?_⟩⟩
      obtain rfl | rfl := hi
      · exact .inl hd
      · exact .inr hd

end Sys2Proof.Machine
end

section
/-!
PROOFS. The statements of 40_register_writes.md, sections 2 to 4: the next state of each class of register
write on a ready state. `show` names the meaning `exec` calls; `registerWrite_of_ready` gives its state; what is
left is the address of the write, the dirty flags it ORs in, and the `fnum` it assembles.
-/

namespace Sys2Proof.Machine

/-! ## The dirty flags a write ORs in (R41) -/

theorem Slot.markDirty_forWave (sl : Slot) :
    sl.markDirty Dirty.forWave = { sl with dirty := { sl.dirty with wave := true } } := by
  simp [Slot.markDirty, Dirty.or, Dirty.forWave]

theorem Slot.markDirty_forTll (sl : Slot) :
    sl.markDirty Dirty.forTll = { sl with dirty := { sl.dirty with tll := true } } := by
  simp [Slot.markDirty, Dirty.or, Dirty.forTll]

theorem Slot.markDirty_forRate (sl : Slot) :
    sl.markDirty Dirty.forRate = { sl with dirty := { sl.dirty with egRate := true } } := by
  simp [Slot.markDirty, Dirty.or, Dirty.forRate]

theorem Slot.markDirty_forKeyScale (sl : Slot) :
    sl.markDirty Dirty.forKeyScale = { sl with dirty := { sl.dirty with rks := true, egRate := true } } := by
  simp [Slot.markDirty, Dirty.or, Dirty.forKeyScale]

theorem Slot.markDirty_forPitch (sl : Slot) :
    sl.markDirty Dirty.forPitch
      = { sl with dirty := { sl.dirty with tll := true, rks := true, egRate := true } } := by
  simp [Slot.markDirty, Dirty.or, Dirty.forPitch]

/-! ## Chip-wide writes (R121 to R126, R133, R136) -/

/-- Settles O11: the mode write marks every slot for a new key scale. -/
theorem modeWriteSetsCsmAndNts : Obligations.ModeWriteSetsCsmAndNts := by
  intro v s hs
  refine ⟨_, show execMode v s = _ from registerWrite_of_ready hs _ _ _, rfl, fun i => ?_⟩
  rw [State.setChip_chip, Chip.slotAt_mapSlots, Slot.markDirty_forKeyScale]
  rfl

/-- Settles O7: each write leaves the bank entry and at most `wse` changed. -/
theorem testAndReservedWrites : Obligations.TestAndReservedWrites :=
  ⟨fun v s hs => show execTest v s = _ from registerWrite_of_ready hs _ _ _,
    fun a v s hs => show execReserved a v s = _ from registerWrite_of_ready hs _ _ _⟩

/-- The counter takes the latch at an overflow (R371). -/
theorem Timer.step_cnt_of_overflow {w : Nat} {t : Timer w} (hrun : t.run = true) (hpre : t.pre + 1 = 0)
    (hcnt : t.cnt = 255) : t.step.1.cnt = t.latch := by
  simp only [Timer.step, hrun, hpre, hcnt, if_true]

/-- The next timer of a start and mask write, by whether it starts a stopped timer (R125). -/
theorem Timer.control_eq {w : Nat} (mask start : Bool) (t : Timer w) :
    t.control mask start =
      { t with
        mask := mask
        run := start
        cnt := if start = true ∧ t.run = false then t.latch else t.cnt
        pre := if start = true ∧ t.run = false then 0 else t.pre } := by
  simp [Timer.control]

/-- The counter takes the latch when a stopped timer starts (R372). -/
theorem Timer.control_cnt_of_start {w : Nat} {t : Timer w} (mask : Bool) (hrun : t.run = false) :
    (t.control mask true).cnt = t.latch := by
  rw [Timer.control_eq]
  exact if_pos ⟨rfl, hrun⟩

/-- Settles O8: the writes touch no counter; the latch is read at an overflow and at a start. -/
theorem timerLatchWritesLeaveTheCounter : Obligations.TimerLatchWritesLeaveTheCounter :=
  ⟨fun v s hs => show execTimer1 v s = _ from registerWrite_of_ready hs _ _ _,
    fun v s hs => show execTimer2 v s = _ from registerWrite_of_ready hs _ _ _,
    fun _ _ => Timer.step_cnt_of_overflow, fun _ _ mask => Timer.control_cnt_of_start mask⟩

/-- After the flags are cleared the status byte reads 0 (R33, R124). -/
theorem Chip.statusByte_irqReset (c : Chip) : c.irqReset.statusByte = 0x00 := by
  simp [Chip.statusByte, Chip.irq, Chip.irqReset]

/-- Settles O9: masks, start bits, counters and latches are fields the flag reset does not write. -/
theorem irqResetClearsOnlyTheFlags : Obligations.IrqResetClearsOnlyTheFlags :=
  fun v s hs =>
    ⟨_, show execIrqReset v s = _ from registerWrite_of_ready hs _ _ _, rfl, Chip.statusByte_irqReset _⟩

/-- Settles O10: bits 6, 5, 1 and 0 of the value reach the two timers. -/
theorem timerControlWrite : Obligations.TimerControlWrite := by
  intro v s hs
  dsimp only [exec, execTimerCtl]
  rw [registerWrite_of_ready hs]
  simp only [Timer.control_eq, bit_timerByte, Nat.reduceLT]
  rfl

/-- Settles O12: the key update runs on the chip with the new latches. -/
theorem rhythmWriteSetsLatchesAndKeys : Obligations.RhythmWriteSetsLatchesAndKeys :=
  fun v s hs => show execRhythm v s = _ from registerWrite_of_ready hs _ _ _

/-! ## Per-slot writes (R127 to R130, R135) -/

/-- A write of a slot group on a ready state: the bank entry of the slot's address and the slot (R120). -/
theorem registerWrite_updSlot_of_ready {s : State} (hs : s.ready) {base : Byte} (n : Nat) (hbase : base.toNat = n)
    (i : SlotId) (v : Byte) {f : Slot → Slot} {sl : Slot} (hf : f (s.chip.slotAt i) = sl) :
    registerWrite (slotAddr base i) v (fun c => c.updSlot i f) s = .next
      { s with
        chip := { s.chip.setReg (BitVec.ofNat 8 (n + i.val / 6 * 8 + i.val % 6)) v with
          slot := s.chip.slot.set i.val sl } } := by
  rw [registerWrite_of_ready hs, slotAddr_eq base n hbase, ← hf]
  rfl

/-- Settles O13: the four writes are one write of a slot group, each with its own flags. -/
theorem slotWritesSetTheirFields : Obligations.SlotWritesSetTheirFields :=
  fun i v s hs =>
    ⟨show execAmVib i v s = _ from registerWrite_updSlot_of_ready hs 0x20 rfl i v (Slot.markDirty_forKeyScale _),
      show execKslTl i v s = _ from registerWrite_updSlot_of_ready hs 0x40 rfl i v (Slot.markDirty_forTll _),
      show execArDr i v s = _ from registerWrite_updSlot_of_ready hs 0x60 rfl i v (Slot.markDirty_forRate _),
      show execSlRr i v s = _ from registerWrite_updSlot_of_ready hs 0x80 rfl i v (Slot.markDirty_forRate _)⟩

/-- The enable a waveform write reads is that of the chip before the write (R135). -/
theorem exec_ws_of_ready {s : State} (hs : s.ready) (i : SlotId) (v : Byte) :
    exec (.ws i v) s = .next (s.setChip
      (if s.chip.wse then
        (s.chip.setReg (slotAddr 0xE0 i) v).updSlot i fun sl =>
          { sl with ws := field v 0 2 }.markDirty Dirty.forWave
      else s.chip.setReg (slotAddr 0xE0 i) v)) :=
  registerWrite_of_ready hs _ _ _

/-- A test write, wherever it completes, writes no slot (R121). -/
theorem exec_test_slot {v : Byte} {s t : State} (h : exec (.test v) s = .next t) : t.chip.slot = s.chip.slot :=
  registerWrite_keeps (P := fun c => c.slot = s.chip.slot) (show execTest v s = _ from h) rfl

/-- Settles O14: the write is honoured by the enable, and a test write replays nothing. -/
theorem waveformWriteNeedsTheEnable : Obligations.WaveformWriteNeedsTheEnable := by
  refine ⟨fun i v s hs => ?_, fun _ _ _ => exec_test_slot⟩
  dsimp only
  rw [exec_ws_of_ready hs, slotAddr_eq 0xE0 0xE0 rfl]
  refine ⟨fun hwse => ?_, fun hwse => ?_⟩
  · rw [if_pos hwse, Chip.updSlot, Slot.markDirty_forWave]
    rfl
  · rw [if_neg (by simp [hwse])]
    rfl

/-! ## Per-channel writes (R131, R132, R134) -/

/-- What a pitch write leaves in each slot: the two slots of the channel flagged (R131, R132). -/
theorem Chip.slotAt_pitch (c : Chip) (ch : ChanId) (f : Channel → Channel) (i : SlotId) :
    ((c.updChan ch f).markChanDirty ch Dirty.forPitch).slotAt i =
      if chanOfSlot i = ch then
        { c.slotAt i with dirty := { (c.slotAt i).dirty with tll := true, rks := true, egRate := true } }
      else c.slotAt i := by
  rw [Chip.slotAt_markChanDirty, Chip.slotAt_updChan, Slot.markDirty_forPitch]

/-- The next state of R131, with the fnum in the mask form. -/
theorem exec_fnumLo_of_ready {s : State} (hs : s.ready) (ch : ChanId) (v : Byte) :
    exec (.fnumLo ch v) s = .next (s.setChip
      (((s.chip.setReg (BitVec.ofNat 8 (0xA0 + ch.val)) v).updChan ch fun k =>
        { k with fnum := (k.fnum &&& 0x300) ||| v.setWidth 10 }).markChanDirty ch Dirty.forPitch)) := by
  simp only [← assembleFnum_low, ← chanAddr_eq 0xA0 0xA0 rfl]
  exact show execFnumLo ch v s = _ from registerWrite_of_ready hs _ _ _

/-- The next state of R132, with the fnum in the mask form. -/
theorem exec_keyBlock_of_ready {s : State} (hs : s.ready) (ch : ChanId) (v : Byte) :
    exec (.keyBlock ch v) s = .next (s.setChip
      (((s.chip.setReg (BitVec.ofNat 8 (0xB0 + ch.val)) v).updChan ch fun k =>
        { k with
          fnum := (k.fnum &&& 0xFF) ||| ((v.setWidth 10 &&& 3) <<< 8)
          block := v.extractLsb' 2 3
          key := v.getLsbD 5 }).markChanDirty ch Dirty.forPitch).updateKeys) := by
  simp only [← assembleFnum_high, ← chanAddr_eq 0xB0 0xB0 rfl]
  exact show execKeyBlock ch v s = _ from registerWrite_of_ready hs _ _ _

/-- Settles O15: the write of a channel's pitch without a key update. -/
theorem fnumLowWrite : Obligations.FnumLowWrite :=
  fun ch v _ hs => ⟨_, exec_fnumLo_of_ready hs ch v, rfl, Chip.slotAt_pitch _ ch _⟩

/-- Settles O16: the key update runs on the chip the pitch write leaves. -/
theorem keyBlockWrite : Obligations.KeyBlockWrite :=
  fun ch v _ hs => ⟨_, exec_keyBlock_of_ready hs ch v, rfl, Chip.slotAt_pitch _ ch _⟩

/-- Settles O17: no derived field reads feedback or algorithm, so the write flags no slot. -/
theorem feedbackAlgorithmWrite : Obligations.FeedbackAlgorithmWrite := by
  intro ch v s hs
  rw [← chanAddr_eq 0xC0 0xC0 rfl]
  exact show execFbAlg ch v s = _ from registerWrite_of_ready hs _ _ _

end Sys2Proof.Machine
end

section
/-!
PROOFS. The statements of 41_phase_lfo.md: the counter, the LFO positions and the noise register of a tick
(R20, R166, R169, R278), and the phase advance (R161, R163, R170, R171).
-/

namespace Sys2Proof.Machine

/-! ## The LFO periods (R166, R169) -/

/-- The mask test of the advanced counter as divisibility; the wrap at 2^16 does not show in it. -/
theorem tick_succ_and_mask_eq_zero_iff (tick : BitVec 16) {k : Nat} (hk : k ≤ 16) :
    (tick + 1) &&& BitVec.ofNat 16 (2 ^ k - 1) = 0 ↔ (tick.toNat + 1) % 2 ^ k = 0 := by
  have hmask : 2 ^ k - 1 < 2 ^ 16 :=
    Nat.lt_of_lt_of_le (Nat.sub_one_lt (Nat.two_pow_pos k).ne') (Nat.pow_le_pow_right (by decide) hk)
  rw [← BitVec.toNat_inj, BitVec.toNat_and, BitVec.toNat_ofNat, Nat.mod_eq_of_lt hmask,
    Nat.and_two_pow_sub_one_eq_mod, BitVec.toNat_add, Nat.mod_mod_of_dvd _ (Nat.pow_dvd_pow 2 hk)]
  rfl

theorem Chip.lfoStep_amPos (c : Chip) :
    c.lfoStep.amPos = if (c.tick.toNat + 1) % 64 = 0 then (c.amPos + 1) % 210 else c.amPos :=
  if_congr (tick_succ_and_mask_eq_zero_iff c.tick (k := 6) (by decide)) rfl rfl

theorem Chip.lfoStep_pmPos (c : Chip) :
    c.lfoStep.pmPos = if (c.tick.toNat + 1) % 1024 = 0 then c.pmPos + 1 else c.pmPos :=
  if_congr (tick_succ_and_mask_eq_zero_iff c.tick (k := 10) (by decide)) rfl rfl

/-! ## The noise register (R278) -/

/-- The feedback bit of the noise register, in the place it enters. -/
theorem noiseFeedback_eq (n : BitVec 23) :
    ((n ^^^ (n >>> 14)) &&& 1) <<< 22 = if n.getLsbD 0 = n.getLsbD 14 then 0 else 1 <<< 22 := by
  have hbit : (n ^^^ (n >>> 14)).getLsbD 0 = (n.getLsbD 0 ^^ n.getLsbD 14) := by simp
  rw [show (1 : BitVec 23) = 1#23 from rfl, BitVec.and_one_eq_setWidth_ofBool_getLsbD, hbit]
  cases n.getLsbD 0 <;> cases n.getLsbD 14 <;> rfl

/-- The shift empties bit 22, so the feedback bit is added there. -/
theorem Chip.noiseStep_toNat (c : Chip) :
    c.noiseStep.noise.toNat
      = c.noise.toNat / 2 + (if c.noise.getLsbD 0 = c.noise.getLsbD 14 then 0 else 2 ^ 22) := by
  have hlt : c.noise.toNat / 2 < 2 ^ 22 := by omega
  have hshift : (c.noise >>> 1).toNat = c.noise.toNat / 2 := BitVec.toNat_ushiftRight ..
  unfold Chip.noiseStep
  dsimp only
  rw [noiseFeedback_eq, BitVec.toNat_or, hshift]
  split
  · exact Nat.or_zero _
  · rw [Nat.or_comm, Nat.add_comm]
    exact (Nat.shiftLeft_add_eq_or_of_lt hlt 1).symm

/-- Only the value 1 shifts to 0, and its feedback bit is 1. -/
theorem Chip.noiseStep_ne_zero {c : Chip} (h : c.noise ≠ 0) : c.noiseStep.noise ≠ 0 := by
  intro hzero
  have hsum := c.noiseStep_toNat
  rw [hzero] at hsum
  split at hsum
  next hbits =>
    have hpos : c.noise.toNat ≠ 0 := fun h0 => h (BitVec.eq_of_toNat_eq h0)
    have hhalf : c.noise.toNat / 2 = 0 := hsum.symm
    have hone : c.noise = 1 := BitVec.eq_of_toNat_eq (show c.noise.toNat = 1 by omega)
    rw [hone] at hbits
    exact absurd hbits (by decide)
  next => simp at hsum

/-- Settles O20: steps 1 and 3 of the tick move these fields and the other steps keep them. -/
theorem tickMovesCounterLfosAndNoise : Obligations.TickMovesCounterLfosAndNoise := by
  intro c
  obtain ⟨ham, hpm, hnoise, _⟩ := c.tick1_eq_preTick
  obtain ⟨ham', hpm', hnoise'⟩ := c.preTick_lfo
  have hstep : c.tick1.noise = c.noiseStep.noise := hnoise.trans hnoise'
  rw [hstep, ham, ham', hpm, hpm']
  exact ⟨c.tick1_tick, c.lfoStep_amPos, c.lfoStep_pmPos, c.noiseStep_toNat, Chip.noiseStep_ne_zero⟩

/-! ## The phase increment (R161, R170, R171) -/

/-- The magnitude halved under its sign is the quotient truncated toward zero. -/
theorem sign_mul_natAbs_half (e : Int) : e.sign * ((e.natAbs / 2 : Nat) : Int) = e.tdiv 2 := by
  cases e with
  | ofNat m =>
    cases m with
    | zero => rfl
    | succ m => exact Int.one_mul _
  | negSucc m =>
    rw [Int.sign_negSucc, Int.natAbs_negSucc, Int.neg_one_mul]
    rfl

/-- The vibrato offset at full and at half depth (R170). -/
theorem pmOffset_eq (dvb : Bool) (p : BitVec 3) (f : BitVec 10) :
    pmOffset dvb p f = if dvb then pmEntry f p else (pmEntry f p).tdiv 2 := by
  unfold pmOffset
  cases dvb with
  | true => exact Int.sign_mul_natAbs _
  | false =>
    dsimp only
    rw [Nat.shiftRight_eq_div_pow]
    exact sign_mul_natAbs_half _

theorem phaseInc_eq (dvb : Bool) (p : BitVec 3) (ch : Channel) (sl : Slot) :
    phaseInc dvb p ch sl
      = (ch.fnum.toNat + if sl.pm then pmOffset dvb p ch.fnum else 0) * (mlTable.getD sl.ml.toNat 0 : Nat)
          * 2 ^ ch.block.toNat := by
  unfold phaseInc multiple
  push_cast
  rfl

/-- `wrap21` as a remainder (R163). -/
theorem Slot.advancePhase_phase_toNat (inc : Int) (sl : Slot) :
    ((sl.advancePhase inc).phase.toNat : Int) = (sl.phase.toNat + inc) % 2 ^ 21 := by
  rw [Slot.advancePhase, BitVec.toNat_ofInt]
  exact Int.toNat_of_nonneg (Int.emod_nonneg _ (by decide))

/-! ## What steps 0 to 4 of a tick keep of a slot -/

/-- A property kept by every key edge is kept by the key edges of a tick (R374). -/
theorem Chip.slotEdges_keeps {P : Slot → Prop} {i : SlotId} (hedge : ∀ (c : Chip) sl, P sl → P (c.keyEdge i sl))
    (c : Chip) {sl : Slot} (h : P sl) : P (c.slotEdges i sl) := by
  unfold Chip.slotEdges
  dsimp only
  have hrelease : P (if c.csmPulse = true then Chip.keyEdge { c with csmPulse := false } i sl else sl) := by
    split
    · exact hedge _ _ h
    · exact h
  split
  · exact hedge _ _ hrelease
  · exact hrelease

theorem slotOn_patch (nts : Bool) (ch : Channel) {sl old : Slot} (h : samePatchAndHistory sl old) :
    samePatchAndHistory (slotOn nts ch sl) old := by
  unfold slotOn
  dsimp only
  split <;> exact h

@[simp] theorem slotOn_phase (nts : Bool) (ch : Channel) (sl : Slot) : (slotOn nts ch sl).phase = 0 := by
  unfold slotOn
  dsimp only
  split <;> rfl

/-- A key edge changes no patch field and no history (R205, R206). -/
theorem Chip.keyEdge_patch (c : Chip) (i : SlotId) {sl old : Slot} (h : samePatchAndHistory sl old) :
    samePatchAndHistory (c.keyEdge i sl) old := by
  rw [Chip.keyEdge_eq]
  split
  · exact h
  · split
    · exact slotOn_patch _ _ h
    · exact h

/-- A key edge keeps the phase or resets it (R205, R206). -/
theorem Chip.keyEdge_phase (c : Chip) (i : SlotId) {sl : Slot} {p : BitVec 21} (h : sl.phase = p ∨ sl.phase = 0) :
    (c.keyEdge i sl).phase = p ∨ (c.keyEdge i sl).phase = 0 := by
  rw [Chip.keyEdge_eq]
  split
  · exact h
  · split
    · exact .inr (slotOn_phase _ _ _)
    · exact h

/-- Steps 0 to 3 of a tick change no patch field and no history. -/
theorem Chip.slotAt_preTick_patch (c : Chip) (i : SlotId) :
    samePatchAndHistory (c.preTick.slotAt i) (c.slotAt i) := by
  rw [Chip.slotAt_preTick]
  refine Chip.slotEdges_keeps (P := (samePatchAndHistory · (c.slotAt i)))
    (fun d _ h => Chip.keyEdge_patch d i h) c ?_
  exact ⟨rfl, rfl, rfl, rfl, rfl, rfl, rfl, rfl, rfl, rfl, rfl, rfl, rfl, rfl⟩

/-- Steps 0 to 3 of a tick keep the phase or, at a key edge, reset it. -/
theorem Chip.slotAt_preTick_phase (c : Chip) (i : SlotId) :
    (c.preTick.slotAt i).phase = (c.slotAt i).phase ∨ (c.preTick.slotAt i).phase = 0 := by
  rw [Chip.slotAt_preTick]
  exact Chip.slotEdges_keeps (P := fun sl => sl.phase = (c.slotAt i).phase ∨ sl.phase = 0)
    (fun d _ h => Chip.keyEdge_phase d i h) c (.inl rfl)

theorem Slot.enter_patch (st : EgState) {sl old : Slot} (h : samePatchAndHistory sl old) :
    samePatchAndHistory (sl.enter st) old := by
  unfold Slot.enter
  split <;> exact h

/-- An envelope step changes no patch field and no history. -/
theorem Slot.egStep_patch (tick : BitVec 16) {sl old : Slot} (h : samePatchAndHistory sl old) :
    samePatchAndHistory (sl.egStep tick) old :=
  Slot.enter_patch (sl := { sl with egOut := _ }) _ h

/-! ## The phase advance (R163) -/

/-- The increment reads `pm` and `ml` of the slot, so it is the one of any slot with that patch. -/
theorem phaseInc_of_samePatch (dvb : Bool) (p : BitVec 3) (ch : Channel) {a b : Slot} (h : samePatchAndHistory a b) :
    phaseInc dvb p ch a = phaseInc dvb p ch b := by
  obtain ⟨_, hpm, _, _, hml, _⟩ := h
  rw [phaseInc, phaseInc, hpm, hml]

/-- Step 4 advances the phase by the increment of the patch, in every envelope state (R163). -/
theorem Chip.slotTick_phase_toNat (c : Chip) (i : SlotId) {sl old : Slot} (h : samePatchAndHistory sl old) :
    ((c.slotTick i sl).phase.toNat : Int)
      = (sl.phase.toNat + phaseInc c.dvb c.pmPos (c.chanFor i) old) % 2 ^ 21 := by
  have hpatch : samePatchAndHistory ((commitSlot c.nts (c.chanFor i) sl).egStep c.tick) old := Slot.egStep_patch _ h
  obtain ⟨hphase, _⟩ := Slot.egStep_kept c.tick (commitSlot c.nts (c.chanFor i) sl)
  unfold Chip.slotTick
  rw [Slot.advancePhase_phase_toNat, phaseInc_of_samePatch _ _ _ hpatch, commitSlot_phase, hphase, commitSlot_phase]

/-- The phase a tick leaves, from the phase when step 4 begins. -/
theorem Chip.tick1_phase_toNat (c : Chip) (i : SlotId) :
    ((c.tick1.slotAt i).phase.toNat : Int)
      = ((c.preTick.slotAt i).phase.toNat + phaseInc c.dvb c.tick1.pmPos (c.chanFor i) (c.slotAt i)) % 2 ^ 21 := by
  obtain ⟨_, hpm, _⟩ := c.tick1_eq_preTick
  have h := c.preTick.slotTick_phase_toNat i (c.slotAt_preTick_patch i)
  rw [Chip.preTick_dvb, Chip.preTick_chanFor, ← hpm, ← Chip.slotAt_atOutputs] at h
  rw [Chip.slotAt_tick1]
  exact h

/-- Settles O24: step 4 advances the phase, and only a key edge of steps 0 to 3 resets it before. -/
theorem tickAdvancesThePhase : Obligations.TickAdvancesThePhase := by
  intro c i old start ch e offset pmo inc
  have hentry : pmEntry ch.fnum c.tick1.pmPos = e := by
    rw [pmEntry, Nat.shiftRight_eq_div_pow]
  have hinc : phaseInc c.dvb c.tick1.pmPos ch old = inc := by
    rw [phaseInc_eq, pmOffset_eq, hentry]
  refine ⟨?_, c.slotAt_preTick_phase i, fun hq => ?_⟩
  · rw [← hinc]
    exact c.tick1_phase_toNat i
  · exact (congrArg Slot.phase (Chip.slotAt_preTick_of_quiet hq i)).trans (commitSlot_phase _ _ _)

end Sys2Proof.Machine
end

section
/-!
PROOFS. The statements of 42_envelope.md: the key edges a key update fires (R140, R205, R206), and the envelope
step of a tick from the fields of the slot (R191 to R203).
-/

namespace Sys2Proof.Machine

/-! ## The wanted keys (R140, R86) -/

/-- The percussion trigger of each of the six rhythm slots is the one R86 assigns; no other slot has one. -/
theorem Chip.wantsKey_iff (c : Chip) (i : SlotId) : c.wantsKey i = true ↔ keyWanted c i := by
  unfold Chip.wantsKey keyWanted Chip.chanFor
  rw [Bool.or_eq_true, Bool.or_eq_true, or_assoc, Bool.and_eq_true]
  refine or_congr_right (or_congr_right (and_congr_right fun _ => ?_))
  fin_cases i <;> simp

theorem Chip.getLsbD_updateKeys_keyMask (c : Chip) (i : SlotId) :
    c.updateKeys.keyMask.getLsbD i.val = true ↔ keyWanted c i := by
  rw [Chip.updateKeys_keyMask, Chip.getLsbD_wantMask, Chip.wantsKey_iff]

/-! ## The three outcomes of a slot's edge (R140) -/

section Edges
variable {c : Chip} {i : SlotId}

theorem Chip.keyEdge_of_rise (hoff : c.keyMask.getLsbD i.val = false) (hwant : keyWanted c i) (sl : Slot) :
    c.keyEdge i sl = slotOn c.nts (c.chanFor i) sl := by
  rw [Chip.keyEdge_eq, hoff, (c.wantsKey_iff i).2 hwant]
  rfl

theorem Chip.keyEdge_of_fall (hon : c.keyMask.getLsbD i.val = true) (hwant : ¬ keyWanted c i) (sl : Slot) :
    c.keyEdge i sl = slotOff sl := by
  rw [Chip.keyEdge_eq, hon, Bool.eq_false_iff.2 (mt (c.wantsKey_iff i).1 hwant)]
  rfl

theorem Chip.keyEdge_of_no_edge (h : c.keyMask.getLsbD i.val = true ↔ keyWanted c i) (sl : Slot) :
    c.keyEdge i sl = sl := by
  rw [Chip.keyEdge_eq]
  exact if_pos (Bool.eq_iff_iff.2 (h.trans (c.wantsKey_iff i).symm))

end Edges

/-! ## `SLOT_ON` and `SLOT_OFF` (R205, R206) -/

/-- The effective attack rate as arithmetic. -/
theorem Slot.attacksAtOnce_iff (sl : Slot) :
    sl.attacksAtOnce = true ↔ sl.ar ≠ 0 ∧ min 15 (sl.ar.toNat + sl.rks / 4) = 15 := by
  simp only [Slot.attacksAtOnce, Nat.shiftRight_eq_div_pow, Bool.and_eq_true, decide_eq_true_iff, Nat.reducePow]

/-- The state and level after `SLOT_ON`: `rks` of a coherent slot is that of its fields, whether flagged or not. -/
theorem slotOn_state_and_level {nts : Bool} {ch : Channel} {sl : Slot} (h : sl.cacheOk nts ch) :
    if sl.ar ≠ 0 ∧ min 15 (sl.ar.toNat + rksOf nts ch sl.kr / 4) = 15
    then (slotOn nts ch sl).egState = .decay ∧ (slotOn nts ch sl).egOut = 0
    else (slotOn nts ch sl).egState = .attack ∧ (slotOn nts ch sl).egOut = sl.egOut := by
  have hatonce := Slot.attacksAtOnce_iff { sl.recomputed nts ch with phase := 0 }
  unfold slotOn
  rw [commitSlot_of_cacheOk h]
  dsimp only
  split
  next hfast =>
    rw [if_pos (hatonce.2 hfast)]
    exact ⟨rfl, rfl⟩
  next hslow =>
    rw [if_neg (mt hatonce.1 hslow)]
    exact ⟨rfl, rfl⟩

theorem slotOn_dirty_egRate (nts : Bool) (ch : Channel) (sl : Slot) : (slotOn nts ch sl).dirty.egRate = true := by
  unfold slotOn
  dsimp only
  rw [Slot.markDirty_forRate]

theorem slotOff_eq (sl : Slot) :
    slotOff sl = { sl with egState := .release, dirty := { sl.dirty with egRate := true } } :=
  Slot.markDirty_forRate _

/-- Settles O19: a key update is one `keyEdge` of each slot, and its three outcomes are those of R140. -/
theorem updateKeysFiresTheEdges : Obligations.UpdateKeysFiresTheEdges := by
  refine fun c hc => ⟨c.updateKeys, rfl, rfl, fun i => ?_⟩
  dsimp only
  rw [Chip.slotAt_updateKeys]
  refine ⟨c.getLsbD_updateKeys_keyMask i, ?_, fun hoff hwant => ?_, fun hon hwant => ?_, fun h => ?_⟩
  · exact Chip.keyEdge_patch c i ⟨rfl, rfl, rfl, rfl, rfl, rfl, rfl, rfl, rfl, rfl, rfl, rfl, rfl, rfl⟩
  · rw [Chip.keyEdge_of_rise hoff hwant]
    exact ⟨slotOn_phase _ _ _, slotOn_state_and_level (hc i), slotOn_dirty_egRate _ _ _⟩
  · rw [Chip.keyEdge_of_fall hon hwant, slotOff_eq]
  · exact Chip.keyEdge_of_no_edge h _

/-! ## One envelope step, by state (R198 to R203) -/

theorem Slot.updatedLevel_of_attack {sl : Slot} (h : sl.egState = .attack) (step : Nat) :
    sl.updatedLevel step = attackLevel sl.egOut step := by
  simp only [Slot.updatedLevel, h]

theorem Slot.updatedLevel_of_ne_attack {sl : Slot} (h : sl.egState ≠ .attack) (step : Nat) :
    sl.updatedLevel step = min 511 (sl.egOut + step) := by
  unfold Slot.updatedLevel
  cases hst : sl.egState with
  | attack => exact absurd hst h
  | decay | sustain | release => rfl

theorem Slot.nextState_of_attack {sl : Slot} (h : sl.egState = .attack) (level : Nat) :
    Slot.nextState { sl with egOut := level } = if level = 0 then .decay else .attack := by
  simp only [Slot.nextState, h]

theorem Slot.nextState_of_decay {sl : Slot} (h : sl.egState = .decay) (level : Nat) :
    Slot.nextState { sl with egOut := level }
      = if sl.sl ≠ 15 ∧ level / 16 = sl.sl.toNat then .sustain else .decay := by
  simp only [Slot.nextState, h, Nat.shiftRight_eq_div_pow, Nat.reducePow]

theorem Slot.nextState_of_sustain {sl : Slot} (h : sl.egState = .sustain) (level : Nat) :
    Slot.nextState { sl with egOut := level } = .sustain := by
  simp only [Slot.nextState, h]

theorem Slot.nextState_of_release {sl : Slot} (h : sl.egState = .release) (level : Nat) :
    Slot.nextState { sl with egOut := level } = .release := by
  simp only [Slot.nextState, h]

/-! ## The rate, the interval and the step as arithmetic (R193 to R197) -/

theorem rateHigh_eq (p rks : Nat) : rateHigh p rks = if p = 0 then 0 else min 15 (p + rks / 4) := by
  rw [rateHigh, Nat.shiftRight_eq_div_pow]

/-- Where an update can be due the parameter rate is not 0, so the low rate is that of `rks`. -/
theorem rateLow_of_rateHigh_pos {p rks : Nat} (h : 0 < rateHigh p rks) : rateLow p rks = rks % 4 := by
  have hp : p ≠ 0 := by
    rintro rfl
    exact Nat.lt_irrefl 0 h
  rw [rateLow, if_neg hp]
  exact Nat.and_two_pow_sub_one_eq_mod rks 2

theorem Slot.updateDue_iff (tick : BitVec 16) (sl : Slot) :
    sl.updateDue tick = true ↔ 0 < sl.egRateH ∧ tick.toNat % 2 ^ sl.egShift = 0 := by
  simp only [Slot.updateDue, Bool.and_eq_true, decide_eq_true_iff]

theorem Slot.stepValue_eq (tick : BitVec 16) (sl : Slot) :
    sl.stepValue tick =
      if sl.egRateH ≤ 12 then (stepSlow.getD sl.egRateL []).getD (tick.toNat / 2 ^ sl.egShift % 8) 0
      else if sl.egRateH = 13 then (stepFast.getD sl.egRateL []).getD (tick.toNat % 8) 0
      else if sl.egRateH = 14 then 2 * (stepFast.getD sl.egRateL []).getD (tick.toNat % 8) 0
      else 4 := by
  have hmask (x : Nat) : x &&& 7 = x % 8 := Nat.and_two_pow_sub_one_eq_mod x 3
  simp only [Slot.stepValue, hmask, Nat.shiftRight_eq_div_pow]

/-! ## The envelope step of a tick -/

/-- Step 4 of a tick from the fields of the slot it starts from: that slot is coherent, so its commit recomputes
the cache in effect, and the cache enters by the rate alone. -/
theorem Chip.tick1_envelope_of_cacheOk {c : Chip} (hc : c.cacheOk) (i : SlotId) :
    let old := c.preTick.slotAt i
    let cached := old.recomputed c.nts (c.chanFor i)
    (c.tick1.slotAt i).egOut =
        (if cached.updateDue (c.tick + 1) then old.updatedLevel (cached.stepValue (c.tick + 1)) else old.egOut)
      ∧ (c.tick1.slotAt i).egState = Slot.nextState { old with egOut := (c.tick1.slotAt i).egOut } := by
  have hpre := Chip.cacheOk_preTick hc i
  rw [Chip.preTick_nts, Chip.preTick_chanFor] at hpre
  obtain ⟨hlevel, hstate⟩ := c.tick1_envelope i
  rw [commitSlot_of_cacheOk hpre] at hlevel hstate
  refine ⟨hlevel.trans (Slot.egStep_egOut _ _), ?_⟩
  rw [hstate, hlevel]
  exact Slot.egStep_egState _ _

/-- Without a key edge steps 0 to 3 of a tick only commit the slot. -/
theorem Chip.slotAt_preTick_envelope_of_quiet {c : Chip} (hq : c.quiet) (i : SlotId) :
    (c.preTick.slotAt i).egState = (c.slotAt i).egState ∧ (c.preTick.slotAt i).egOut = (c.slotAt i).egOut
      ∧ (c.preTick.slotAt i).phase = (c.slotAt i).phase := by
  rw [Chip.slotAt_preTick_of_quiet hq]
  exact ⟨rfl, rfl, rfl⟩

/-- Settles O22: step 4 is one `egStep` of the slot with its cache recomputed. The rate of the statement is that
of the recomputed cache, its step wherever an update is due; then R198 to R203 by the state. -/
theorem tickStepsTheEnvelope : Obligations.TickStepsTheEnvelope := by
  intro c i hc old new ch noteBit kcode rks p h shift tk step due
  obtain ⟨hlevel, hstate⟩ := Chip.tick1_envelope_of_cacheOk hc i
  have hrks : rksOf c.nts ch old.kr = rks := rksOf_eq _ _ _
  have hh : (old.recomputed c.nts ch).egRateH = h := (congrArg (rateHigh p) hrks).trans (rateHigh_eq p rks)
  have hl : 0 < h → (old.recomputed c.nts ch).egRateL = rks % 4 := by
    rw [← hh, ← hrks]
    exact rateLow_of_rateHigh_pos
  have hsh : (old.recomputed c.nts ch).egShift = shift := congrArg shiftOf hh
  have hdue : (old.recomputed c.nts ch).updateDue (c.tick + 1) = true ↔ due := by
    rw [Slot.updateDue_iff, hh, hsh]
  have hstep (hd : due) : (old.recomputed c.nts ch).stepValue (c.tick + 1) = step := by
    rw [Slot.stepValue_eq, hh, hsh, hl hd.1]
  have hdueLevel (hd : due) : new.egOut = old.updatedLevel step := by
    rw [← hstep hd, hlevel, if_pos (hdue.2 hd)]
  have hkeptLevel (hd : ¬ due) : new.egOut = old.egOut := by
    rw [hlevel, if_neg (mt hdue.1 hd)]
  refine ⟨fun ha => ⟨fun hd => ?_, hkeptLevel, ?_⟩, fun ha => ?_, fun hst => ?_, fun hst => ?_, fun hst => ?_,
    c.slotAt_preTick_patch i, fun hq => Chip.slotAt_preTick_envelope_of_quiet hq i⟩
  · rw [hdueLevel hd, Slot.updatedLevel_of_attack ha]
    exact attackLevel_eq _ _
  · exact hstate.trans (Slot.nextState_of_attack ha _)
  · by_cases hd : due
    · rw [if_pos hd, hdueLevel hd, Slot.updatedLevel_of_ne_attack ha]
    · rw [if_neg hd, hkeptLevel hd]
  · exact hstate.trans (Slot.nextState_of_decay hst _)
  · exact hstate.trans (Slot.nextState_of_sustain hst _)
  · exact hstate.trans (Slot.nextState_of_release hst _)

end Sys2Proof.Machine
end

section
/-!
PROOFS. The statements of 43_waveform.md: the range of a decoded sample (R236 to R238), and the silence of a slot at
`EG_MUTE` (R301).
-/

namespace Sys2Proof.Machine

/-! ## The decoder (R232, R236 to R238) -/

/-- The greatest of the 256 table entries is the last (R232). -/
theorem expEntry_le : ∀ x : BitVec 8, expEntry x ≤ 1018 := by decide +kernel

/-- A decoded sample is at most 2 * (1018 + 1024), halved once for every 32 levels of attenuation. -/
theorem decodeWave_natAbs_le (h : BitVec 16) (lvl : Nat) : (decodeWave h lvl).natAbs ≤ 4084 / 2 ^ (lvl / 32) := by
  unfold decodeWave
  dsimp only
  rw [apply_ite Int.natAbs, Int.natAbs_neg, Int.natAbs_natCast, ite_self]
  have hlvl : lvl <<< 3 ≤ (h.extractLsb' 0 15).toNat + lvl <<< 3 := Nat.le_add_left _ _
  generalize (h.extractLsb' 0 15).toNat + lvl <<< 3 = m at hlvl ⊢
  have hhalvings : lvl / 32 ≤ m / 2 ^ 8 := by
    rw [Nat.shiftLeft_eq] at hlvl
    omega
  have hexp := expEntry_le (BitVec.ofNat 8 m ^^^ 0xFF)
  simp only [Nat.shiftRight_eq_div_pow, Nat.shiftLeft_eq]
  exact Nat.div_le_div (by omega) (Nat.pow_le_pow_right Nat.two_pos hhalvings) (Nat.two_pow_pos _).ne'

theorem decodeWave_bounded (h : BitVec 16) (lvl : Nat) : -4084 ≤ decodeWave h lvl ∧ decodeWave h lvl ≤ 4084 := by
  have hle : (decodeWave h lvl).natAbs ≤ 4084 := (decodeWave_natAbs_le h lvl).trans (Nat.div_le_self _ _)
  omega

/-- At level 511 the magnitude has been halved 15 times (R238). -/
theorem decodeWave_eq_zero_of_mute (h : BitVec 16) {lvl : Nat} (hlvl : 511 ≤ lvl) : decodeWave h lvl = 0 := by
  have hpow : 2 ^ 15 ≤ 2 ^ (lvl / 32) := Nat.pow_le_pow_right Nat.two_pos (by omega)
  have hzero : 4084 / 2 ^ (lvl / 32) = 0 := Nat.div_eq_of_lt (by omega)
  have hle := decodeWave_natAbs_le h lvl
  omega

/-! ## The level of an output (R235, R261 to R263, R271 to R275) -/

/-- The two roles of a slot in its channel, each decoded at the level of that slot. -/
theorem Chip.melodicOut_eq_decodeWave (c : Chip) (i : SlotId) :
    ∃ h, c.melodicOut i = decodeWave h (levelOf c.amVal (c.slotAt i)) := by
  unfold Chip.melodicOut
  obtain ⟨ch, rfl | rfl⟩ : ∃ ch, i = modSlot ch ∨ i = carSlot ch := ⟨_, modSlot_or_carSlot i⟩
  · rw [isModulator_modSlot, chanOfSlot_modSlot]
    exact ⟨_, rfl⟩
  · rw [isModulator_carSlot, chanOfSlot_carSlot]
    exact ⟨_, rfl⟩

/-- Every output of a slot, melodic or percussion, is decoded at the slot's own level. -/
theorem Chip.slotOutput_eq_decodeWave (c : Chip) (i : SlotId) :
    ∃ h, c.slotOutput i = decodeWave h (levelOf c.amVal (c.slotAt i)) := by
  unfold Chip.slotOutput
  split
  next =>
    split
    next hi => exact Fin.ext (b := 13) hi ▸ ⟨_, rfl⟩
    next hi => exact Fin.ext (b := 14) hi ▸ ⟨_, rfl⟩
    next hi => exact Fin.ext (b := 16) hi ▸ ⟨_, rfl⟩
    next hi => exact Fin.ext (b := 17) hi ▸ ⟨_, rfl⟩
    next => exact c.melodicOut_eq_decodeWave i
  next => exact c.melodicOut_eq_decodeWave i

theorem levelOf_of_mute (amVal : Nat) {sl : Slot} (h : sl.egOut = 511) : levelOf amVal sl = 511 := by
  rw [levelOf, h, Nat.add_assoc]
  exact min_eq_left (Nat.le_add_right _ _)

/-! ## A slot at `EG_MUTE` (R200 to R204, R301) -/

/-- No transition leaves its state at level 511: DECAY would only for a sustain level of 31. -/
theorem Slot.nextState_of_mute {sl : Slot} {st : EgState} (h : sl.egState = st) (hst : st ≠ .attack) :
    Slot.nextState { sl with egOut := 511 } = st := by
  cases st with
  | attack => exact absurd rfl hst
  | decay =>
    have hsl := sl.sl.isLt
    rw [Slot.nextState_of_decay h]
    exact if_neg fun ⟨_, hreached⟩ => by omega
  | sustain => exact Slot.nextState_of_sustain h _
  | release => exact Slot.nextState_of_release h _

theorem Slot.egStep_of_mute (tick : BitVec 16) {sl : Slot} (hst : sl.egState ≠ .attack) (hmute : sl.egOut = 511) :
    (sl.egStep tick).egState = sl.egState ∧ (sl.egStep tick).egOut = 511 := by
  have hlevel : (sl.egStep tick).egOut = 511 := by
    rw [Slot.egStep_egOut, Slot.updatedLevel_of_ne_attack hst, hmute, min_eq_left (Nat.le_add_right _ _), ite_self]
  refine ⟨?_, hlevel⟩
  rw [Slot.egStep_egState, hlevel]
  exact Slot.nextState_of_mute rfl hst

theorem Chip.tick1_envelope_of_mute {c : Chip} {i : SlotId} (hq : c.quiet) (hst : (c.slotAt i).egState ≠ .attack)
    (hmute : (c.slotAt i).egOut = 511) :
    (c.tick1.slotAt i).egState = (c.slotAt i).egState ∧ (c.tick1.slotAt i).egOut = 511 := by
  obtain ⟨hpreState, hpreLevel, _⟩ := Chip.slotAt_preTick_envelope_of_quiet hq i
  obtain ⟨hlevel, hstate⟩ := c.tick1_envelope i
  rw [hlevel, hstate, ← hpreState]
  rw [← hpreState] at hst
  exact Slot.egStep_of_mute (sl := commitSlot c.nts (c.chanFor i) (c.preTick.slotAt i)) _ hst (hpreLevel.trans hmute)

/-- The output a tick records is decoded at the level that tick leaves. -/
theorem Chip.tick1_out1_of_mute {c : Chip} {i : SlotId} (hmute : (c.tick1.slotAt i).egOut = 511) :
    (c.tick1.slotAt i).out1 = 0 := by
  rw [Chip.slotAt_tick1] at hmute ⊢
  obtain ⟨h, hout⟩ := c.atOutputs.slotOutput_eq_decodeWave i
  dsimp only at hmute ⊢
  rw [hout, levelOf_of_mute _ hmute]
  exact decodeWave_eq_zero_of_mute h (Nat.le_refl _)

/-- Settles O26: the decoded magnitude is bounded by a halving of 4084; a muted slot out of ATTACK is fixed by its
envelope step, and its output is decoded at the level that stays. -/
theorem decodeIsBoundedAndSilentAtMute : Obligations.DecodeIsBoundedAndSilentAtMute := by
  refine ⟨fun h lvl => ?_, fun c i hq hst hmute => ?_⟩
  · obtain ⟨hlow, hhigh⟩ := decodeWave_bounded h lvl
    exact ⟨hlow, hhigh, decodeWave_eq_zero_of_mute h⟩
  · obtain ⟨hstate, hlevel⟩ := Chip.tick1_envelope_of_mute hq hst hmute
    exact ⟨hstate, hlevel, Chip.tick1_out1_of_mute hlevel⟩

end Sys2Proof.Machine
end

section
/-!
PROOFS. The statements of 44_channel_rhythm.md: the outputs of the melodic channels (R260 to R264) and of the
percussion voices (R271 to R276), the mix (R265, R266, R277) and what the mute mask reaches (R320).
-/

namespace Sys2Proof.Machine

/-! ## A coherent slot's output from its patch fields (R162, R231, R234, R235, R239) -/

theorem Slot.pidx_toNat (sl : Slot) : sl.pidx.toNat = sl.phase.toNat / 2 ^ 11 := by
  have hphase := sl.phase.isLt
  rw [Slot.pidx, BitVec.extractLsb'_toNat, Nat.shiftRight_eq_div_pow]
  exact Nat.mod_eq_of_lt (by omega)

theorem levelOf_of_cacheShown {ch : Channel} {sl : Slot} (h : sl.cacheShown ch) (amVal : Nat) :
    levelOf amVal sl = min 511 (sl.egOut + tllOf ch sl.tl sl.kl + if sl.am then amVal else 0) := by
  obtain ⟨_, htll, _⟩ := h
  rw [levelOf, htll, egMute]

theorem voiceOut_of_cacheShown {ch : Channel} {sl : Slot} (h : sl.cacheShown ch) (amVal : Nat) (idx : BitVec 10) :
    voiceOut amVal sl idx
      = decodeWave (waveEntry sl.ws idx) (min 511 (sl.egOut + tllOf ch sl.tl sl.kl + if sl.am then amVal else 0)) := by
  rw [voiceOut, levelOf_of_cacheShown h]
  obtain ⟨hwave, _⟩ := h
  rw [hwave]

/-- An operator is a voice at its own phase index, offset by its modulation. -/
theorem slotOut_eq_voiceOut (amVal : Nat) (sl : Slot) (mod : Int) :
    slotOut amVal sl mod
      = voiceOut amVal sl (BitVec.ofInt 10 (((sl.phase.toNat / 2 ^ 11 : Nat) : Int) + mod)) := by
  rw [slotOut, voiceOut, Slot.pidx_toNat]

/-- The floor shift as a floor division (R260). -/
theorem feedback_eq (fb : BitVec 3) (out1 out2 : Int) :
    feedback fb out1 out2 = if fb = 0 then 0 else (out1 + out2) / 2 ^ (9 - fb.toNat) := by
  rw [feedback, Int.shiftRight_eq_div_pow]
  push_cast
  rfl

/-! ## What a tick records of a slot (R264) -/

theorem Chip.tick1_out1 (c : Chip) (i : SlotId) : (c.tick1.slotAt i).out1 = c.atOutputs.slotOutput i := by
  rw [Chip.slotAt_tick1]

/-- Steps 0 to 4 touch no history, so the shift moves the output of the tick before. -/
theorem Chip.tick1_out2 (c : Chip) (i : SlotId) : (c.tick1.slotAt i).out2 = (c.slotAt i).out1 := by
  obtain ⟨_, _, _, _, _, _, _, _, _, _, _, _, hout1, _⟩ := c.slotAt_preTick_patch i
  obtain ⟨_, hstep, _⟩ := Slot.egStep_kept c.preTick.tick
    (commitSlot c.preTick.nts (c.preTick.chanFor i) (c.preTick.slotAt i))
  rw [Chip.slotAt_tick1, Chip.slotAt_atOutputs, ← hout1]
  exact hstep

/-! ## Melodic channels (R260 to R263) -/

theorem Chip.melodicOut_modSlot (c : Chip) (ch : ChanId) : c.melodicOut (modSlot ch) = c.modOut ch := by
  simp [Chip.melodicOut]

theorem Chip.melodicOut_carSlot (c : Chip) (ch : ChanId) : c.melodicOut (carSlot ch) = c.carOut ch := by
  simp [Chip.melodicOut]

/-- Only slots of channels 7 and 8 sound as voices in percussion mode (R86, R271). -/
theorem Chip.slotOutput_of_melodic {c : Chip} {i : SlotId} (h : c.rhythm = false ∨ (chanOfSlot i).val < 7) :
    c.slotOutput i = c.melodicOut i := by
  unfold Chip.slotOutput
  split
  next hr =>
    have hch : (chanOfSlot i).val < 7 := h.resolve_left (by simp [hr])
    have hslot : i.val < 13 ∨ i.val = 15 := by
      simp only [chanOfSlot] at hch
      omega
    split
    next hi => omega
    next hi => omega
    next hi => omega
    next hi => omega
    next => rfl
  next => rfl

theorem Chip.tick1_out1_modSlot {c : Chip} {ch : ChanId} (h : c.rhythm = false ∨ ch.val < 7) :
    (c.tick1.slotAt (modSlot ch)).out1 = c.atOutputs.modOut ch := by
  rw [Chip.tick1_out1, Chip.slotOutput_of_melodic (by rwa [Chip.atOutputs_rhythm, chanOfSlot_modSlot]),
    Chip.melodicOut_modSlot]

theorem Chip.tick1_out1_carSlot {c : Chip} {ch : ChanId} (h : c.rhythm = false ∨ ch.val < 7) :
    (c.tick1.slotAt (carSlot ch)).out1 = c.atOutputs.carOut ch := by
  rw [Chip.tick1_out1, Chip.slotOutput_of_melodic (by rwa [Chip.atOutputs_rhythm, chanOfSlot_carSlot]),
    Chip.melodicOut_carSlot]

/-- Settles O28: the tick records `modOut` and `carOut` of the channel; the selector and total level they use are
those of the patch fields. -/
theorem melodicChannelOutputs : Obligations.MelodicChannelOutputs := by
  intro c ch hc hmelodic k m a out fb fbmod modOut carOut
  have hchan : k.chanAt ch = c.chanAt ch := Chip.chanAt_congr (Chip.atOutputs_chan c) ch
  have hout (i : SlotId) (hi : chanOfSlot i = ch) (mod : Int) :
      slotOut k.amVal (k.slotAt i) mod = out (k.slotAt i) mod := by
    have hshown := Chip.cacheShown_atOutputs c hc i
    rw [Chip.chanFor, hi] at hshown
    rw [slotOut_eq_voiceOut, voiceOut_of_cacheShown hshown]
  have hmod : k.modOut ch = modOut := by
    rw [Chip.modOut, hout _ (chanOfSlot_modSlot ch), feedback_eq, hchan]
  have hcar : k.carOut ch = carOut := by
    rw [Chip.carOut, hout _ (chanOfSlot_carSlot ch), hmod, hchan]
  refine ⟨(Chip.tick1_out1_modSlot hmelodic).trans hmod, (Chip.tick1_out1_carSlot hmelodic).trans hcar,
    c.tick1_out2 _, c.tick1_out2 _, ?_⟩
  rw [Chip.chOut, hmod, hcar, hchan]

/-! ## The percussion indices (R272 to R274) -/

theorem Chip.getLsbD_hh (c : Chip) (i : Nat) :
    c.hh.getLsbD i = ((c.slotAt 13).phase.toNat / 2 ^ 11).testBit i := by
  rw [Chip.hh, ← BitVec.testBit_toNat, Slot.pidx_toNat]

theorem Chip.getLsbD_tc (c : Chip) (i : Nat) :
    c.tc.getLsbD i = ((c.slotAt 17).phase.toNat / 2 ^ 11).testBit i := by
  rw [Chip.tc, ← BitVec.testBit_toNat, Slot.pidx_toNat]

theorem Chip.idxHH_eq (c : Chip) :
    c.idxHH = BitVec.ofNat 10 (512 * c.metalBit.toNat + if c.metalBit != c.noiseBit then 0xD0 else 0x34) := by
  unfold Chip.idxHH
  cases c.metalBit <;> cases c.noiseBit <;> rfl

theorem Chip.idxSD_eq (c : Chip) :
    c.idxSD
      = BitVec.ofNat 10 (512 * (c.hh.getLsbD 8).toNat + 256 * (c.hh.getLsbD 8 != c.noiseBit).toNat) := by
  unfold Chip.idxSD
  cases c.hh.getLsbD 8 <;> cases c.noiseBit <;> rfl

theorem Chip.idxTC_eq (c : Chip) : c.idxTC = BitVec.ofNat 10 (512 * c.metalBit.toNat + 0x80) := by
  unfold Chip.idxTC
  cases c.metalBit <;> rfl

theorem Chip.slotOutput_of_rhythm {c : Chip} (h : c.rhythm = true) :
    c.slotOutput 13 = c.voiceOutput .hh ∧ c.slotOutput 14 = c.voiceOutput .tom
      ∧ c.slotOutput 16 = c.voiceOutput .sd ∧ c.slotOutput 17 = c.voiceOutput .tc :=
  ⟨if_pos h, if_pos h, if_pos h, if_pos h⟩

/-- In percussion mode a tick records the four single-operator voices in their slots (R86, R264). -/
theorem Chip.tick1_out1_of_rhythm {c : Chip} (h : c.rhythm = true) :
    (c.tick1.slotAt 13).out1 = c.atOutputs.voiceOutput .hh ∧ (c.tick1.slotAt 14).out1 = c.atOutputs.voiceOutput .tom
      ∧ (c.tick1.slotAt 16).out1 = c.atOutputs.voiceOutput .sd
      ∧ (c.tick1.slotAt 17).out1 = c.atOutputs.voiceOutput .tc := by
  simp only [Chip.tick1_out1]
  exact Chip.slotOutput_of_rhythm ((Chip.atOutputs_rhythm c).trans h)

/-- Settles O29: each voice is decoded at its index, whose bits are those of the phases of slots 13 and 17. -/
theorem percussionVoiceOutputs : Obligations.PercussionVoiceOutputs := by
  intro c hc hrhythm k hh tc nb x out
  have hout (i : SlotId) (idx : Nat) : voiceOut k.amVal (k.slotAt i) (BitVec.ofNat 10 idx) = out i idx :=
    voiceOut_of_cacheShown (Chip.cacheShown_atOutputs c hc i) _ _
  have hbit (i : Nat) : k.hh.getLsbD i = hh.testBit i := k.getLsbD_hh i
  have htc (i : Nat) : k.tc.getLsbD i = tc.testBit i := k.getLsbD_tc i
  have hx : k.metalBit = x := by
    simp only [Chip.metalBit, hbit, htc]
    rfl
  have hnb : k.noiseBit = nb := rfl
  obtain ⟨hHH, hTOM, hSD, hTC⟩ := Chip.tick1_out1_of_rhythm hrhythm
  refine ⟨?_, ?_, ?_, ?_⟩
  · rw [hHH, Chip.voiceOutput, Chip.idxHH_eq, hx, hnb]
    exact hout _ _
  · rw [hSD, Chip.voiceOutput, Chip.idxSD_eq, hbit, hnb]
    exact hout _ _
  · rw [hTC, Chip.voiceOutput, Chip.idxTC_eq, hx]
    exact hout _ _
  · rw [hTOM, Chip.voiceOutput, slotOut_eq_voiceOut, Int.add_zero, BitVec.ofInt_natCast]
    exact hout _ _

/-! ## The mix (R265, R266, R277) -/

theorem clampSample_toInt (v : Int) : (clampSample v).toInt = max (-32768) (min 32767 v) := by
  rw [clampSample, BitVec.toInt_ofInt, Int.bmod_eq_of_le] <;> omega

theorem Chip.tick1_mixOut_toInt (c : Chip) :
    c.tick1.mixOut.toInt = max (-32768) (min 32767 c.atOutputs.mixSum) := by
  rw [Chip.tick1_mixOut, Chip.mix, clampSample_toInt]

/-- Settles O30: `mixSum` adds the same terms, read off the slots the tick records them in. -/
theorem mixIsTheSaturatedSum : Obligations.MixIsTheSaturatedSum := by
  intro c k t chan voice acc
  have hchan (ch : ChanId) : k.chanMix ch = chan ch := by
    rw [Chip.chanMix, Chip.atOutputs_muteMask]
  have hvoice (v : Voice) : k.voiceMix v = voice v.muteBit (k.voiceOutput v) := by
    rw [Chip.voiceMix, Chip.atOutputs_muteMask, rhythmGain]
  have hbd : k.voiceOutput .bd = k.chOut 6 := rfl
  have hsum : k.mixSum = acc := by
    simp only [Chip.mixSum, hchan, hvoice, hbd, Voice.muteBit, Chip.atOutputs_rhythm, k, acc]
    split
    next hrhythm =>
      obtain ⟨hHH, hTOM, hSD, hTC⟩ := Chip.tick1_out1_of_rhythm hrhythm
      rw [hHH, hTOM, hSD, hTC]
      ring
    next => ring
  rw [← hsum]
  exact c.tick1_mixOut_toInt

/-! ## What the mute mask reaches (R265, R320) -/

/-- The chip with another mute mask and another last sample. -/
def Chip.withMute (c : Chip) (m : BitVec 14) (x : Sample) : Chip := { c with muteMask := m, mixOut := x }

section WithMute
variable (c : Chip) (m : BitVec 14) (x : Sample)

theorem Chip.commit_withMute : (c.withMute m x).commit = c.commit.withMute m x := rfl
theorem Chip.lfoStep_withMute : (c.withMute m x).lfoStep = c.lfoStep.withMute m x := rfl
theorem Chip.noiseStep_withMute : (c.withMute m x).noiseStep = c.noiseStep.withMute m x := rfl
theorem Chip.timer2Step_withMute : (c.withMute m x).timer2Step = c.timer2Step.withMute m x := rfl
theorem Chip.updateKeys_withMute : (c.withMute m x).updateKeys = c.updateKeys.withMute m x := rfl
theorem Chip.slotsTick_withMute : (c.withMute m x).slotsTick = c.slotsTick.withMute m x := rfl
theorem Chip.shiftHistory_withMute : (c.withMute m x).shiftHistory = c.shiftHistory.withMute m x := rfl

theorem Chip.csmRelease_withMute : (c.withMute m x).csmRelease = c.csmRelease.withMute m x := by
  unfold Chip.csmRelease
  rw [apply_ite (Chip.withMute · m x)]
  rfl

theorem Chip.timer1Step_withMute : (c.withMute m x).timer1Step = c.timer1Step.withMute m x := by
  unfold Chip.timer1Step
  dsimp only
  rw [apply_ite (Chip.withMute · m x)]
  rfl

theorem Chip.preTick_withMute : (c.withMute m x).preTick = c.preTick.withMute m x := by
  simp only [Chip.preTick, Chip.timerStep, Chip.commit_withMute, Chip.lfoStep_withMute, Chip.csmRelease_withMute,
    Chip.timer1Step_withMute, Chip.timer2Step_withMute, Chip.noiseStep_withMute]

/-- Only the mix of a tick reads the mask, and nothing reads the last sample. -/
theorem Chip.tick1_withMute : (c.withMute m x).tick1 = c.tick1.withMute m (c.atOutputs.withMute m x).mix := by
  rw [Chip.tick1, Chip.preTick_withMute, Chip.slotsTick_withMute, Chip.outputTick, Chip.shiftHistory_withMute]
  rfl

end WithMute

/-- The mask and the last sample never reach the other fields, however many ticks (R290). -/
theorem render_withMute (m : BitVec 14) (n : Nat) : ∀ (c : Chip) (x : Sample),
    ∃ y, (render n (c.withMute m x)).2 = (render n c).2.withMute m y := by
  induction n with
  | zero => exact fun c x => ⟨x, rfl⟩
  | succ n ih =>
    intro c x
    obtain ⟨y, hy⟩ := ih c.tick1 (c.atOutputs.withMute m x).mix
    refine ⟨y, ?_⟩
    rw [← Chip.tick1_withMute] at hy
    exact hy

/-- Settles O31: the changed chip is `withMute` of the other at its own last sample. -/
theorem muteChangesOnlyTheMix : Obligations.MuteChangesOnlyTheMix :=
  fun n c m => render_withMute m n c c.mixOut

end Sys2Proof.Machine
end

section
/-!
PROOFS. The statements of 45_render.md on a render as its ticks (R290, R424) and on `setMask` (R320).
-/

namespace Sys2Proof.Machine

/-! ## Renders as iterated ticks (R290) -/

/-- A render of one tick more ticks once and renders the rest (R290). -/
theorem render_succ (n : Nat) (c : Chip) :
    render (n + 1) c = (c.tick1.mixOut :: (render n c.tick1).1, (render n c.tick1).2) := rfl

theorem render_state (n : Nat) : ∀ c : Chip, (render n c).2 = Chip.tick1^[n] c := by
  induction n with
  | zero => exact fun c => rfl
  | succ n ih => exact fun c => ih c.tick1

theorem render_samples (n : Nat) : ∀ c : Chip,
    (render n c).1 = (List.range n).map fun k => (Chip.tick1^[k + 1] c).mixOut := by
  induction n with
  | zero => exact fun c => rfl
  | succ n ih =>
    intro c
    rw [render_succ, ih, List.range_succ_eq_map, List.map_cons, List.map_map]
    rfl

/-- A render split in two (R424). -/
theorem render_add (a b : Nat) : ∀ c : Chip,
    render (a + b) c = ((render a c).1 ++ (render b (render a c).2).1, (render b (render a c).2).2) := by
  induction a with
  | zero =>
    intro c
    rw [Nat.zero_add]
    rfl
  | succ a ih =>
    intro c
    rw [Nat.succ_add, render_succ, ih]
    rfl

/-- Settles O35: the end state, the samples and the split are each an induction over the ticks. -/
theorem renderIsIteratedTicks : Obligations.RenderIsIteratedTicks := by
  refine ⟨fun n c => ⟨render_state n c, render_length n c, fun k hk => ?_⟩, fun a b c => ?_⟩
  · rw [render_samples, List.getElem?_map, List.getElem?_range hk]
    rfl
  · rw [render_add]
    exact ⟨rfl, rfl⟩

/-- Settles O45: on a ready state the command runs, and its meaning is the next state stated. -/
theorem setMaskSetsOnlyTheMask : Obligations.SetMaskSetsOnlyTheMask :=
  fun _ _ hs => issue_of_ready hs true _

end Sys2Proof.Machine
end

section
/-!
PROOFS. The batch renderer of 45_render.md gives the ticks (R300): chip-wide its schedule is that of the ticks, each
slot's loops run the slot's ticks, and the buffers it mixes hold the outputs of the ticks.
-/

namespace Sys2Proof.Machine

/-! ## The chip-wide schedule (R300) -/

/-- A chip without its slots and its last sample: what the chip-wide part of a tick moves. -/
def Chip.frame (c : Chip) : Chip := { c with slot := Vector.replicate 18 Slot.initial, mixOut := 0 }

theorem Chip.eq_of_frame {c d : Chip} (hframe : c.frame = d.frame) (hslot : ∀ i, c.slotAt i = d.slotAt i)
    (hmix : c.mixOut = d.mixOut) : c = d := by
  have hv : c.slot = d.slot := Vector.ext fun i hi => hslot ⟨i, hi⟩
  cases c
  cases d
  simp_all [Chip.frame]

/-- What reads a chip through its frame alone answers the same on chips of the same frame. -/
theorem Chip.eq_of_reads_frame {α : Type} {f : Chip → α} (hf : ∀ c, f c = f c.frame) {c d : Chip}
    (h : c.frame = d.frame) : f c = f d := by
  rw [hf c, h, ← hf]

section SameFrame
variable {c d : Chip} (h : c.frame = d.frame)
include h

theorem Chip.nts_of_frame : c.nts = d.nts := Chip.eq_of_reads_frame (fun _ => rfl) h
theorem Chip.noise_of_frame : c.noise = d.noise := Chip.eq_of_reads_frame (fun _ => rfl) h
theorem Chip.amVal_of_frame : c.amVal = d.amVal := Chip.eq_of_reads_frame (fun _ => rfl) h
theorem Chip.chanFor_of_frame (i : SlotId) : c.chanFor i = d.chanFor i :=
  Chip.eq_of_reads_frame (f := (Chip.chanFor · i)) (fun _ => rfl) h
theorem Chip.slotTick_of_frame (i : SlotId) (sl : Slot) : c.slotTick i sl = d.slotTick i sl :=
  Chip.eq_of_reads_frame (f := (Chip.slotTick · i sl)) (fun _ => rfl) h

/-- No key edge reads another slot (R141). -/
theorem Chip.slotEdges_of_frame (i : SlotId) (sl : Slot) : c.slotEdges i sl = d.slotEdges i sl :=
  Chip.eq_of_reads_frame (f := (Chip.slotEdges · i sl))
    (fun k => Chip.slotEdges_congr (c := k) (d := k.frame) rfl rfl rfl rfl rfl rfl rfl rfl i sl) h

end SameFrame

/-! ## What a tick does chip-wide (R291) -/

theorem Chip.frame_mapSlots (c : Chip) (f : SlotId → Slot → Slot) : (c.mapSlots f).frame = c.frame := by
  simp only [Chip.frame, Chip.mapSlots]

theorem Chip.frame_updSlot (c : Chip) (i : SlotId) (f : Slot → Slot) : (c.updSlot i f).frame = c.frame := by
  simp only [Chip.frame, Chip.updSlot]

theorem Chip.frame_withMix (c : Chip) (x : Sample) : Chip.frame { c with mixOut := x } = c.frame := rfl
theorem Chip.frame_withKeyMask (c : Chip) (m : BitVec 18) :
    Chip.frame { c with keyMask := m } = { c.frame with keyMask := m } := rfl
theorem Chip.frame_lfoStep (c : Chip) : c.lfoStep.frame = c.frame.lfoStep := rfl
theorem Chip.frame_noiseStep (c : Chip) : c.noiseStep.frame = c.frame.noiseStep := rfl
theorem Chip.frame_timer2Step (c : Chip) : c.timer2Step.frame = c.frame.timer2Step := rfl

theorem Chip.frame_updateKeys (c : Chip) : c.updateKeys.frame = { c.frame with keyMask := c.frame.wantMask } := by
  have hwant : c.frame.wantMask = c.wantMask := Chip.wantMask_congr rfl rfl rfl rfl
  rw [Chip.updateKeys, Chip.frame_withKeyMask, Chip.frame_mapSlots, hwant]

theorem Chip.frame_csmRelease (c : Chip) : c.csmRelease.frame = c.frame.csmRelease.frame := by
  unfold Chip.csmRelease
  rw [apply_ite Chip.frame, apply_ite Chip.frame, Chip.frame_updateKeys, Chip.frame_updateKeys]
  rfl

theorem Chip.frame_timer1Step (c : Chip) : c.timer1Step.frame = c.frame.timer1Step.frame := by
  unfold Chip.timer1Step
  dsimp only
  rw [apply_ite Chip.frame, apply_ite Chip.frame, Chip.frame_updateKeys, Chip.frame_updateKeys]
  rfl

theorem Chip.frame_control (c : Chip) : c.control.frame = c.frame.control.frame := by
  unfold Chip.control Chip.timerStep
  rw [Chip.frame_noiseStep, Chip.frame_timer2Step, Chip.frame_timer1Step, Chip.frame_csmRelease, Chip.frame_lfoStep,
    Chip.frame_noiseStep, Chip.frame_timer2Step, Chip.frame_timer1Step c.frame.lfoStep.csmRelease]

theorem Chip.control_of_frame {c d : Chip} (h : c.frame = d.frame) : c.control.frame = d.control.frame :=
  Chip.eq_of_reads_frame (f := fun k => k.control.frame) Chip.frame_control h

/-- Step 0 of a tick changes slots alone, so chip-wide its first four steps are the schedule's (R291). -/
theorem Chip.frame_preTick (c : Chip) : c.preTick.frame = c.control.frame := by
  have hcommit : c.commit.frame = c.frame := c.frame_mapSlots _
  rw [Chip.preTick, ← Chip.control, Chip.control_of_frame hcommit]

theorem Chip.frame_atOutputs (c : Chip) : c.atOutputs.frame = c.control.frame := by
  rw [Chip.atOutputs, Chip.slotsTick, Chip.frame_mapSlots, Chip.frame_preTick]

/-- Steps 5 to 7 of a tick change the slots and the last sample alone (R291). -/
theorem Chip.frame_outputTick (c : Chip) : c.outputTick.frame = c.frame := by
  unfold Chip.outputTick Chip.shiftHistory
  rw [Chip.frame_withMix, Chip.frame_mapSlots]

theorem Chip.frame_tick1 (c : Chip) : c.tick1.frame = c.control.frame := by
  rw [Chip.tick1, Chip.frame_outputTick, Chip.frame_atOutputs]

theorem Chip.frame_iterate_control (c : Chip) (n : Nat) : (Chip.control^[n] c).frame = (Chip.tick1^[n] c).frame := by
  induction n with
  | zero => rw [Function.iterate_zero, Function.iterate_zero]
  | succ n ih =>
    rw [Function.iterate_succ_apply', Function.iterate_succ_apply', Chip.frame_tick1]
    exact Chip.control_of_frame ih

theorem schedule_eq (n : Nat) : ∀ c : Chip, schedule n c = (List.range n).map fun k => Chip.control^[k] c := by
  induction n with
  | zero => exact fun c => rfl
  | succ n ih =>
    intro c
    rw [schedule, ih, List.range_succ_eq_map, List.map_cons, List.map_map]
    rfl

/-! ## The ticks of a span -/

/-- The chip at the outputs of each of `n` ticks (R291). -/
def ticks (n : Nat) (c : Chip) : List Chip := (List.range n).map fun k => (Chip.tick1^[k] c).atOutputs

theorem ticks_succ (n : Nat) (c : Chip) : ticks (n + 1) c = c.atOutputs :: ticks n c.tick1 := by
  rw [ticks, List.range_succ_eq_map, List.map_cons, List.map_map]
  rfl

theorem ticks_concat (n : Nat) (c : Chip) : ticks (n + 1) c = ticks n c ++ [(Chip.tick1^[n] c).atOutputs] := by
  rw [ticks, List.range_succ, List.map_append]
  rfl

theorem render_samples_eq_mix (n : Nat) (c : Chip) : (render n c).1 = (ticks n c).map Chip.mix := by
  rw [render_samples, ticks, List.map_map]
  refine List.map_congr_left fun k _ => ?_
  rw [Function.iterate_succ_apply', Chip.tick1_mixOut]
  rfl

/-- Chip-wide the schedule holds during each tick what the tick has at its outputs. -/
theorem frame_schedule (n : Nat) (c : Chip) :
    ((schedule n c).map Chip.control).map Chip.frame = (ticks n c).map Chip.frame := by
  rw [schedule_eq, ticks, List.map_map, List.map_map, List.map_map]
  refine List.map_congr_left fun k _ => ?_
  change (Chip.control^[k] c).control.frame = (Chip.tick1^[k] c).atOutputs.frame
  rw [Chip.frame_atOutputs]
  exact Chip.control_of_frame (Chip.frame_iterate_control c k)

/-- What no tick changes holds at all outputs of the span (R291). -/
theorem ticks_kept {n : Nat} {c k : Chip} (hk : k ∈ ticks n c) :
    k.chan = c.chan ∧ k.rhythm = c.rhythm ∧ k.muteMask = c.muteMask := by
  obtain ⟨j, _, rfl⟩ := List.mem_map.1 hk
  rw [← render_state]
  refine render_keeps (P := fun d => d.atOutputs.chan = c.chan ∧ d.atOutputs.rhythm = c.rhythm
    ∧ d.atOutputs.muteMask = c.muteMask) (fun d hd => ?_) j c ?_
  · simpa using hd
  · simp

/-! ## One slot over a span (R300) -/

/-- A slot with another output history. -/
def Slot.withHistory (o1 o2 : Int) (sl : Slot) : Slot := { sl with out1 := o1, out2 := o2 }

section WithHistory
variable (o1 o2 : Int) (nts : Bool) (ch : Channel) (sl : Slot)

theorem Slot.withHistory_self : sl.withHistory sl.out1 sl.out2 = sl := rfl
theorem Slot.withHistory_out1 : (sl.withHistory o1 o2).out1 = o1 := rfl
theorem commitSlot_withHistory :
    commitSlot nts ch (sl.withHistory o1 o2) = (commitSlot nts ch sl).withHistory o1 o2 := rfl
theorem slotOff_withHistory : slotOff (sl.withHistory o1 o2) = (slotOff sl).withHistory o1 o2 := rfl

theorem slotOn_withHistory : slotOn nts ch (sl.withHistory o1 o2) = (slotOn nts ch sl).withHistory o1 o2 := by
  unfold slotOn
  dsimp only
  rw [commitSlot_withHistory, apply_ite (Slot.markDirty Dirty.forRate), apply_ite (Slot.markDirty Dirty.forRate),
    apply_ite (Slot.withHistory o1 o2)]
  rfl

theorem Chip.keyEdge_withHistory (c : Chip) (i : SlotId) :
    c.keyEdge i (sl.withHistory o1 o2) = (c.keyEdge i sl).withHistory o1 o2 := by
  rw [Chip.keyEdge_eq, Chip.keyEdge_eq, slotOn_withHistory, slotOff_withHistory]
  simp only [apply_ite (Slot.withHistory o1 o2)]

theorem Chip.slotEdges_withHistory (c : Chip) (i : SlotId) :
    c.slotEdges i (sl.withHistory o1 o2) = (c.slotEdges i sl).withHistory o1 o2 := by
  unfold Chip.slotEdges
  simp only [Chip.keyEdge_withHistory, ← apply_ite (Slot.withHistory o1 o2)]

theorem Slot.enter_withHistory (st : EgState) : (sl.withHistory o1 o2).enter st = (sl.enter st).withHistory o1 o2 := by
  unfold Slot.enter
  rw [apply_ite (Slot.withHistory o1 o2)]
  rfl

theorem Slot.egStep_withHistory (tick : BitVec 16) :
    (sl.withHistory o1 o2).egStep tick = (sl.egStep tick).withHistory o1 o2 :=
  Slot.enter_withHistory o1 o2 { sl with egOut := _ } _

theorem Chip.slotTick_withHistory (c : Chip) (i : SlotId) :
    c.slotTick i (sl.withHistory o1 o2) = (c.slotTick i sl).withHistory o1 o2 := by
  unfold Chip.slotTick
  dsimp only
  rw [commitSlot_withHistory, Slot.egStep_withHistory]
  rfl

/-- No output reads the history of its own slot: feedback is handed to it (R239, R261). -/
theorem slotOut_withHistory (amVal : Nat) (mod : Int) :
    slotOut amVal (sl.withHistory o1 o2) mod = slotOut amVal sl mod := rfl
theorem voiceOut_withHistory (amVal : Nat) (idx : BitVec 10) :
    voiceOut amVal (sl.withHistory o1 o2) idx = voiceOut amVal sl idx := rfl

end WithHistory

/-- A slot after the tick that begins in the chip-wide state `c`, its history not shifted (R291). -/
def Chip.slotThrough (c : Chip) (i : SlotId) (sl : Slot) : Slot :=
  c.control.slotTick i (c.slotEdges i (commitSlot c.nts (c.chanFor i) sl))

/-- A slot as each tick of a span leaves it. -/
def slotTrace (i : SlotId) : List Chip → Slot → List Slot
  | [], _ => []
  | c :: cs, sl => c.slotThrough i sl :: slotTrace i cs (c.slotThrough i sl)

theorem commitSlot_of_clean {sl : Slot} (h : sl.dirty = Dirty.none) (nts : Bool) (ch : Channel) :
    commitSlot nts ch sl = sl := by
  cases sl
  cases h
  rfl

theorem Slot.enter_dirty_of_stay {st : EgState} {sl : Slot} (h : (sl.enter st).egState = sl.egState) :
    (sl.enter st).dirty = sl.dirty := by
  obtain ⟨hst, _⟩ := sl.enter_eq st
  rw [Slot.enter, if_pos (hst.symm.trans h)]

/-- An envelope step that stays in its state flags nothing (R142, R203). -/
theorem Slot.egStep_dirty_of_stay {tick : BitVec 16} {sl : Slot} (h : (sl.egStep tick).egState = sl.egState) :
    (sl.egStep tick).dirty = sl.dirty :=
  Slot.enter_dirty_of_stay (sl := { sl with egOut := _ }) h

/-- One tick of a slot inside a loop of the batch renderer, before the commit. -/
def Chip.loopTick (k : Chip) (i : SlotId) (sl : Slot) : Slot :=
  (sl.egStep k.tick).advancePhase (phaseInc k.dvb k.pmPos (k.chanFor i) sl)

/-- Step 4 of a tick for a slot with no flag set commits only what its envelope step flags (R42, R291). -/
theorem Chip.slotTick_of_clean {sl : Slot} (h : sl.dirty = Dirty.none) (k : Chip) (i : SlotId) :
    k.slotTick i sl = commitSlot k.nts (k.chanFor i) (k.loopTick i sl) := by
  have hpatch : samePatchAndHistory (sl.egStep k.tick) sl :=
    Slot.egStep_patch k.tick ⟨rfl, rfl, rfl, rfl, rfl, rfl, rfl, rfl, rfl, rfl, rfl, rfl, rfl, rfl⟩
  unfold Chip.slotTick
  dsimp only
  rw [commitSlot_of_clean h, phaseInc_of_samePatch _ _ _ hpatch]
  rfl

theorem Chip.slotTick_dirty (k : Chip) (i : SlotId) (sl : Slot) : (k.slotTick i sl).dirty = Dirty.none := rfl

/-- In a tick without a key edge a slot with no flag set only takes step 4. -/
theorem Chip.slotThrough_of_no_edge {c : Chip} (hedge : c.hasEdge = false) {sl : Slot} (h : sl.dirty = Dirty.none)
    (i : SlotId) : c.slotThrough i sl = c.control.slotTick i sl := by
  rw [Chip.slotThrough, Chip.slotEdges_of_no_edge hedge, commitSlot_of_clean h]

/-- The loop goes on with the slot step 4 leaves, or it ends with that slot. -/
theorem slotLoop_cons {sl : Slot} (h : sl.dirty = Dirty.none) (i : SlotId) (c : Chip) (cs : List Chip) :
    cs.head?.any Chip.hasEdge = false
        ∧ slotLoop i (c :: cs) sl = (c.control.slotTick i sl :: (slotLoop i cs (c.control.slotTick i sl)).1,
          (slotLoop i cs (c.control.slotTick i sl)).2)
      ∨ slotLoop i (c :: cs) sl = ([c.control.slotTick i sl], c.control.slotTick i sl, cs) := by
  rw [Chip.slotTick_of_clean h]
  by_cases hon : (c.control.loopTick i sl).egState = sl.egState ∧ cs.head?.any Chip.hasEdge = false
  case pos =>
    obtain ⟨hstay, hedge⟩ := hon
    have hclean : (c.control.loopTick i sl).dirty = Dirty.none := (Slot.egStep_dirty_of_stay hstay).trans h
    rw [commitSlot_of_clean hclean]
    exact .inl ⟨hedge, if_pos ⟨hstay, hedge⟩⟩
  case neg => exact .inr (if_neg hon)

/-- One loop of the batch renderer gives the ticks it covers; the trace of the rest resumes from its end. -/
theorem slotLoop_append_slotTrace (i : SlotId) (cs : List Chip) : ∀ (c : Chip) (sl : Slot), sl.dirty = Dirty.none →
    (slotLoop i (c :: cs) sl).1 ++ slotTrace i (slotLoop i (c :: cs) sl).2.2 (slotLoop i (c :: cs) sl).2.1
        = c.control.slotTick i sl :: slotTrace i cs (c.control.slotTick i sl)
      ∧ (slotLoop i (c :: cs) sl).2.2.length ≤ cs.length := by
  induction cs with
  | nil =>
    intro c sl h
    obtain ⟨_, hon⟩ | hend := slotLoop_cons h i c []
    · rw [hon]
      exact ⟨rfl, Nat.le_refl _⟩
    · rw [hend]
      exact ⟨rfl, Nat.le_refl _⟩
  | cons c' cs ih =>
    intro c sl h
    obtain ⟨hedge, hon⟩ | hend := slotLoop_cons h i c (c' :: cs)
    · obtain ⟨htrace, hlen⟩ := ih c' (c.control.slotTick i sl) (c.control.slotTick_dirty i sl)
      rw [hon, slotTrace, Chip.slotThrough_of_no_edge hedge (c.control.slotTick_dirty i sl), ← htrace]
      exact ⟨rfl, Nat.le_succ_of_le hlen⟩
    · rw [hend]
      exact ⟨rfl, Nat.le_refl _⟩

theorem Chip.control_nts (c : Chip) : c.control.nts = c.nts := by
  simp [Chip.control, Chip.noiseStep, Chip.timerStep, Chip.timer2Step, Chip.lfoStep]

theorem Chip.control_chan (c : Chip) : c.control.chan = c.chan := by
  simp [Chip.control, Chip.noiseStep, Chip.timerStep, Chip.timer2Step, Chip.lfoStep]

/-- Step 4 begins with a commit, so one more before it changes nothing (R42). -/
theorem Chip.control_slotTick_commit (c : Chip) (i : SlotId) (sl : Slot) :
    c.control.slotTick i (commitSlot c.nts (c.chanFor i) sl) = c.control.slotTick i sl := by
  have hchan : c.control.chanFor i = c.chanFor i := Chip.chanAt_congr c.control_chan _
  unfold Chip.slotTick
  dsimp only
  rw [c.control_nts, hchan, commitSlot_of_clean (commitSlot_dirty c.nts (c.chanFor i) sl)]

/-- The loops of a slot, each resumed where the one before ended, give its ticks (R300). -/
theorem slotRun_eq_slotTrace (i : SlotId) (fuel : Nat) : ∀ (cs : List Chip) (sl : Slot), cs.length ≤ fuel →
    slotRun i fuel cs sl = slotTrace i cs sl := by
  induction fuel with
  | zero =>
    intro cs sl h
    rw [List.eq_nil_of_length_eq_zero (Nat.le_zero.1 h)]
    rfl
  | succ fuel ih =>
    intro cs sl h
    cases cs with
    | nil => rfl
    | cons c cs =>
      have hclean := commitSlot_dirty c.nts (c.chanFor i) (c.slotEdges i (commitSlot c.nts (c.chanFor i) sl))
      obtain ⟨htrace, hlen⟩ := slotLoop_append_slotTrace i cs c _ hclean
      rw [slotRun, ih _ _ (hlen.trans (Nat.le_of_succ_le_succ h)), htrace, Chip.control_slotTick_commit]
      rfl

theorem Chip.slotThrough_of_frame {c d : Chip} (h : c.frame = d.frame) (i : SlotId) (sl : Slot) :
    c.slotThrough i sl = d.slotThrough i sl := by
  rw [Chip.slotThrough, Chip.slotTick_of_frame (Chip.control_of_frame h), Chip.slotEdges_of_frame h,
    Chip.nts_of_frame h, Chip.chanFor_of_frame h, Chip.slotThrough]

theorem Chip.slotThrough_withHistory (c : Chip) (i : SlotId) (o1 o2 : Int) (sl : Slot) :
    c.slotThrough i (sl.withHistory o1 o2) = (c.slotThrough i sl).withHistory o1 o2 := by
  rw [Chip.slotThrough, commitSlot_withHistory, Chip.slotEdges_withHistory, Chip.slotTick_withHistory]
  rfl

/-- Steps 0 to 4 of a tick, for one slot (R291). -/
theorem Chip.slotAt_atOutputs_eq_slotThrough (c : Chip) (i : SlotId) :
    c.atOutputs.slotAt i = c.slotThrough i (c.slotAt i) := by
  rw [Chip.slotAt_atOutputs, Chip.slotAt_preTick, Chip.slotTick_of_frame c.frame_preTick, Chip.slotThrough]

/-- Steps 0 to 4 of a tick leave the history as it was. -/
theorem Chip.slotAt_atOutputs_history (c : Chip) (i : SlotId) :
    (c.atOutputs.slotAt i).out1 = (c.slotAt i).out1 ∧ (c.atOutputs.slotAt i).out2 = (c.slotAt i).out2 := by
  have hkept := c.slotThrough_withHistory i (c.slotAt i).out1 (c.slotAt i).out2 (c.slotAt i)
  rw [Slot.withHistory_self] at hkept
  rw [Chip.slotAt_atOutputs_eq_slotThrough, hkept]
  exact ⟨rfl, rfl⟩

theorem Chip.slotAt_tick1_withHistory (c : Chip) (i : SlotId) (o1 o2 : Int) :
    (c.tick1.slotAt i).withHistory o1 o2 = (c.atOutputs.slotAt i).withHistory o1 o2 := by
  rw [Chip.slotAt_tick1, Slot.withHistory, Slot.withHistory]

/-- Slot `i` of `k` with the history of `b`: the batch renderer shifts no history inside a span. -/
def Chip.slotHeld (b : Chip) (i : SlotId) (k : Chip) : Slot :=
  (k.slotAt i).withHistory (b.slotAt i).out1 (b.slotAt i).out2

/-- The slot over the schedule of a span is the slot at the outputs of its ticks, but for the history (R264, R300). -/
theorem slotTrace_schedule (i : SlotId) (b : Chip) (n : Nat) : ∀ c d : Chip, d.frame = c.frame →
    slotTrace i (schedule n d) (b.slotHeld i c) = (ticks n c).map (b.slotHeld i) := by
  induction n with
  | zero => exact fun _ _ _ => rfl
  | succ n ih =>
    intro c d h
    have hslot : d.slotThrough i (b.slotHeld i c) = b.slotHeld i c.atOutputs := by
      rw [Chip.slotThrough_of_frame h, Chip.slotHeld, Chip.slotThrough_withHistory,
        ← Chip.slotAt_atOutputs_eq_slotThrough, Chip.slotHeld]
    have hnext : b.slotHeld i c.tick1 = b.slotHeld i c.atOutputs := c.slotAt_tick1_withHistory i _ _
    have hframe : d.control.frame = c.tick1.frame := by rw [Chip.frame_tick1, Chip.control_of_frame h]
    rw [schedule, slotTrace, hslot, ticks_succ, List.map_cons, ← ih _ _ hframe, hnext]

theorem slotRun_schedule (i : SlotId) (n : Nat) (c : Chip) :
    slotRun i n (schedule n c) (c.slotAt i) = (ticks n c).map (c.slotHeld i) := by
  rw [slotRun_eq_slotTrace i n _ _ (by simp [schedule_eq])]
  exact slotTrace_schedule i c n c c rfl

/-! ## Outputs over a span (R300) -/

theorem pidx_slotHeld (b : Chip) (i : SlotId) (k : Chip) : (b.slotHeld i k).pidx = (k.slotAt i).pidx := rfl

theorem slotOut_slotHeld (b : Chip) (i : SlotId) (k : Chip) (amVal : Nat) (mod : Int) :
    slotOut amVal (b.slotHeld i k) mod = slotOut amVal (k.slotAt i) mod := slotOut_withHistory _ _ _ _ _

theorem voiceOut_slotHeld (b : Chip) (i : SlotId) (k : Chip) (amVal : Nat) (idx : BitVec 10) :
    voiceOut amVal (b.slotHeld i k) idx = voiceOut amVal (k.slotAt i) idx := voiceOut_withHistory _ _ _ _ _

/-- A modulator's scratch is its output at each tick: the history it carries is the one the ticks shift. -/
theorem modScratch_ticks {ch : ChanId} (b : Chip) (n : Nat) : ∀ (c : Chip) (ks : List Chip),
    c.rhythm = false ∨ ch.val < 7 → ks.map Chip.frame = (ticks n c).map Chip.frame →
    modScratch (c.chanAt ch).fb ks ((ticks n c).map (b.slotHeld (modSlot ch)))
        (c.slotAt (modSlot ch)).out1 (c.slotAt (modSlot ch)).out2
      = (ticks n c).map (Chip.modOut · ch) := by
  induction n with
  | zero =>
    intro c ks _ hks
    rw [List.map_eq_nil_iff.1 hks]
    rfl
  | succ n ih =>
    intro c ks hmelodic hks
    rw [ticks_succ, List.map_cons, List.map_eq_cons_iff] at hks
    obtain ⟨k, ks, rfl, hk, hks⟩ := hks
    have hout : slotOut k.amVal (b.slotHeld (modSlot ch) c.atOutputs)
        (feedback (c.chanAt ch).fb (c.slotAt (modSlot ch)).out1 (c.slotAt (modSlot ch)).out2)
        = c.atOutputs.modOut ch := by
      obtain ⟨hout1, hout2⟩ := c.slotAt_atOutputs_history (modSlot ch)
      rw [Chip.modOut, hout1, hout2, Chip.amVal_of_frame hk, Chip.chanAt_congr (Chip.atOutputs_chan c),
        slotOut_slotHeld]
    rw [ticks_succ, List.map_cons, List.map_cons, modScratch, hout, ← ih c.tick1 ks (by simpa using hmelodic) hks,
      Chip.tick1_out1_modSlot hmelodic, Chip.tick1_out2, Chip.chanAt_congr (Chip.tick1_chan c)]

theorem carScratch_map (alg : Bool) (ch : ChanId) (b : Chip) (ts : List Chip) : ∀ ks : List Chip,
    (∀ t ∈ ts, (t.chanAt ch).alg = alg) → ks.map Chip.frame = ts.map Chip.frame →
    carScratch alg ks (ts.map (b.slotHeld (carSlot ch))) (ts.map (Chip.modOut · ch)) = ts.map (Chip.carOut · ch) := by
  induction ts with
  | nil =>
    intro ks _ hks
    rw [List.map_eq_nil_iff.1 hks]
    rfl
  | cons t ts ih =>
    intro ks halg hks
    rw [List.map_cons, List.map_eq_cons_iff] at hks
    obtain ⟨k, ks, rfl, hk, hks⟩ := hks
    obtain ⟨halg, hrest⟩ := List.forall_mem_cons.1 halg
    rw [List.map_cons, List.map_cons, List.map_cons, carScratch, ih ks hrest hks, slotOut_slotHeld,
      Chip.amVal_of_frame hk, Chip.carOut, halg]

/-- The slot a single-operator voice sounds on (R86); the bass drum sounds as channel 6, on its carrier. -/
def Voice.slot : Voice → SlotId
  | .hh => 13
  | .tc => 17
  | .tom => 14
  | .sd => 16
  | .bd => 15

theorem Chip.slotOutput_voiceSlot {c : Chip} {v : Voice} (hv : v ≠ .bd) (h : c.rhythm = true) :
    c.slotOutput v.slot = c.voiceOutput v := by
  cases v with
  | hh | tc | tom | sd => exact if_pos h
  | bd => exact absurd rfl hv

/-- A single-operator voice reads its own slot, the phases of slots 13 and 17, and chip-wide state (R272 to R275). -/
theorem Chip.voiceOutput_of_slotHeld {k t : Chip} (b : Chip) {v : Voice} (hv : v ≠ .bd) (hframe : k.frame = t.frame)
    (h13 : k.slotAt 13 = b.slotHeld 13 t) (h17 : k.slotAt 17 = b.slotHeld 17 t)
    (hslot : k.slotAt v.slot = b.slotHeld v.slot t) : k.voiceOutput v = t.voiceOutput v := by
  have hhh : k.hh = t.hh := by rw [Chip.hh, h13, pidx_slotHeld, Chip.hh]
  have htc : k.tc = t.tc := by rw [Chip.tc, h17, pidx_slotHeld, Chip.tc]
  have hnoise : k.noiseBit = t.noiseBit := congrArg (BitVec.getLsbD · 0) (Chip.noise_of_frame hframe)
  have hmetal : k.metalBit = t.metalBit := by rw [Chip.metalBit, hhh, htc, Chip.metalBit]
  have ham := Chip.amVal_of_frame hframe
  rw [Voice.slot.eq_def] at hslot
  cases v with dsimp only at hslot
  | hh => rw [Chip.voiceOutput, Chip.voiceOutput, Chip.idxHH, hmetal, hnoise, hslot, ham, voiceOut_slotHeld, Chip.idxHH]
  | tc => rw [Chip.voiceOutput, Chip.voiceOutput, Chip.idxTC, hmetal, hslot, ham, voiceOut_slotHeld, Chip.idxTC]
  | tom => rw [Chip.voiceOutput, Chip.voiceOutput, hslot, ham, slotOut_slotHeld]
  | sd => rw [Chip.voiceOutput, Chip.voiceOutput, Chip.idxSD, hhh, hnoise, hslot, ham, voiceOut_slotHeld, Chip.idxSD]
  | bd => exact absurd rfl hv

/-- The slots the percussion wiring of the batch renderer reads. -/
theorem Chip.slotAt_voiceChip (k t b : Chip) (i : SlotId) {j : SlotId} (hj : j = 13 ∨ j = 17 ∨ j = i) :
    (((k.updSlot 13 fun _ => b.slotHeld 13 t).updSlot 17 fun _ => b.slotHeld 17 t).updSlot i
      fun _ => b.slotHeld i t).slotAt j = b.slotHeld j t := by
  simp only [Chip.slotAt_updSlot]
  split
  next h => rw [h]
  next hi =>
    split
    next h => rw [h]
    next h17 =>
      have h13 : j = 13 := hj.resolve_right (not_or.2 ⟨h17, hi⟩)
      rw [if_pos h13, h13]

theorem voiceBuffer_map (b : Chip) {v : Voice} (hv : v ≠ .bd) (ts : List Chip) : ∀ ks : List Chip,
    ks.map Chip.frame = ts.map Chip.frame →
    voiceBuffer v v.slot ks (ts.map (b.slotHeld 13)) (ts.map (b.slotHeld 17)) (ts.map (b.slotHeld v.slot))
      = ts.map (Chip.voiceOutput · v) := by
  induction ts with
  | nil =>
    intro ks hks
    rw [List.map_eq_nil_iff.1 hks]
    rfl
  | cons t ts ih =>
    intro ks hks
    rw [List.map_cons, List.map_eq_cons_iff] at hks
    obtain ⟨k, ks, rfl, hk, hks⟩ := hks
    rw [List.map_cons, List.map_cons, List.map_cons, List.map_cons, voiceBuffer, ih ks hks]
    congr 1
    have hslots {j : SlotId} := Chip.slotAt_voiceChip k t b v.slot (j := j)
    refine Chip.voiceOutput_of_slotHeld b hv ?_ (hslots (.inl rfl)) (hslots (.inr (.inl rfl)))
      (hslots (.inr (.inr rfl)))
    rw [Chip.frame_updSlot, Chip.frame_updSlot, Chip.frame_updSlot, hk]

theorem addBuffer_map (muted : Bool) (gain : Int) (f a : Chip → Int) (ts : List Chip) :
    addBuffer muted gain (ts.map f) (ts.map a) = ts.map fun t => a t + if muted then 0 else gain * f t := by
  cases muted with
  | true => simp [addBuffer]
  | false => simp [addBuffer, List.zipWith_map, List.zipWith_self]

section Span
variable (n : Nat) (c : Chip)

theorem Chip.span_slots (i : SlotId) : (c.span n).slots[i.val] = (ticks n c).map (c.slotHeld i) := by
  rw [← slotRun_schedule]
  exact Vector.getElem_ofFn _

theorem Chip.span_mods {ch : ChanId} (h : c.rhythm = false ∨ ch.val < 7) :
    (c.span n).mods[ch.val] = (ticks n c).map (Chip.modOut · ch) := by
  rw [← modScratch_ticks c n c _ h (frame_schedule n c), ← Chip.span_slots]
  exact Vector.getElem_ofFn _

theorem Chip.span_cars {ch : ChanId} (h : c.rhythm = false ∨ ch.val < 7) :
    (c.span n).cars[ch.val] = (ticks n c).map (Chip.carOut · ch) := by
  have halg : ∀ k ∈ ticks n c, (k.chanAt ch).alg = (c.chanAt ch).alg := fun k hk => by
    rw [Chip.chanAt_congr (ticks_kept hk).1]
  rw [← carScratch_map _ ch c _ _ halg (frame_schedule n c), ← Chip.span_slots, ← Chip.span_mods n c h]
  exact Vector.getElem_ofFn _

theorem Chip.span_voice {v : Voice} (hv : v ≠ .bd) :
    voiceBuffer v v.slot (c.span n).during (c.span n).slots[13] (c.span n).slots[17] (c.span n).slots[v.slot.val]
      = (ticks n c).map (Chip.voiceOutput · v) := by
  rw [← voiceBuffer_map c hv _ _ (frame_schedule n c), ← Chip.span_slots, ← Chip.span_slots, ← Chip.span_slots]
  rfl

theorem Chip.span_voices :
    (c.span n).hh = (ticks n c).map (Chip.voiceOutput · .hh)
      ∧ (c.span n).tc = (ticks n c).map (Chip.voiceOutput · .tc)
      ∧ (c.span n).tom = (ticks n c).map (Chip.voiceOutput · .tom)
      ∧ (c.span n).sd = (ticks n c).map (Chip.voiceOutput · .sd) :=
  ⟨c.span_voice n (v := .hh) (by decide), c.span_voice n (v := .tc) (by decide),
    c.span_voice n (v := .tom) (by decide), c.span_voice n (v := .sd) (by decide)⟩

/-- Only the four slots of the single-operator voices belong to channels 7 and 8 (R85, R86). -/
theorem chanOfSlot_lt_seven {i : SlotId} :
    i.val ≠ 13 → i.val ≠ 14 → i.val ≠ 16 → i.val ≠ 17 → (chanOfSlot i).val < 7 := by
  revert i
  decide

theorem Chip.span_melodic {i : SlotId} (h : c.rhythm = false ∨ (chanOfSlot i).val < 7) :
    (if isModulator i then (c.span n).mods[(chanOfSlot i).val] else (c.span n).cars[(chanOfSlot i).val])
      = (ticks n c).map (Chip.slotOutput · i) := by
  rw [c.span_mods n h, c.span_cars n h, ← apply_ite (List.map · (ticks n c))]
  refine List.map_congr_left fun k hk => ?_
  obtain ⟨_, hrhythm, _⟩ := ticks_kept hk
  rw [Chip.slotOutput_of_melodic (by rwa [hrhythm]), Chip.melodicOut]
  split <;> rfl

/-- In percussion mode the voice slots record their voices, whatever their channels hold (R86, R264). -/
theorem Chip.span_voice_outputs {v : Voice} (hv : v ≠ .bd) (hr : c.rhythm = true) :
    (ticks n c).map (Chip.voiceOutput · v) = (ticks n c).map (Chip.slotOutput · v.slot) := by
  refine List.map_congr_left fun k hk => ?_
  obtain ⟨_, hrhythm, _⟩ := ticks_kept hk
  exact (Chip.slotOutput_voiceSlot hv (hrhythm.trans hr)).symm

/-- The outputs of a slot over the span are those step 5 of each tick computes (R264, R291). -/
theorem Chip.span_outputs (i : SlotId) : (c.span n).outputs c.rhythm i = (ticks n c).map (Chip.slotOutput · i) := by
  obtain ⟨hHH, hTC, hTOM, hSD⟩ := c.span_voices n
  unfold Span.outputs
  dsimp only
  split
  next hr =>
    split
    next hi =>
      obtain rfl : i = Voice.slot .hh := Fin.ext hi
      exact hHH.trans (c.span_voice_outputs n (by decide) hr)
    next hi =>
      obtain rfl : i = Voice.slot .tom := Fin.ext hi
      exact hTOM.trans (c.span_voice_outputs n (by decide) hr)
    next hi =>
      obtain rfl : i = Voice.slot .sd := Fin.ext hi
      exact hSD.trans (c.span_voice_outputs n (by decide) hr)
    next hi =>
      obtain rfl : i = Voice.slot .tc := Fin.ext hi
      exact hTC.trans (c.span_voice_outputs n (by decide) hr)
    next h13 h14 h16 h17 => exact c.span_melodic n (.inr (chanOfSlot_lt_seven h13 h14 h16 h17))
  next hr => exact c.span_melodic n (.inl (Bool.eq_false_of_not_eq_true hr))

theorem Chip.span_channelBuffer {ch : ChanId} (h : c.rhythm = false ∨ ch.val < 7) :
    channelBuffer (c.chanAt ch).alg (c.span n).mods[ch.val] (c.span n).cars[ch.val]
      = (ticks n c).map (Chip.chOut · ch) := by
  rw [c.span_mods n h, c.span_cars n h, channelBuffer, List.zipWith_map, List.zipWith_self]
  refine List.map_congr_left fun k hk => ?_
  rw [Chip.chOut, Chip.chanAt_congr (ticks_kept hk).1]

theorem addBuffer_channel {ch : ChanId} (h : c.rhythm = false ∨ ch.val < 7) {bit : Nat} (hbit : bit = ch.val)
    (a : Chip → Int) :
    addBuffer (c.muteMask.getLsbD bit) 1
        (channelBuffer (c.chanAt ch).alg (c.span n).mods[ch.val] (c.span n).cars[ch.val]) ((ticks n c).map a)
      = (ticks n c).map fun k => a k + k.chanMix ch := by
  rw [c.span_channelBuffer n h, addBuffer_map]
  refine List.map_congr_left fun k hk => ?_
  obtain ⟨_, _, hmute⟩ := ticks_kept hk
  rw [Chip.chanMix, hmute, hbit, Int.one_mul]

theorem addBuffer_voice (v : Voice) {bit : Nat} (hbit : bit = v.muteBit) (a : Chip → Int) :
    addBuffer (c.muteMask.getLsbD bit) rhythmGain ((ticks n c).map (Chip.voiceOutput · v)) ((ticks n c).map a)
      = (ticks n c).map fun k => a k + k.voiceMix v := by
  rw [addBuffer_map]
  refine List.map_congr_left fun k hk => ?_
  obtain ⟨_, _, hmute⟩ := ticks_kept hk
  rw [Chip.voiceMix, hmute, hbit]

/-- Channels 0 to 5 are melodic in both modes (R266). -/
theorem foldl_addBuffer_channels (us : List (Fin 6)) : ∀ a : Chip → Int,
    us.foldl (fun acc i => addBuffer (c.muteMask.getLsbD i.val) 1
        (channelBuffer (c.chanAt ⟨i.val, by omega⟩).alg (c.span n).mods[i.val] (c.span n).cars[i.val]) acc)
        ((ticks n c).map a)
      = (ticks n c).map fun k => us.foldl (fun acc i => acc + k.chanMix ⟨i.val, by omega⟩) (a k) := by
  induction us with
  | nil => exact fun _ => rfl
  | cons i us ih =>
    intro a
    have hi : i.val < 7 := by omega
    rw [List.foldl_cons, addBuffer_channel n c (ch := ⟨i.val, by omega⟩) (.inr hi) rfl, ih]
    rfl

/-- The mix buffer of the span is the sum each tick saturates (R266). -/
theorem Chip.span_mixBuffer : (c.span n).mixBuffer c n = (ticks n c).map Chip.mixSum := by
  obtain ⟨hHH, hTC, hTOM, hSD⟩ := c.span_voices n
  have hsilence : List.replicate n (0 : Int) = (ticks n c).map fun _ => 0 := by
    rw [List.map_const', ticks, List.length_map, List.length_range]
  have htop (k : Chip) : (List.finRange 6).foldl (fun acc i => acc + k.chanMix ⟨i.val, by omega⟩) 0
      = k.chanMix 0 + k.chanMix 1 + k.chanMix 2 + k.chanMix 3 + k.chanMix 4 + k.chanMix 5 := by
    rw [← Int.zero_add (k.chanMix 0)]
    rfl
  unfold Span.mixBuffer
  dsimp only
  rw [hsilence, foldl_addBuffer_channels, hHH, hTC, hTOM, hSD]
  split
  next hr =>
    have hbd : channelBuffer (c.chanAt 6).alg (c.span n).mods[(6 : ChanId).val] (c.span n).cars[(6 : ChanId).val]
        = (ticks n c).map (Chip.voiceOutput · .bd) := c.span_channelBuffer n (.inr (by decide))
    simp only [List.foldl_cons, List.foldl_nil]
    rw [hbd, addBuffer_voice n c .bd (bit := 13) rfl, addBuffer_voice n c .hh (bit := 9) rfl,
      addBuffer_voice n c .tom (bit := 11) rfl, addBuffer_voice n c .sd (bit := 12) rfl,
      addBuffer_voice n c .tc (bit := 10) rfl]
    refine List.map_congr_left fun k hk => ?_
    obtain ⟨_, hrhythm, _⟩ := ticks_kept hk
    rw [htop, Chip.mixSum, if_pos (hrhythm.trans hr)]
    ring
  next hr =>
    have hmelodic : c.rhythm = false := Bool.eq_false_of_not_eq_true hr
    simp only [List.foldl_cons, List.foldl_nil]
    rw [addBuffer_channel n c (ch := 6) (bit := 6) (.inl hmelodic) rfl,
      addBuffer_channel n c (ch := 7) (bit := 7) (.inl hmelodic) rfl,
      addBuffer_channel n c (ch := 8) (bit := 8) (.inl hmelodic) rfl]
    refine List.map_congr_left fun k hk => ?_
    obtain ⟨_, hrhythm, _⟩ := ticks_kept hk
    rw [htop, Chip.mixSum, if_neg (by rwa [hrhythm])]
    ring

end Span

/-! ## The state after a span -/

theorem Chip.frame_withSlots (c : Chip) (v : Vector Slot 18) (x : Sample) :
    Chip.frame { c with slot := v, mixOut := x } = c.frame := rfl

theorem getLastD_schedule_frame (n : Nat) (c : Chip) :
    (((schedule n c).map Chip.control).getLastD c).frame = (Chip.tick1^[n] c).frame := by
  cases n with
  | zero => rw [Function.iterate_zero]; rfl
  | succ n =>
    rw [schedule_eq, List.range_succ, List.map_append, List.map_append, List.map_singleton, List.map_singleton,
      List.getLastD_concat, ← Function.iterate_succ_apply' Chip.control, Chip.frame_iterate_control]

theorem render_getLastD_mixOut (n : Nat) (c : Chip) : (render n c).1.getLastD c.mixOut = (Chip.tick1^[n] c).mixOut := by
  cases n with
  | zero => rfl
  | succ n =>
    rw [render_samples, List.range_succ, List.map_append, List.map_singleton, List.getLastD_concat]

theorem slotAfter_singleton (old sl : Slot) (o : Int) : slotAfter old [sl] [o] = sl.withHistory o old.out1 := rfl

theorem slotAfter_concat (old sl : Slot) (tr : List Slot) (outs : List Int) (o2 o1 : Int) :
    slotAfter old (tr ++ [sl]) (outs ++ [o2] ++ [o1]) = sl.withHistory o1 o2 := by
  simp [slotAfter, Slot.withHistory]

theorem Chip.slotHeld_withHistory (b k : Chip) (i : SlotId) (o1 o2 : Int) :
    (b.slotHeld i k).withHistory o1 o2 = (k.slotAt i).withHistory o1 o2 := by
  rw [Chip.slotHeld, Slot.withHistory, Slot.withHistory, Slot.withHistory]

/-- A tick leaves a slot as step 4 did, with its new output before its last one (R264, R291). -/
theorem Chip.slotAt_tick1_eq_withHistory (c : Chip) (i : SlotId) :
    c.tick1.slotAt i = (c.atOutputs.slotAt i).withHistory (c.atOutputs.slotOutput i) (c.slotAt i).out1 := by
  obtain ⟨hout1, _⟩ := c.slotAt_atOutputs_history i
  rw [Chip.slotAt_tick1, hout1, Slot.withHistory]

/-- A slot after the span: as the last tick left it, with the last two outputs (R264). -/
theorem slotAfter_ticks (i : SlotId) (n : Nat) (c : Chip) :
    slotAfter (c.slotAt i) ((ticks n c).map (c.slotHeld i)) ((ticks n c).map (Chip.slotOutput · i))
      = (Chip.tick1^[n] c).slotAt i := by
  match n with
  | 0 => rfl
  | 1 =>
    have hone : ticks 1 c = [c.atOutputs] := ticks_succ 0 c
    rw [hone, List.map_singleton, List.map_singleton, slotAfter_singleton, Chip.slotHeld_withHistory,
      Function.iterate_one, Chip.slotAt_tick1_eq_withHistory]
  | n + 2 =>
    simp only [ticks_concat, List.map_append, List.map_singleton, slotAfter_concat, Chip.slotHeld_withHistory,
      Function.iterate_succ_apply', Chip.slotAt_tick1_eq_withHistory, Slot.withHistory_out1]

/-- Settles O36: the mix buffer, the chip-wide schedule and each slot of the span are those of its ticks. -/
theorem batchRendererGivesTheTicks : Obligations.BatchRendererGivesTheTicks := by
  intro n c
  have hsamples : ((c.span n).mixBuffer c n).map clampSample = (render n c).1 := by
    rw [Chip.span_mixBuffer, List.map_map, render_samples_eq_mix]
    rfl
  unfold batchRender
  dsimp only
  rw [hsamples]
  refine Prod.ext rfl ?_
  rw [render_state]
  refine Chip.eq_of_frame ?_ (fun i => ?_) ?_
  · rw [Chip.frame_withSlots]
    exact getLastD_schedule_frame n c
  · rw [← slotAfter_ticks, ← Chip.span_slots, ← Chip.span_outputs]
    exact Vector.getElem_ofFn _
  · exact render_getLastD_mixOut n c

end Sys2Proof.Machine
end

section
/-!
PROOFS. The statements of 45_render.md on `calcOne`: its pacing loop (R310) and its calls at equal rates (R313).
-/

namespace Sys2Proof.Machine

/-! ## Pacing (R310) -/

/-- A chip with another pacing counter and converter: what `calcOne` writes beside its ticks (R310). -/
def Chip.withPacing (c : Chip) (t : Nat) (k : Option Converter) : Chip := { c with outTime := t, conv := k }

section WithPacing
variable (c : Chip) (t : Nat) (k : Option Converter)

@[simp] theorem Chip.withPacing_outTime : (c.withPacing t k).outTime = t := rfl
@[simp] theorem Chip.withPacing_conv : (c.withPacing t k).conv = k := rfl
@[simp] theorem Chip.withPacing_outStep : (c.withPacing t k).outStep = c.outStep := rfl
@[simp] theorem Chip.withPacing_inpStep : (c.withPacing t k).inpStep = c.inpStep := rfl

theorem Chip.withPacing_self : c.withPacing c.outTime c.conv = c := rfl

theorem Chip.csmRelease_withPacing : (c.withPacing t k).csmRelease = c.csmRelease.withPacing t k := by
  unfold Chip.csmRelease
  rw [apply_ite (Chip.withPacing · t k)]
  rfl

theorem Chip.timer1Step_withPacing : (c.withPacing t k).timer1Step = c.timer1Step.withPacing t k := by
  unfold Chip.timer1Step
  dsimp only
  rw [apply_ite (Chip.withPacing · t k)]
  rfl

theorem Chip.preTick_withPacing : (c.withPacing t k).preTick = c.preTick.withPacing t k := by
  have hlfo : (c.withPacing t k).commit.lfoStep = c.commit.lfoStep.withPacing t k := rfl
  unfold Chip.preTick Chip.timerStep
  rw [hlfo, Chip.csmRelease_withPacing, Chip.timer1Step_withPacing]
  rfl

theorem Chip.slotsTick_withPacing : (c.withPacing t k).slotsTick = c.slotsTick.withPacing t k := rfl
theorem Chip.outputTick_withPacing : (c.withPacing t k).outputTick = c.outputTick.withPacing t k := rfl

/-- No tick reads or writes the pacing (R291). -/
theorem Chip.tick1_withPacing : (c.withPacing t k).tick1 = c.tick1.withPacing t k := by
  unfold Chip.tick1
  rw [Chip.preTick_withPacing, Chip.slotsTick_withPacing, Chip.outputTick_withPacing]

end WithPacing

theorem render_withPacing (n : Nat) (t : Nat) (k : Option Converter) : ∀ c : Chip,
    render n (c.withPacing t k) = ((render n c).1, (render n c).2.withPacing t k) := by
  induction n with
  | zero => exact fun _ => rfl
  | succ n ih =>
    intro c
    rw [render_succ, Chip.tick1_withPacing, ih, render_succ]
    rfl

/-- What no tick changes of the pacing and the configuration (R22, R23). -/
theorem render_pacing (n : Nat) (c : Chip) :
    (render n c).2.outStep = c.outStep ∧ (render n c).2.inpStep = c.inpStep ∧ (render n c).2.clockHz = c.clockHz
      ∧ (render n c).2.rateHz = c.rateHz :=
  render_keeps (P := fun d => d.outStep = c.outStep ∧ d.inpStep = c.inpStep ∧ d.clockHz = c.clockHz
    ∧ d.rateHz = c.rateHz) (fun d hd => by simpa using hd) n c ⟨rfl, rfl, rfl, rfl⟩

/-! ## The pacing loop (R310) -/

/-- Samples fed to the converter one by one (R334). -/
def Converter.feed (xs : List Sample) (k : Converter) : Converter := xs.foldl (fun k x => k.put x) k

theorem Chip.convPut_withPacing (c : Chip) (t : Nat) (k : Option Converter) :
    (c.withPacing t k).convPut = c.withPacing t (k.map (Converter.put c.mixOut)) := rfl

theorem Chip.paceTurn_eq (c : Chip) :
    c.paceTurn = c.tick1.withPacing (c.outTime + c.inpStep) (c.conv.map (Converter.put c.tick1.mixOut)) := by
  have hturn : c.paceTurn = (c.withPacing (c.outTime + c.inpStep) c.conv).tick1.convPut := rfl
  rw [hturn, Chip.tick1_withPacing, Chip.convPut_withPacing]

theorem Chip.paceTurn_pacing (c : Chip) :
    c.paceTurn.outTime = c.outTime + c.inpStep ∧ c.paceTurn.outStep = c.outStep ∧ c.paceTurn.inpStep = c.inpStep
      ∧ c.paceTurn.conv = c.conv.map (Converter.put c.tick1.mixOut) := by
  simp [Chip.paceTurn_eq]

/-- Turns of the pacing loop render their ticks, count them in `out_time` and feed their samples (R310). -/
theorem Chip.iterate_paceTurn (n : Nat) : ∀ c : Chip,
    Chip.paceTurn^[n] c = (render n c).2.withPacing (c.outTime + n * c.inpStep)
      (c.conv.map (Converter.feed (render n c).1)) := by
  induction n with
  | zero =>
    intro c
    have hfeed : Converter.feed (render 0 c).1 = id := rfl
    rw [Nat.zero_mul, hfeed, Option.map_id]
    rfl
  | succ n ih =>
    intro c
    obtain ⟨htime, _, hinp, hconv⟩ := c.paceTurn_pacing
    rw [Function.iterate_succ_apply, ih, htime, hinp, hconv, Option.map_map, Nat.add_assoc,
      Nat.add_comm c.inpStep, ← Nat.succ_mul, Chip.paceTurn_eq, render_withPacing, render_succ]
    rfl

/-- The loop runs the number of turns that first brings `out_time` to `out_step` (R310). -/
theorem paceLoop_eq_iterate (n : Nat) : ∀ (fuel : Nat) (c : Chip), n ≤ fuel →
    c.outStep ≤ c.outTime + n * c.inpStep → c.outTime + n * c.inpStep < c.outStep + c.inpStep →
    paceLoop fuel c = some (Chip.paceTurn^[n] c) := by
  induction n with
  | zero =>
    intro fuel c _ hdone _
    have hstop : ¬ c.outStep > c.outTime := by omega
    cases fuel with
    | zero => exact if_neg hstop
    | succ fuel => exact if_neg hstop
  | succ n ih =>
    intro fuel c hfuel hdone hlast
    obtain ⟨fuel, rfl⟩ : ∃ f, fuel = f + 1 := ⟨fuel - 1, by omega⟩
    obtain ⟨htime, hout, hinp, _⟩ := c.paceTurn_pacing
    rw [Nat.succ_mul] at hdone hlast
    have hgo : c.outStep > c.outTime := by omega
    rw [paceLoop, if_pos hgo, Function.iterate_succ_apply]
    refine ih fuel c.paceTurn (Nat.le_of_succ_le_succ hfuel) ?_ ?_
    · rw [htime, hout, hinp]
      omega
    · rw [htime, hout, hinp]
      omega

/-- The ticks `calcOne` runs: what is missing to `out_step`, in steps of `inp_step`, rounded up (R310). -/
def Chip.paceCount (c : Chip) : Nat := (c.outStep - c.outTime + c.inpStep - 1) / c.inpStep

section PaceCount
variable {c : Chip} (hinp : 0 < c.inpStep)
include hinp

theorem Chip.paceCount_le_iff (n : Nat) : c.paceCount ≤ n ↔ c.outStep ≤ c.outTime + n * c.inpStep := by
  rw [Chip.paceCount, ← Nat.ceilDiv_eq_add_pred_div, ceilDiv_le_iff_le_mul hinp, Nat.mul_comm]
  omega

theorem Chip.paceCount_le_missing : c.paceCount ≤ c.outStep - c.outTime := by
  have hmul : c.outStep - c.outTime ≤ (c.outStep - c.outTime) * c.inpStep := Nat.le_mul_of_pos_right _ hinp
  rw [Chip.paceCount_le_iff hinp]
  omega

theorem Chip.outStep_le_paceCount : c.outStep ≤ c.outTime + c.paceCount * c.inpStep :=
  (Chip.paceCount_le_iff hinp _).1 (Nat.le_refl _)

variable (htime : c.outTime < c.inpStep)
include htime

/-- The last tick was needed, so `out_time` ends below `inp_step` (R310). -/
theorem Chip.paceCount_lt : c.outTime + c.paceCount * c.inpStep < c.outStep + c.inpStep := by
  cases hn : c.paceCount with
  | zero => omega
  | succ n =>
    have hneeded := (Chip.paceCount_le_iff hinp n).not.1 (by omega)
    rw [Nat.succ_mul]
    omega

/-- While `out_time` is below `inp_step` the ticks are the floor or the ceiling of `out_step / inp_step` (R310). -/
theorem Chip.paceCount_floor_or_ceil :
    c.paceCount = c.outStep / c.inpStep ∨ c.paceCount = (c.outStep + c.inpStep - 1) / c.inpStep := by
  have hfloor : c.outStep / c.inpStep ≤ c.paceCount := by
    have hdone := Chip.outStep_le_paceCount hinp
    rw [← Nat.lt_succ_iff, Nat.div_lt_iff_lt_mul hinp, Nat.succ_mul]
    omega
  have hceil : c.paceCount ≤ (c.outStep + c.inpStep - 1) / c.inpStep :=
    Nat.div_le_div_right (by omega)
  have hnext : (c.outStep + c.inpStep - 1) / c.inpStep ≤ c.outStep / c.inpStep + 1 := by
    rw [← Nat.add_div_right _ hinp]
    exact Nat.div_le_div_right (Nat.sub_le _ _)
  omega

end PaceCount

/-! ## One call of calcOne (R310) -/

theorem Chip.finishOne_withPacing (c : Chip) (t : Nat) (k : Option Converter) :
    (c.withPacing t k).finishOne
      = (c.withPacing (t - c.outStep) (k.map fun k => (k.get c.clockHz (72 * c.rateHz)).1),
        match k with
        | none => c.mixOut
        | some k => (k.get c.clockHz (72 * c.rateHz)).2) := by
  cases k <;> rfl

/-- The converter when the ticks of `calcOne` have fed it their samples (R310, R334). -/
def Chip.fedConverter (c : Chip) : Option Converter := c.conv.map (Converter.feed (render c.paceCount c).1)

/-- The chip `calcOne` leaves (R310). -/
def Chip.afterCalcOne (c : Chip) : Chip :=
  (render c.paceCount c).2.withPacing (c.outTime + c.paceCount * c.inpStep - c.outStep)
    (c.fedConverter.map fun k => (k.get c.clockHz (72 * c.rateHz)).1)

/-- The value `calcOne` returns (R310, R335). -/
def Chip.calcOneSample (c : Chip) : Sample :=
  match c.fedConverter with
  | none => (render c.paceCount c).2.mixOut
  | some k => (k.get c.clockHz (72 * c.rateHz)).2

theorem Chip.finishOne_iterate_paceTurn (c : Chip) :
    (Chip.paceTurn^[c.paceCount] c).finishOne = (c.afterCalcOne, c.calcOneSample) := by
  obtain ⟨hout, _, hclock, hrate⟩ := render_pacing c.paceCount c
  rw [Chip.iterate_paceTurn, Chip.finishOne_withPacing, hout, hclock, hrate]
  rfl

theorem exec_calcOne_of_ready {s : State} (hs : s.ready) (hinp : 0 < s.chip.inpStep)
    (htime : s.chip.outTime < s.chip.inpStep) :
    exec .calcOne s = .next ((s.setChip s.chip.afterCalcOne).setReply (.sample s.chip.calcOneSample)) := by
  dsimp only [exec]
  unfold execCalcOne
  rw [issue_of_ready hs, paceLoop_eq_iterate _ _ _ (Chip.paceCount_le_missing hinp) (Chip.outStep_le_paceCount hinp)
    (Chip.paceCount_lt hinp htime)]
  dsimp only
  rw [Chip.finishOne_iterate_paceTurn]

theorem Chip.afterCalcOne_outTime_lt {c : Chip} (hinp : 0 < c.inpStep) (htime : c.outTime < c.inpStep) :
    c.afterCalcOne.outTime < c.afterCalcOne.inpStep := by
  obtain ⟨_, hinpStep, _, _⟩ := render_pacing c.paceCount c
  have hlast := Chip.paceCount_lt hinp htime
  rw [Chip.afterCalcOne, Chip.withPacing_outTime, Chip.withPacing_inpStep, hinpStep]
  omega

/-- Settles O38: the loop runs `paceCount` turns, each one tick whose sample goes into the converter. -/
theorem calcOnePacesAndReturns : Obligations.CalcOnePacesAndReturns :=
  fun _ hs hinp htime => ⟨_, exec_calcOne_of_ready hs hinp htime, rfl, Chip.outStep_le_paceCount hinp,
    Chip.paceCount_floor_or_ceil hinp htime, Chip.afterCalcOne_outTime_lt hinp htime⟩

/-! ## Calls at equal rates (R313) -/

/-- The pacing in which one call is one tick (R313). -/
def Chip.oneTickACall (c : Chip) : Prop :=
  c.conv = none ∧ c.outTime = 0 ∧ c.outStep = c.inpStep ∧ 0 < c.inpStep

section EqualRates
variable {c : Chip} (h : c.oneTickACall)
include h

theorem Chip.oneTickACall_tick1 : c.tick1.oneTickACall := by
  obtain ⟨hconv, htime, hsteps, hinp⟩ := h
  exact ⟨c.tick1_conv.trans hconv, c.tick1_outTime.trans htime, by rw [c.tick1_outStep, c.tick1_inpStep, hsteps],
    by rwa [c.tick1_inpStep]⟩

theorem Chip.paceCount_of_oneTickACall : c.paceCount = 1 := by
  obtain ⟨_, htime, hsteps, hinp⟩ := h
  have hone := Chip.paceCount_le_iff hinp 1
  have hzero := Chip.paceCount_le_iff hinp 0
  omega

theorem Chip.calcOne_of_oneTickACall : c.afterCalcOne = c.tick1 ∧ c.calcOneSample = c.tick1.mixOut := by
  have hcount := Chip.paceCount_of_oneTickACall h
  obtain ⟨hconv', htime', _, _⟩ := Chip.oneTickACall_tick1 h
  obtain ⟨hconv, htime, hsteps, _⟩ := h
  have hfed : c.fedConverter = none := by rw [Chip.fedConverter, hconv, Option.map_none]
  have hself : c.tick1.withPacing 0 none = c.tick1 := by rw [← htime', ← hconv', Chip.withPacing_self]
  have hrender : (render 1 c).2 = c.tick1 := rfl
  constructor
  · rw [Chip.afterCalcOne, hfed, hcount, htime, hsteps, Nat.zero_add, Nat.one_mul, Nat.sub_self, hrender,
      Option.map_none, hself]
  · rw [Chip.calcOneSample, hfed, hcount, hrender]

end EqualRates

/-- The state after a pending call that is one tick (R313). -/
def State.afterOneTick (s : State) (call : HostCall) (rest : List HostCall) : State :=
  ((s.accept call rest).setChip s.chip.tick1).setReply (.sample s.chip.tick1.mixOut)

/-- One pending call at equal rates: a tick, and its sample returned (R310, R313). -/
theorem step_calcOne {s : State} {a : LaunchArgs} {rest : List HostCall}
    (hpending : s.pending = ⟨0x02000000, a⟩ :: rest)
    (hs : (s.accept ⟨0x02000000, a⟩ rest).ready) (h : s.chip.oneTickACall) :
    step s = .next (s.afterOneTick ⟨0x02000000, a⟩ rest) := by
  have hdecode : decode 0x02000000 = some .calcOne := by decide
  obtain ⟨hchip, hsample⟩ := Chip.calcOne_of_oneTickACall h
  obtain ⟨_, htime, _, hinp⟩ := h
  have hexec := exec_calcOne_of_ready hs hinp (by rwa [State.accept_chip, htime])
  rw [State.accept_chip, hchip, hsample] at hexec
  rw [step, hpending]
  dsimp only
  rw [hdecode]
  exact hexec

theorem run_succ_of_step {s u : State} (h : step s = .next u) (k : Nat) :
    Sys2Proof.core.run (k + 1) s = Sys2Proof.core.run k u := by
  have hcore : Sys2Proof.core.step s = .next u := h
  simp only [Host.Core.run, hcore]

/-- Calls at equal rates, from any state that awaits them (R313). -/
theorem run_calcOne {a : LaunchArgs} (ha : a.overlaps = false) (k : Nat) : ∀ (n : Nat) (s : State), k ≤ n →
    s.created = true → s.faults = [] → s.pending = List.replicate n ⟨0x02000000, a⟩ → s.chip.oneTickACall →
    ∃ t : State, Sys2Proof.core.run k s = .next t ∧ t.chip = (render k s.chip).2
      ∧ (0 < k → t.reply = (render n s.chip).1[k - 1]?.map Reply.sample) := by
  induction k with
  | zero => exact fun _ s _ _ _ _ _ => ⟨s, rfl, rfl, fun h0 => absurd h0 (Nat.lt_irrefl 0)⟩
  | succ k ih =>
    intro n s hk hcreated hfaults hpending h
    obtain ⟨n, rfl⟩ : ∃ m, n = m + 1 := ⟨n - 1, by omega⟩
    have hstep := step_calcOne hpending ⟨hcreated, hfaults, ha⟩ h
    obtain ⟨t, hrun, hchip, hreply⟩ :=
      ih n (s.afterOneTick ⟨0x02000000, a⟩ (List.replicate n ⟨0x02000000, a⟩)) (Nat.le_of_succ_le_succ hk)
        hcreated hfaults rfl (Chip.oneTickACall_tick1 h)
    refine ⟨t, (run_succ_of_step hstep k).trans hrun, hchip, fun _ => ?_⟩
    cases k with
    | zero =>
      obtain rfl := Host.Outcome.next.inj hrun
      rfl
    | succ k => exact hreply (Nat.succ_pos k)

/-- Settles O40: each call is the next tick of the render. -/
theorem calcOneCallsEqualOneRender : Obligations.CalcOneCallsEqualOneRender := by
  intro n k s a hs ha hk hconv htime hsteps hinp
  obtain ⟨hcreated, hfaults, _⟩ := hs
  exact run_calcOne ha k n _ hk hcreated hfaults rfl ⟨hconv, htime, hsteps, hinp⟩

end Sys2Proof.Machine
end

section
/-!
PROOFS. The statements of 46_rate_converter.md: the presence test (R330), the kernel table as the truncated real
formula (R332), and the puts and gets of the converter with its identity at ratio 1 (R333 to R335, R338).
-/

namespace Sys2Proof.Machine

/-! ## The presence test (R330) -/

/-- Settles O51: both floors are quotients of naturals, the second one that of `clock / 72 + 1 / 2` over 144. -/
theorem converterPresenceTest : Obligations.ConverterPresenceTest := by
  intro clock rate
  have hfloor : ⌊(clock : ℚ) / 72⌋ = ((clock / 72 : ℕ) : ℤ) :=
    Rat.floor_natCast_div_natCast clock 72
  have hround : ⌊(clock : ℚ) / 72 + 1 / 2⌋ = (((2 * clock + 72) / 144 : ℕ) : ℤ) := by
    rw [Int.natCast_ediv, ← Rat.floor_natCast_div_natCast]
    push_cast
    ring_nf
  rw [hfloor, hround, convTest, Bool.and_eq_true, decide_eq_true_iff, decide_eq_true_iff]
  exact (and_congr Nat.cast_injective.ne_iff Nat.cast_injective.ne_iff).symm

/-! ## The kernel table (R332) -/

/-- R332's `2^12 * r * wsinc(u)`, at every `u`: `kernelValue` with the value 1 of `sinc` at 0. -/
noncomputable def kernelReal (r u : ℝ) : ℝ :=
  2 ^ 12 * r * (windowPoly (Real.cos (Real.pi * (u / 8))) * Real.sinc (Real.pi * u))

theorem kernelReal_zero (r : ℝ) : kernelReal r 0 = 2 ^ 12 * r := by
  norm_num [kernelReal, windowPoly]

/-- The zeros of `sinc` (R332). -/
theorem kernelReal_natCast (r : ℝ) {k : ℕ} (hk : k ≠ 0) : kernelReal r k = 0 := by
  have hne : Real.pi * k ≠ 0 := mul_ne_zero Real.pi_ne_zero (Nat.cast_ne_zero.2 hk)
  have hsin : Real.sinc (Real.pi * k) = 0 := by
    rw [Real.sinc_of_ne_zero hne, mul_comm, Real.sin_nat_mul_pi, zero_div]
  rw [kernelReal, hsin, mul_zero, mul_zero]

theorem kernelReal_eq_kernelValue (rn rd : ℕ) {p q : ℕ} (hp : p ≠ 0) (hq : q ≠ 0) :
    kernelReal ((rn : ℝ) / rd) ((p : ℝ) / q) = kernelValue rn rd p q := by
  have hne : Real.pi * ((p : ℝ) / q) ≠ 0 :=
    mul_ne_zero Real.pi_ne_zero (div_ne_zero (Nat.cast_ne_zero.2 hp) (Nat.cast_ne_zero.2 hq))
  rw [kernelReal, Real.sinc_of_ne_zero hne, kernelValue]

theorem refinedTap_spec {rn rd p q : ℕ} (h : ∃ n, (tapAt rn rd p q n).isSome = true) :
    ∃ n, tapAt rn rd p q n = some (refinedTap rn rd p q h) :=
  ⟨Nat.find h, (Option.some_get _).symm⟩

/-- Off the exact cases an entry is what some precision level decides (log 10). -/
theorem sincEntry_decided {c d : ℕ} {i : Fin 2048}
    (h : i.val * (kernelScale c d).1 % (sincReso * (kernelScale c d).2) ≠ 0) :
    ∃ n, tapAt (kernelScale c d).1 (kernelScale c d).2 (i.val * (kernelScale c d).1)
      (sincReso * (kernelScale c d).2) n = some (sincEntry c d i) := by
  have h0 : i.val * (kernelScale c d).1 ≠ 0 := fun h0 => h (by rw [h0, Nat.zero_mod])
  rw [sincEntry, if_neg h0, dif_neg h]
  cases hfirst : tapAt (kernelScale c d).1 (kernelScale c d).2 (i.val * (kernelScale c d).1)
      (sincReso * (kernelScale c d).2) 0 with
  | some m => exact ⟨0, hfirst⟩
  | none => exact refinedTap_spec _

/-- The real value of entry `i` before its truncation (R332): both the kernel and its argument carry the scale. -/
noncomputable def sincReal (c d : ℕ) (i : Fin 2048) : ℝ :=
  kernelReal (((kernelScale c d).1 : ℝ) / (kernelScale c d).2)
    ((i.val * (kernelScale c d).1 : ℕ) / (sincReso * (kernelScale c d).2 : ℕ))

theorem sincReal_of_lt {c d : ℕ} (h : d < c) (hd : 0 < d) (i : Fin 2048) :
    sincReal c d i = kernelReal ((c : ℝ) / d)⁻¹ ((i.val : ℝ) / 256 / ((c : ℝ) / d)) := by
  have hscale : kernelScale c d = (d, c) := if_pos h
  have hc' : (c : ℝ) ≠ 0 := Nat.cast_ne_zero.2 (hd.trans h).ne'
  have hd' : (d : ℝ) ≠ 0 := Nat.cast_ne_zero.2 hd.ne'
  have harg : ((i.val * d : ℕ) : ℝ) / (sincReso * c : ℕ) = (i.val : ℝ) / 256 / ((c : ℝ) / d) := by
    rw [Nat.cast_mul, Nat.cast_mul, sincReso, Nat.cast_ofNat]
    field_simp
  simp only [sincReal, hscale, harg, inv_div]

theorem sincReal_of_not_lt {c d : ℕ} (h : ¬ d < c) (i : Fin 2048) :
    sincReal c d i = kernelReal 1 ((i.val : ℝ) / 256) := by
  have hscale : kernelScale c d = (1, 1) := if_neg h
  simp only [sincReal, hscale, Nat.cast_one, div_one, mul_one, sincReso, Nat.cast_ofNat]

/-- Every entry is the truncation of its real value: at 0, at the other zeros of `sinc`, and elsewhere by the
precision level that decides it (R332, log 10). -/
theorem sincEntry_eq_realTrunc (c d : ℕ) (i : Fin 2048) : sincEntry c d i = realTrunc (sincReal c d i) := by
  obtain ⟨hle, hrd⟩ := kernelScale_bounds c d
  have hq : 0 < sincReso * (kernelScale c d).2 := Nat.mul_pos (by decide) hrd
  rw [sincReal]
  by_cases h0 : i.val * (kernelScale c d).1 = 0
  · rw [sincEntry, if_pos h0, h0, Nat.cast_zero, zero_div, kernelReal_zero, realTrunc, if_pos (by positivity),
      ← Nat.floor_div_eq_div (K := ℝ), Int.natCast_floor_eq_floor (by positivity), sincAmpBits, Nat.cast_mul,
      Nat.cast_pow, Nat.cast_ofNat, mul_div_assoc]
  by_cases hmod : i.val * (kernelScale c d).1 % (sincReso * (kernelScale c d).2) = 0
  · obtain ⟨k, hk⟩ := Nat.dvd_of_mod_eq_zero hmod
    have hk0 : k ≠ 0 := fun h => h0 (by rw [hk, h, Nat.mul_zero])
    rw [sincEntry, if_neg h0, dif_pos hmod, hk, Nat.cast_mul,
      mul_div_cancel_left₀ _ (Nat.cast_ne_zero.2 hq.ne'), kernelReal_natCast _ hk0, realTrunc, if_pos le_rfl,
      Int.floor_zero]
  · obtain ⟨n, hn⟩ := sincEntry_decided hmod
    have hrn : 0 < (kernelScale c d).1 := Nat.pos_of_mul_pos_left (Nat.pos_of_ne_zero h0)
    have hrange : i.val * (kernelScale c d).1 ≤ 8 * (sincReso * (kernelScale c d).2) :=
      calc i.val * (kernelScale c d).1 ≤ 2048 * (kernelScale c d).2 := Nat.mul_le_mul i.isLt.le hle
        _ = 8 * (sincReso * (kernelScale c d).2) := by rw [← Nat.mul_assoc]; rfl
    rw [kernelReal_eq_kernelValue _ _ h0 hq.ne']
    exact tapAt_eq _ _ _ _ n hrn hrd hle hq hrange hmod _ hn

/-- Settles O53: the formula at `x / ratio` and at `x` is the real value of the entry. -/
theorem kernelIsTheTruncatedRealFormula : Obligations.KernelIsTheTruncatedRealFormula := by
  intro c d i _ hd blackman sinc wsinc ratio x v
  have hwsinc (u : ℝ) : wsinc u = windowPoly (Real.cos (Real.pi * (u / 8))) * Real.sinc (Real.pi * u) := by
    have hsinc : sinc u = Real.sinc (Real.pi * u) := by
      simp only [sinc, Real.sinc, mul_eq_zero, Real.pi_ne_zero, false_or]
    rw [← hsinc, ← blackman_eq_windowPoly]
  have hv : v = sincReal c d i := by
    by_cases hdown : d < c
    · rw [sincReal_of_lt hdown hd, kernelReal, ← hwsinc]
      simp only [v, if_pos hdown]
      ring
    · rw [sincReal_of_not_lt hdown, kernelReal, ← hwsinc, mul_one]
      exact if_neg hdown
  rw [sincEntry_eq_realTrunc, ← hv, realTrunc]

/-- The table depends on the ratio only through the scale of R332. -/
theorem sincEntry_congr {c d c' d' : ℕ} (h : kernelScale c d = kernelScale c' d') (i : Fin 2048) :
    sincEntry c d i = sincEntry c' d' i := by
  rw [sincEntry_eq_realTrunc, sincEntry_eq_realTrunc, sincReal, sincReal, h]

/-! ## Puts and gets (R333 to R335) -/

@[simp] theorem Converter.put_timerNum (x : Sample) (k : Converter) : (k.put x).timerNum = k.timerNum := rfl

theorem Converter.put_buf (x : Sample) (k : Converter) (j : Fin 16) :
    (k.put x).buf[j] = if h : j.val + 1 < 16 then k.buf[j.val + 1] else x :=
  Vector.getElem_ofFn _

/-- `dn` of R335 is the timer's numerator over `d`. -/
theorem Converter.advance_timer (c d : ℕ) (k : Converter) :
    ((k.advance c d).timerNum : ℚ) / d = Int.fract ((k.timerNum : ℚ) / d + (c : ℚ) / d) := by
  have h := Int.fract_div_natCast_eq_div_natCast_mod (k := ℚ) (m := k.timerNum + c) (n := d)
  rw [← add_div, ← Nat.cast_add, h, Converter.advance]

/-- The tap of place `j` at `dn` = `t / d` (R333, R335). -/
theorem lookup_eq_sincEntry {d : ℕ} (hd : 0 < d) (c t : ℕ) (j : Fin 16) :
    lookup c d (((j.val : ℤ) - (sincWidth / 2 - 1 : ℕ)) * d - t)
      = sincEntry c d ⟨min 2047 ⌊|((j.val : ℚ) - 7 - (t : ℚ) / d) * 256|⌋₊, by omega⟩ := by
  have hd' : (0 : ℚ) < d := Nat.cast_pos.2 hd
  have habs : |((j.val : ℚ) - 7 - (t : ℚ) / d) * 256|
      = ((sincReso * (((j.val : ℤ) - 7) * d - t).natAbs : ℕ) : ℚ) / d := by
    have hx : ((j.val : ℚ) - 7 - (t : ℚ) / d) * 256
        = 256 * ((((j.val : ℤ) - 7) * d - t : ℤ) : ℚ) / d := by
      push_cast
      field_simp
    rw [hx, abs_div, abs_mul, abs_of_pos hd', Nat.cast_mul, Nat.cast_natAbs, Int.cast_abs, sincReso]
    norm_num
  simp only [habs, Nat.floor_div_eq_div]
  rfl

/-- `acc` of R335 as a sum over the places of the buffer. -/
theorem Converter.convolve_eq_sum (c d : ℕ) (k : Converter) :
    k.convolve c d = ∑ j : Fin 16, k.buf[j].toInt
      * lookup c d (((j.val : ℤ) - (sincWidth / 2 - 1 : ℕ)) * d - k.timerNum) := by
  rw [Fin.sum_univ_def, List.sum_eq_foldl, List.foldl_map]
  rfl

theorem Converter.get_sample_toInt (c d : ℕ) (k : Converter) :
    (k.get c d).2.toInt = max (-32768) (min 32767 ((k.advance c d).convolve c d / 2 ^ 12)) := by
  rw [Converter.get, clampSample_toInt, Int.shiftRight_eq_div_pow]
  rfl

/-! ## The identity at ratio 1 (R338) -/

/-- At a whole distance from the centre the table of ratio 1 is 4096 there and 0 elsewhere; place 15 reads
`SINC[2047]`. -/
theorem sincEntry_unit_taps : ∀ j : Fin 16,
    sincEntry 1 1 ⟨min 2047 (sincReso * ((j.val : ℤ) - 7).natAbs), by omega⟩ = if j = 7 then 4096 else 0 := by
  decide +kernel

theorem lookup_ratio_one {d : ℕ} (hd : 0 < d) (j : Fin 16) :
    lookup d d (((j.val : ℤ) - (sincWidth / 2 - 1 : ℕ)) * d - (0 : ℕ)) = if j = 7 then 4096 else 0 := by
  have hscale : kernelScale d d = kernelScale 1 1 := (if_neg (lt_irrefl d)).trans (if_neg (lt_irrefl 1)).symm
  have hidx : sincReso * (((j.val : ℤ) - (sincWidth / 2 - 1 : ℕ)) * d - (0 : ℕ)).natAbs / d
      = sincReso * ((j.val : ℤ) - 7).natAbs := by
    rw [Nat.cast_zero, Int.sub_zero, Int.natAbs_mul, Int.natAbs_natCast, ← Nat.mul_assoc, Nat.mul_div_cancel _ hd]
    rfl
  rw [← sincEntry_unit_taps j, lookup, sincEntry_congr hscale]
  simp only [hidx]

/-- R338: from a timer at 0, a get at ratio 1 returns the sample at place 7. -/
theorem Converter.get_ratio_one {d : ℕ} (hd : 0 < d) {k : Converter} (htimer : k.timerNum = 0) :
    (k.get d d).2 = k.buf[7] := by
  have hadvance : (k.advance d d).timerNum = 0 := by
    rw [Converter.advance, htimer, Nat.zero_add, Nat.mod_self]
  have hconv : (k.advance d d).convolve d d = k.buf[7].toInt * 4096 := by
    simp only [Converter.convolve_eq_sum, hadvance, lookup_ratio_one hd, mul_ite, mul_zero, Finset.sum_ite_eq',
      Finset.mem_univ, if_true]
    rfl
  have hlo := k.buf[7].le_toInt
  have hhi := k.buf[7].toInt_lt
  apply BitVec.eq_of_toInt_eq
  rw [Converter.get_sample_toInt, hconv]
  omega

theorem Converter.feed_concat (xs : List Sample) (x : Sample) (k : Converter) :
    k.feed (xs ++ [x]) = (k.feed xs).put x := by
  rw [Converter.feed, List.foldl_append]
  rfl

/-- The cleared converter after puts: the samples from the last one back, then zeros (R334, R339). -/
theorem Converter.feed_initial (xs : List Sample) : (Converter.initial.feed xs).timerNum = 0
    ∧ ∀ j : Fin 16, (Converter.initial.feed xs).buf[j] = xs.reverse.getD (15 - j.val) 0 := by
  induction xs using List.reverseRecOn with
  | nil => exact ⟨rfl, by decide⟩
  | append_singleton xs x ih =>
    obtain ⟨htimer, hbuf⟩ := ih
    rw [Converter.feed_concat]
    refine ⟨htimer, fun j => ?_⟩
    rw [Converter.put_buf, List.reverse_concat]
    split
    next h =>
      rw [show 15 - j.val = 15 - (j.val + 1) + 1 by omega, List.getD_cons_succ]
      exact hbuf ⟨j.val + 1, h⟩
    next h => rw [show 15 - j.val = 0 by omega, List.getD_cons_zero]

/-- Settles O52: the put and the get from their own lemmas; at ratio 1 the get reads place 7, where the sample
of eight puts before stands. -/
theorem converterPutGetAndDelay : Obligations.ConverterPutGetAndDelay := by
  refine ⟨fun x k => ⟨k.put_timerNum x, k.put_buf x⟩, fun c d k hd => ?_, fun d xs hd => ?_⟩
  · intro dn tap acc
    have hfloor : ⌊(acc : ℚ) / 2 ^ 12⌋ = acc / 2 ^ 12 := by
      exact_mod_cast Rat.floor_intCast_div_natCast acc (2 ^ 12)
    have hdn : ((k.advance c d).timerNum : ℚ) / d = dn := k.advance_timer c d
    have hacc : (k.advance c d).convolve c d = acc := by
      simp only [Converter.convolve_eq_sum, lookup_eq_sincEntry hd, hdn]
      rfl
    exact ⟨hdn, rfl, by rw [Converter.get_sample_toInt, hacc, hfloor]⟩
  · obtain ⟨htimer, hbuf⟩ := Converter.feed_initial xs
    have hget : ((Converter.initial.feed xs).get d d).2 = xs.reverse.getD 8 0 :=
      (Converter.get_ratio_one hd htimer).trans (hbuf 7)
    refine hget.trans ?_
    split
    next h => rw [List.getD_reverse 8 h, show xs.length - 1 - 8 = xs.length - 9 by omega]
    next h => exact List.getD_eq_default _ _ (by rw [List.length_reverse]; omega)

end Sys2Proof.Machine
end

section
/-!
PROOFS. The statements of 60_exceptions.md: the refusals and their order (R362, R364), the two faults of the
buffer renders (R360, R361) and that no other command faults (R363), the timers (R370 to R373) and the CSM key
pulse (R374). Every command is `issue` of its own refusal and its own run, so the laws of `issue` speak for all
commands at once.
-/

namespace Sys2Proof.Machine

/-! ## A command as its own refusal and its run (R364) -/

/-- The refusal a command has of its own (R65, R400, R403). -/
def ownRefusal (a : LaunchArgs) : Instr → Option Refusal
  | .calcBuffer n => bufferRefusal a sampleBytes n.toNat
  | .calcBufferStereo n => bufferRefusal a frameBytes n.toNat
  | .setRate r => if r = 0 then some .encoding else none
  | .new => if a.clock = 0 ∨ a.rate = 0 then some .encoding else none
  | _ => none

/-- Every command but `new` needs a chip that `new` has made (R362). -/
def needsInstance : Instr → Bool
  | .new => false
  | _ => true

/-- Every command passes the same checks, with its own refusal among them (R364). -/
theorem exec_eq_issue (i : Instr) (s : State) :
    ∃ run, exec i s = issue s (ownRefusal s.args i) (needsInstance i) run := by
  cases i <;> exact ⟨_, rfl⟩

/-! ## The refusals and their order (R362, R364) -/

section Refusals
variable {i : Instr} {s : State} (hf : s.faults = [])
include hf

theorem exec_of_overlap (ho : s.args.overlaps = true) : exec i s = .refused .concurrent := by
  obtain ⟨run, hrun⟩ := exec_eq_issue i s
  rw [hrun, issue_of_overlap hf ho]

theorem exec_of_ownRefusal (ho : s.args.overlaps = false) {r : Refusal} (hown : ownRefusal s.args i = some r) :
    exec i s = .refused r := by
  obtain ⟨run, hrun⟩ := exec_eq_issue i s
  rw [hrun, hown, issue_of_own hf ho]

theorem exec_of_no_instance (ho : s.args.overlaps = false) (hown : ownRefusal s.args i = none)
    (hinst : needsInstance i = true) (hc : s.created = false) : exec i s = .refused .noInstance := by
  obtain ⟨run, hrun⟩ := exec_eq_issue i s
  rw [hrun, hown, hinst, issue_of_no_instance hf ho hc]

end Refusals

/-- `R_BUFFER` is the refusal of a buffer that is not valid (R65). -/
theorem bufferRefusal_eq (s : State) (elemBytes n : Nat) :
    bufferRefusal s.args elemBytes n = if s.bufferReady elemBytes n then none else some .buffer := by
  simp [bufferRefusal, bufferOk]

/-- The commands with no refusal of their own on this state. -/
theorem ownRefusal_eq_none {i : Instr} {s : State} (hnew : i ≠ .new) (hrate : i ≠ .setRate 0)
    (hmono : ∀ n, i = .calcBuffer n → s.bufferReady 2 n.toNat)
    (hstereo : ∀ n, i = .calcBufferStereo n → s.bufferReady 4 n.toNat) : ownRefusal s.args i = none := by
  cases i with
  | calcBuffer n => exact (bufferRefusal_eq s 2 n.toNat).trans (if_pos (hmono n rfl))
  | calcBufferStereo n => exact (bufferRefusal_eq s 4 n.toNat).trans (if_pos (hstereo n rfl))
  | setRate r => exact if_neg fun h => hrate (congrArg Instr.setRate h)
  | new => exact absurd rfl hnew
  | _ => rfl

theorem needsInstance_of_ne_new {i : Instr} (h : i ≠ .new) : needsInstance i = true := by
  cases i with
  | new => exact absurd rfl h
  | _ => rfl

/-- Settles O43: the overlap, then the refusal of the command's own, then the missing chip. -/
theorem refusalsComeInOrder : Obligations.RefusalsComeInOrder := by
  refine fun i s hf => ⟨exec_of_overlap hf, fun ho => ⟨?_, ?_, ?_, ?_, ?_⟩⟩
  · rintro n rfl hb
    exact exec_of_ownRefusal hf ho ((bufferRefusal_eq s 2 n.toNat).trans (if_neg hb))
  · rintro n rfl hb
    exact exec_of_ownRefusal hf ho ((bufferRefusal_eq s 4 n.toNat).trans (if_neg hb))
  · rintro rfl
    exact exec_of_ownRefusal hf ho rfl
  · rintro rfl hzero
    exact exec_of_ownRefusal hf ho (if_pos hzero)
  · intro hc hnew hrate hmono hstereo
    exact exec_of_no_instance hf ho (ownRefusal_eq_none hnew hrate hmono hstereo) (needsInstance_of_ne_new hnew) hc

/-! ## The faults of the buffer renders (R360, R361) -/

/-- A command word as a number: the code above the 24 operand bits (R80). -/
theorem commandWord_eq_ofNat (code : Byte) (operand : BitVec 24) :
    commandWord code operand = BitVec.ofNat 32 (code.toNat * 2 ^ 24 + operand.toNat) := by
  have hcode := code.isLt
  have hoperand := operand.isLt
  apply BitVec.eq_of_toNat_eq
  rw [commandWord, BitVec.toNat_append, BitVec.toNat_ofNat, ← Nat.shiftLeft_add_eq_or_of_lt hoperand,
    Nat.shiftLeft_eq, Nat.mod_eq_of_lt (by omega)]

/-- The fault record of a chip without one, after a fault (R47). -/
theorem raiseFault_of_no_fault {s : State} (hf : s.faults = []) (reason : FaultReason) (word : Word) :
    raiseFault s reason word = { s with faults := [⟨reason, word⟩] } := by
  rw [raiseFault, hf]
  rfl

section BufferFaults
variable {s : State} (hf : s.faults = []) (elem : Sample → List Byte) (n : Nat) (word : Word)
include hf

theorem renderToBuffer_of_converter (hconv : s.chip.conv.isSome = true) :
    renderToBuffer elem n word s = { s with faults := [⟨.rateMismatch, word⟩] } :=
  (if_pos hconv).trans (raiseFault_of_no_fault hf _ _)

theorem renderToBuffer_of_too_large (hconv : s.chip.conv = none) (hn : s.maxBatch < n) :
    renderToBuffer elem n word s = { s with faults := [⟨.batchTooLarge n, word⟩] } := by
  have hnone : ¬ s.chip.conv.isSome = true := by simp [hconv]
  exact (if_neg hnone).trans ((if_pos hn).trans (raiseFault_of_no_fault hf _ _))

end BufferFaults

section ValidBuffer
variable {n : BitVec 24} {s : State} (hs : s.ready)
include hs

theorem exec_calcBuffer_of_bufferReady (hb : s.bufferReady 2 n.toNat) :
    exec (.calcBuffer n) s
      = .next (renderToBuffer sampleLE n.toNat (BitVec.ofNat 32 (0x03000000 + n.toNat)) s) := by
  rw [show BitVec.ofNat 32 (0x03000000 + n.toNat) = encode (.calcBuffer n) from (commandWord_eq_ofNat 0x03 n).symm]
  exact issue_of_bufferReady hs hb _

theorem exec_calcBufferStereo_of_bufferReady (hb : s.bufferReady 4 n.toNat) :
    exec (.calcBufferStereo n) s
      = .next (renderToBuffer frameLE n.toNat (BitVec.ofNat 32 (0x04000000 + n.toNat)) s) := by
  rw [show BitVec.ofNat 32 (0x04000000 + n.toNat) = encode (.calcBufferStereo n) from
    (commandWord_eq_ofNat 0x04 n).symm]
  exact issue_of_bufferReady hs hb _

end ValidBuffer

/-- Settles O41: with a valid buffer the render runs, and it looks for the converter before the count (R364). -/
theorem bufferRendersRecordTheirFaults : Obligations.BufferRendersRecordTheirFaults := by
  intro n s hs
  have hf : s.faults = [] := hs.2.1
  refine ⟨fun hb hconv => ?_, fun hb hconv => ?_, fun hb hconv hn => ?_, fun hb hconv hn => ?_⟩
  · rw [exec_calcBuffer_of_bufferReady hs hb, renderToBuffer_of_converter hf _ _ _ hconv]
  · rw [exec_calcBufferStereo_of_bufferReady hs hb, renderToBuffer_of_converter hf _ _ _ hconv]
  · rw [exec_calcBuffer_of_bufferReady hs hb, renderToBuffer_of_too_large hf _ _ _ hconv hn]
  · rw [exec_calcBufferStereo_of_bufferReady hs hb, renderToBuffer_of_too_large hf _ _ _ hconv hn]

/-! ## No other command faults (R363) -/

/-- A command whose run is a next state answers that one or is refused, where no fault is recorded. -/
theorem issue_next_or_refused {s : State} (hf : s.faults = []) (own : Option Refusal) (inst : Bool) (u : State) :
    issue s own inst (.next u) = .next u ∨ ∃ r, issue s own inst (.next u) = .refused r := by
  cases ho : s.args.overlaps with
  | true => exact .inr ⟨_, issue_of_overlap hf ho own inst _⟩
  | false =>
    cases own with
    | some r => exact .inr ⟨r, issue_of_own hf ho r inst _⟩
    | none =>
      rw [issue, hf, ho]
      cases inst && !s.created with
      | true => exact .inr ⟨_, rfl⟩
      | false => exact .inl rfl

/-- A command that needs a chip is refused on a state that is not ready (R362). -/
theorem exec_refused_of_not_ready {i : Instr} {s : State} (hf : s.faults = []) (hinst : needsInstance i = true)
    (hs : ¬ s.ready) : ∃ r, exec i s = .refused r := by
  cases ho : s.args.overlaps with
  | true => exact ⟨_, exec_of_overlap hf ho⟩
  | false =>
    have hc : s.created = false := Bool.eq_false_iff.2 fun hc => hs ⟨hc, hf, ho⟩
    cases hown : ownRefusal s.args i with
    | some r => exact ⟨r, exec_of_ownRefusal hf ho hown⟩
    | none => exact ⟨_, exec_of_no_instance hf ho hown hinst hc⟩

/-- A command that runs no pacing loop and renders into no buffer has for its run a next state without a fault. -/
theorem exec_eq_issue_next {i : Instr} {s : State} (hf : s.faults = []) (hone : i ≠ .calcOne)
    (hmono : ∀ n, i ≠ .calcBuffer n) (hstereo : ∀ n, i ≠ .calcBufferStereo n) :
    ∃ u, exec i s = issue s (ownRefusal s.args i) (needsInstance i) (.next u) ∧ u.faults = [] := by
  cases i with
  | calcOne => exact absurd rfl hone
  | calcBuffer n => exact absurd rfl (hmono n)
  | calcBufferStereo n => exact absurd rfl (hstereo n)
  | new => exact ⟨_, rfl, rfl⟩
  | _ =>
    refine ⟨_, rfl, ?_⟩
    exact hf

/-- Settles O44: `calcOne` ends its pacing loop on a ready state and is refused on any other; the run of every
other command is a next state, which the checks let through or refuse. -/
theorem nothingElseFaults : Obligations.NothingElseFaults := by
  intro i s hf hp hmono hstereo
  by_cases hone : i = .calcOne
  · subst hone
    obtain ⟨_, hrate, _, hinp, htime, _⟩ := hp
    by_cases hs : s.ready
    · exact .inl ⟨_, exec_calcOne_of_ready hs (by omega) htime, hf⟩
    · exact .inr (exec_refused_of_not_ready hf rfl hs)
  · obtain ⟨u, hexec, hu⟩ := exec_eq_issue_next hf hone hmono hstereo
    rw [hexec]
    exact (issue_next_or_refused hf _ _ u).imp_left fun h => ⟨u, h, hu⟩

/-! ## The steps of a timer (R370 to R372) -/

theorem Timer.step_of_stopped {w : Nat} {t : Timer w} (h : t.run = false) : t.step = (t, false) := by
  simp [Timer.step, h]

section Running
variable {w : Nat} {t : Timer w} (hrun : t.run = true)
include hrun

/-- The prescaler alone moves. -/
theorem Timer.step_of_prescaler (hpre : t.pre + 1 ≠ 0) : t.step = ({ t with pre := t.pre + 1 }, false) := by
  simp only [Timer.step, hrun, hpre, if_true, if_false]

/-- The prescaler wraps and the counter moves. -/
theorem Timer.step_of_count (hpre : t.pre + 1 = 0) (hcnt : t.cnt ≠ 255) :
    t.step = ({ t with pre := t.pre + 1, cnt := t.cnt + 1 }, false) := by
  simp only [Timer.step, hrun, hpre, hcnt, if_true, if_false]

/-- The counter overflows: it takes the latch, and the flag is set unless masked. -/
theorem Timer.step_of_overflow (hpre : t.pre + 1 = 0) (hcnt : t.cnt = 255) :
    t.step = ({ t with pre := 0, cnt := t.latch, flag := t.flag || !t.mask }, true) := by
  simp only [Timer.step, hrun, hpre, hcnt, if_true, Timer.overflowFlag]

end Running

/-! ## The first period of a timer (R370, R371) -/

/-- The steps from a start to the first overflow (R371). -/
def Timer.period {w : Nat} (t : Timer w) : Nat := (256 - t.latch.toNat) * 2 ^ w

/-- The timer `n` steps after a start, while it has not overflowed: the prescaler has counted from 0 and the
counter from the latch (R370). -/
def Timer.counted {w : Nat} (t : Timer w) (n : Nat) : Timer w :=
  { t with pre := BitVec.ofNat w n, cnt := BitVec.ofNat 8 (t.latch.toNat + n / 2 ^ w) }

theorem Timer.counted_zero {w : Nat} {t : Timer w} (hcnt : t.cnt = t.latch) (hpre : t.pre = 0) :
    t.counted 0 = t := by
  obtain ⟨latch, mask, run, cnt, pre, flag⟩ := t
  obtain rfl : cnt = latch := hcnt
  obtain rfl : pre = 0 := hpre
  simp [Timer.counted]

section Period
variable {w : Nat} (t : Timer w) (n : Nat)

theorem Timer.counted_pre : (t.counted n).pre + 1 = BitVec.ofNat w (n + 1) := (BitVec.ofNat_add ..).symm

/-- The prescaler wraps at the multiples of its period (R370). -/
theorem Timer.counted_pre_wraps : (t.counted n).pre + 1 = 0 ↔ 2 ^ w ∣ n + 1 := by
  rw [Timer.counted_pre, ← BitVec.toNat_inj, BitVec.toNat_ofNat, Nat.dvd_iff_mod_eq_zero]
  simp

/-- The counter stands at 255 in the last turn of the prescaler before the overflow (R371). -/
theorem Timer.counted_cnt_full (h : n < t.period) (hwrap : 2 ^ w ∣ n + 1) :
    (t.counted n).cnt = 255 ↔ n + 1 = t.period := by
  obtain ⟨k, hk⟩ := hwrap
  have hlatch := t.latch.isLt
  have hpos : 0 < 2 ^ w := Nat.two_pow_pos w
  have hperiod : t.period = 2 ^ w * (256 - t.latch.toNat) := Nat.mul_comm _ _
  have hturns : k ≤ 256 - t.latch.toNat := Nat.le_of_mul_le_mul_left (by omega) hpos
  have hquot : k = n / 2 ^ w + 1 := by
    rw [← Nat.succ_div_of_dvd (Dvd.intro k hk.symm), hk, Nat.mul_div_cancel_left k hpos]
  have hcnt : (t.counted n).cnt.toNat = t.latch.toNat + n / 2 ^ w :=
    (BitVec.toNat_ofNat ..).trans (Nat.mod_eq_of_lt (by omega))
  rw [hk, hperiod, Nat.mul_right_inj hpos.ne', hquot, ← BitVec.toNat_inj, hcnt]
  exact (show t.latch.toNat + n / 2 ^ w = 255 ↔ n / 2 ^ w + 1 = 256 - t.latch.toNat by omega)

end Period

section Started
variable {w : Nat} {t : Timer w} (hrun : t.run = true)
include hrun

/-- A step before the end of the period counts one on (R370). -/
theorem Timer.step_counted {n : Nat} (h : n + 1 < t.period) : (t.counted n).step = (t.counted (n + 1), false) := by
  have hpre := t.counted_pre n
  by_cases hwrap : 2 ^ w ∣ n + 1
  · have hcnt : (t.counted n).cnt ≠ 255 := fun he =>
      h.ne ((t.counted_cnt_full n (Nat.lt_of_succ_lt h) hwrap).1 he)
    have hnext : (t.counted n).cnt + 1 = BitVec.ofNat 8 (t.latch.toNat + (n + 1) / 2 ^ w) := by
      rw [Nat.succ_div_of_dvd hwrap]
      exact (BitVec.ofNat_add ..).symm
    rw [Timer.step_of_count (t := t.counted n) hrun ((t.counted_pre_wraps n).2 hwrap) hcnt, hpre, hnext]
    rfl
  · rw [Timer.step_of_prescaler (t := t.counted n) hrun (mt (t.counted_pre_wraps n).1 hwrap), hpre, Timer.counted,
      ← Nat.succ_div_of_not_dvd hwrap]
    rfl

/-- The step that ends the period overflows (R371). -/
theorem Timer.step_counted_last {n : Nat} (h : n + 1 = t.period) :
    (t.counted n).step = ({ t with pre := 0, cnt := t.latch, flag := t.flag || !t.mask }, true) := by
  have hwrap : 2 ^ w ∣ n + 1 := h ▸ Dvd.intro_left _ rfl
  exact Timer.step_of_overflow (t := t.counted n) hrun ((t.counted_pre_wraps n).2 hwrap)
    ((t.counted_cnt_full n (h ▸ Nat.lt_succ_self n) hwrap).2 h)

/-- Before the end of the period the steps only count. -/
theorem Timer.iterate_step_of_started (hcnt : t.cnt = t.latch) (hpre : t.pre = 0) (n : Nat) (h : n < t.period) :
    (fun u : Timer w => u.step.1)^[n] t = t.counted n := by
  induction n with
  | zero => exact (Timer.counted_zero hcnt hpre).symm
  | succ n ih => rw [Function.iterate_succ_apply', ih (Nat.lt_of_succ_lt h), Timer.step_counted hrun h]

end Started

theorem Timer.period_pos {w : Nat} (t : Timer w) : 0 < t.period :=
  Nat.mul_pos (Nat.sub_pos_of_lt t.latch.isLt) (Nat.two_pow_pos w)

/-- Settles O32: the period is counted out step by step, whatever the width of the prescaler. -/
theorem timerOverflowsAfterItsPeriod : Obligations.TimerOverflowsAfterItsPeriod := by
  refine ⟨?_, fun c => ?_, fun w t h => Timer.step_of_stopped h⟩
  · intro w t _ hrun hcnt hpre after period
    have hafter (n : Nat) (h : n < t.period) : after n = t.counted n :=
      Timer.iterate_step_of_started hrun hcnt hpre n h
    have hlast : period - 1 + 1 = t.period := Nat.sub_add_cancel t.period_pos
    have hoverflow : (after (period - 1)).step = ({ t with flag := t.flag || !t.mask }, true) := by
      rw [hafter _ (hlast ▸ Nat.lt_succ_self _), Timer.step_counted_last hrun hlast, ← hcnt, ← hpre]
    refine ⟨fun n h => ?_, congrArg Prod.snd hoverflow, ?_⟩
    · rw [hafter n (Nat.lt_of_succ_lt h), hafter (n + 1) h, Timer.step_counted hrun h]
      exact ⟨rfl, rfl⟩
    · have hsucc : after (period - 1 + 1) = (after (period - 1)).step.1 := Function.iterate_succ_apply' _ _ _
      rw [hoverflow, hlast] at hsucc
      exact hsucc
  · obtain ⟨_, _, _, ht1, ht2, _⟩ := c.tick1_eq_preTick
    exact ⟨ht1.trans c.preTick_t1, ht2.trans c.preTick_t2⟩

/-! ## The CSM key pulse (R374) -/

theorem Chip.timer1Step_keyMask (c : Chip) :
    c.timer1Step.keyMask
      = if c.t1.step.2 && c.csm then Chip.wantMask { c with csmPulse := true } else c.keyMask := by
  unfold Chip.timer1Step
  dsimp only
  split
  · exact Chip.wantMask_congr rfl rfl rfl rfl
  · rfl

/-- Only steps 1 to 3 of a tick change the key mask. -/
theorem Chip.tick1_keyMask_eq_control (c : Chip) : c.tick1.keyMask = c.control.keyMask :=
  Chip.eq_of_reads_frame (fun _ => rfl) (Chip.frame_tick1 c)

/-- The key mask of a tick: a pulse that starts asks for every key, a pulse that ends for those that remain. -/
theorem Chip.tick1_keyMask (c : Chip) :
    c.tick1.keyMask =
      if c.t1.step.2 && c.csm then Chip.wantMask { c with csmPulse := true }
      else if c.csmPulse then Chip.wantMask { c with csmPulse := false } else c.keyMask := by
  have hsteps : c.control.keyMask = c.lfoStep.csmRelease.timer1Step.keyMask := rfl
  have hcond : (c.lfoStep.csmRelease.t1.step.2 && c.lfoStep.csmRelease.csm) = (c.t1.step.2 && c.csm) := by
    rw [Chip.csmRelease_t1, Chip.csmRelease_csm]
    rfl
  have hstart : Chip.wantMask { c.lfoStep.csmRelease with csmPulse := true }
      = Chip.wantMask { c with csmPulse := true } :=
    Chip.wantMask_congr (Chip.csmRelease_chan _) rfl (Chip.csmRelease_rhythm _) (Chip.csmRelease_rkey _)
  have hend : Chip.wantMask { c.lfoStep with csmPulse := false } = Chip.wantMask { c with csmPulse := false } :=
    Chip.wantMask_congr rfl rfl rfl rfl
  rw [Chip.tick1_keyMask_eq_control, hsteps, Chip.timer1Step_keyMask, hcond]
  exact if_congr Iff.rfl hstart ((Chip.csmRelease_keyMask c.lfoStep).trans (if_congr Iff.rfl hend rfl))

/-- The pulse after a tick: an overflow of timer 1 under `csm`, and nothing else. -/
theorem Chip.tick1_csmPulse (c : Chip) : c.tick1.csmPulse = (c.t1.step.2 && c.csm) := by
  obtain ⟨_, _, _, _, _, hpulse, _⟩ := c.tick1_eq_preTick
  rw [hpulse, Chip.preTick_csmPulse]

theorem Chip.startsPulse_iff (c : Chip) : (c.t1.step.2 && c.csm) = true ↔ c.timer1Overflows ∧ c.csm = true := by
  rw [Bool.and_eq_true, Chip.timer1Overflows_iff]

/-- A tick that starts a pulse and ends none has one key edge a slot, that of the start. -/
theorem Chip.slotEdges_of_start {c : Chip} (hpulse : c.csmPulse = false) (hstart : (c.t1.step.2 && c.csm) = true)
    (i : SlotId) (sl : Slot) : c.slotEdges i sl = Chip.keyEdge { c with csmPulse := true } i sl := by
  unfold Chip.slotEdges
  dsimp only
  rw [Chip.csmRelease_of_no_pulse hpulse, hpulse, hstart]
  rfl

/-- A tick that ends a pulse and starts none has one key edge a slot, that of the end. -/
theorem Chip.slotEdges_of_end {c : Chip} (hpulse : c.csmPulse = true) (hstart : (c.t1.step.2 && c.csm) = false)
    (i : SlotId) (sl : Slot) : c.slotEdges i sl = Chip.keyEdge { c with csmPulse := false } i sl := by
  unfold Chip.slotEdges
  dsimp only
  rw [Chip.csmRelease_t1, Chip.csmRelease_csm, hpulse, hstart]
  rfl

/-- An effective attack rate of 15 needs an attack rate, as `rks / 4` is at most 3 (R191, R205). -/
theorem attackRate_ne_zero_of_full {nts : Bool} {ch : Channel} {sl : Slot}
    (h : min 15 (sl.ar.toNat + rksOf nts ch sl.kr / 4) = 15) : sl.ar ≠ 0 := by
  intro hzero
  have hrks := rksOf_le nts ch sl.kr
  rw [hzero, show (0 : BitVec 4).toNat = 0 from rfl] at h
  omega

/-- A slot the start of a pulse keys on, when step 4 of the tick begins: `SLOT_ON` of the committed slot, whose
fields are those before the tick (R205). -/
theorem Chip.slotAt_preTick_of_start {c : Chip} (hc : c.cacheOk) (hstart : (c.t1.step.2 && c.csm) = true)
    (hpulse : c.csmPulse = false) {i : SlotId} (hoff : c.keyMask.getLsbD i.val = false) :
    (c.preTick.slotAt i).phase = 0
      ∧ if min 15 ((c.slotAt i).ar.toNat + rksOf c.nts (c.chanFor i) (c.slotAt i).kr / 4) = 15
        then (c.preTick.slotAt i).egState = .decay ∧ (c.preTick.slotAt i).egOut = 0
        else (c.preTick.slotAt i).egState = .attack ∧ (c.preTick.slotAt i).egOut = (c.slotAt i).egOut := by
  have hon : c.preTick.slotAt i
      = slotOn c.nts (c.chanFor i) (commitSlot c.nts (c.chanFor i) (c.slotAt i)) := by
    rw [Chip.slotAt_preTick, Chip.slotEdges_of_start hpulse hstart]
    exact Chip.keyEdge_of_rise (c := { c with csmPulse := true }) hoff (.inr (.inl rfl)) _
  have hlevel := slotOn_state_and_level (Slot.cacheOk_commit (hc i))
  rw [hon]
  refine ⟨slotOn_phase _ _ _, ?_⟩
  split
  next hfull => rwa [if_pos ⟨attackRate_ne_zero_of_full hfull, hfull⟩] at hlevel
  next hslow => rwa [if_neg (fun h => hslow h.2)] at hlevel

/-- A slot whose key only the pulse held: the end of the pulse releases it, and step 4 of the tick keeps RELEASE
(R206, R202). -/
theorem Chip.release_of_end {c : Chip} (hc : c.cacheOk) (hpulse : c.csmPulse = true)
    (hstart : (c.t1.step.2 && c.csm) = false) {i : SlotId} (hon : c.keyMask.getLsbD i.val = true)
    (hwant : ¬ keyWanted { c with csmPulse := false } i) :
    (c.preTick.slotAt i).egState = .release ∧ (c.tick1.slotAt i).egState = .release := by
  have hrelease : (c.preTick.slotAt i).egState = .release := by
    rw [Chip.slotAt_preTick, Chip.slotEdges_of_end hpulse hstart,
      Chip.keyEdge_of_fall (c := { c with csmPulse := false }) hon hwant]
    rfl
  obtain ⟨_, hstate⟩ := Chip.tick1_envelope_of_cacheOk hc i
  exact ⟨hrelease, hstate.trans (Slot.nextState_of_release hrelease _)⟩

/-- Settles O33: the pulse, the key mask and the slots of a tick by whether it starts a pulse or ends one. -/
theorem csmPulseLastsOneTick : Obligations.CsmPulseLastsOneTick := by
  refine fun c hc => ⟨fun hover hcsm => ?_, fun hpulse hno => ?_, fun hquiet => ?_, ?_⟩
  · have hstart := c.startsPulse_iff.2 ⟨hover, hcsm⟩
    refine ⟨c.tick1_csmPulse.trans hstart, fun i => ⟨?_, fun hpulse hoff => ?_⟩⟩
    · rw [Chip.tick1_keyMask, if_pos hstart, Chip.getLsbD_wantMask, Chip.wantsKey_iff]
      exact .inr (.inl rfl)
    · exact Chip.slotAt_preTick_of_start hc hstart hpulse hoff
  · have hstart := Bool.eq_false_iff.2 (mt c.startsPulse_iff.1 hno)
    refine ⟨c.tick1_csmPulse.trans hstart, fun i => ⟨?_, Chip.release_of_end hc hpulse hstart⟩⟩
    rw [Chip.tick1_keyMask, hstart, hpulse, if_neg Bool.false_ne_true, if_pos rfl, Chip.getLsbD_wantMask,
      Chip.wantsKey_iff]
  · have hstart := Chip.no_pulse_of_quiet hquiet
    refine ⟨c.tick1_csmPulse.trans hstart, ?_⟩
    rw [Chip.tick1_keyMask, hstart, hquiet.1, if_neg Bool.false_ne_true, if_neg Bool.false_ne_true]
  · obtain ⟨_, _, _, ht1, _⟩ := c.tick1_eq_preTick
    rw [ht1, Chip.preTick_t1, Timer.step_flag, Bool.or_eq_true, Bool.and_eq_true, Chip.timer1Overflows_iff,
      Bool.not_eq_true']

end Sys2Proof.Machine
end

section
/-!
PROOFS. The statements of 70_reset_and_hazards.md: what `reset`, `setRate` and `new` leave (R400, R401, R403) and
that a reset of a reset chip changes nothing (R402).
-/

namespace Sys2Proof.Machine

/-! ## The presence of the converter (R330, R339) -/

/-- R330's test with its rounded quotient in lowest terms. -/
theorem convTest_eq (clock rate : Nat) :
    convTest clock rate = decide (clock / 72 ≠ rate ∧ (clock + 36) / 72 ≠ rate) := by
  have hround : (2 * clock + 72) / 144 = (clock + 36) / 72 :=
    Nat.mul_div_mul_left (clock + 36) 72 Nat.two_pos
  rw [Bool.decide_and, ← hround]
  rfl

theorem freshConverter_eq (clock rate : Nat) :
    freshConverter clock rate
      = if clock / 72 ≠ rate ∧ (clock + 36) / 72 ≠ rate then some Converter.initial else none := by
  simp only [freshConverter, convTest_eq, decide_eq_true_iff]

/-! ## The reset state (R401, R402) -/

theorem resetState_regAt (c : Chip) (a : Byte) : (resetState c).regAt a = 0 := Vector.getElem_replicate _
theorem resetState_chanAt (c : Chip) (ch : ChanId) : (resetState c).chanAt ch = Channel.initial :=
  Vector.getElem_replicate _
theorem resetState_slotAt (c : Chip) (i : SlotId) : (resetState c).slotAt i = Slot.initial :=
  Vector.getElem_replicate _

/-- Both timer flags are clear after a reset, as `irqReset` would leave them (R33, R401). -/
theorem resetState_statusByte (c : Chip) : (resetState c).statusByte = 0 := Chip.statusByte_irqReset (resetState c)

theorem Chip.initial_conv_isSome (clock rate : Nat) (p : Bool) : (Chip.initial clock rate p).conv.isSome = p := by
  cases p <;> rfl

/-- A reset keeps the presence of the converter and clears it. -/
theorem resetState_conv (c : Chip) : (resetState c).conv = c.conv.map fun _ => Converter.initial := by
  unfold resetState Chip.initial
  cases c.conv <;> rfl

theorem resetState_conv_isSome (c : Chip) : (resetState c).conv.isSome = c.conv.isSome :=
  Chip.initial_conv_isSome c.clockHz c.rateHz _

/-- R402: a reset reads the preserved fields alone. -/
theorem resetState_congr {c d : Chip} (hclock : d.clockHz = c.clockHz) (hrate : d.rateHz = c.rateHz)
    (hout : d.outStep = c.outStep) (hinp : d.inpStep = c.inpStep) (hconv : d.conv.isSome = c.conv.isSome) :
    resetState d = resetState c := by
  rw [resetState, hclock, hrate, hout, hinp, hconv, ← resetState]

theorem resetState_resetState (c : Chip) : resetState (resetState c) = resetState c :=
  resetState_congr rfl rfl rfl rfl (resetState_conv_isSome c)

theorem resetState_initial (clock rate : Nat) (p : Bool) :
    resetState (Chip.initial clock rate p) = Chip.initial clock rate p := by
  rw [resetState, Chip.initial_conv_isSome]
  rfl

/-! ## The next states of `reset` and `new` (R400, R401) -/

theorem exec_reset_of_ready {s : State} (hs : s.ready) : exec .reset s = .next (s.setChip (resetState s.chip)) :=
  issue_of_ready hs true _

theorem exec_reset_eq_next {s t : State} (h : exec .reset s = .next t) : t = s.setChip (resetState s.chip) :=
  issue_next_eq_next (show execReset s = _ from h)

/-- The state with the chip `new` makes from the launch arguments (R400). -/
def State.renewed (s : State) : State :=
  { s with
    created := true
    chip := Chip.initial s.args.clock s.args.rate (convTest s.args.clock s.args.rate)
    faults := [] }

/-- With positive arguments `new` passes every check, whether a chip exists or not (R400, log 3). -/
theorem exec_new_of_positive {s : State} (hf : s.faults = []) (ho : s.args.overlaps = false)
    (hclock : 0 < s.args.clock) (hrate : 0 < s.args.rate) : exec .new s = .next s.renewed := by
  have hown : ownRefusal s.args .new = none := if_neg (not_or.2 ⟨hclock.ne', hrate.ne'⟩)
  have hcheck : exec .new s = issue s (ownRefusal s.args .new) false (.next s.renewed) := rfl
  rw [hcheck, hown, issue, hf, ho]
  rfl

theorem exec_new_eq_next {s t : State} (h : exec .new s = .next t) : t = s.renewed :=
  issue_next_eq_next (show execNew s = _ from h)

/-! ## The statements -/

/-- Settles O47: the preserved fields and the constants are read off the reset state; the converter, the bank, the
status byte, the channels and the slots have their own lemmas. -/
theorem resetGivesTheTable : Obligations.ResetGivesTheTable := by
  intro s hs
  refine ⟨_, exec_reset_of_ready hs, rfl, rfl, rfl, rfl, rfl, resetState_conv s.chip, resetState_regAt s.chip, ?_⟩
  refine ⟨rfl, rfl, rfl, rfl, rfl, rfl, rfl, rfl, rfl, resetState_statusByte s.chip, ?_⟩
  exact ⟨rfl, rfl, rfl, rfl, rfl, rfl, rfl, rfl, rfl, resetState_chanAt s.chip, resetState_slotAt s.chip⟩

/-- Settles O48: what `reset` and `new` leave is a fixed point of the reset. -/
theorem resetIsIdempotent : Obligations.ResetIsIdempotent := by
  refine fun s t u => ⟨fun ht hu => ?_, fun ht hu => ?_⟩
  · obtain rfl := exec_reset_eq_next ht
    rw [exec_reset_eq_next hu, State.setChip_chip, resetState_resetState]
    rfl
  · obtain rfl := exec_new_eq_next ht
    rw [exec_reset_eq_next hu, State.renewed, resetState_initial]
    rfl

/-- Settles O49: the rate 0 is the refusal of the command's own; any other rate leaves its next state, with the
presence test in lowest terms. -/
theorem setRateRebuildsTheConverter : Obligations.SetRateRebuildsTheConverter := by
  refine ⟨fun s ⟨_, hf, ho⟩ => exec_of_ownRefusal hf ho rfl, fun r s hs hr => ?_⟩
  show execSetRate r s = _
  rw [execSetRate, if_neg hr, issue_of_ready hs, freshConverter_eq]
  rfl

/-- Settles O50: a zero argument is the refusal of the command's own; otherwise the chip is the reset state at
the launch arguments. -/
theorem newMakesAResetInstance : Obligations.NewMakesAResetInstance := by
  refine ⟨fun s hf ho hzero => exec_of_ownRefusal hf ho (if_pos hzero), fun s hf ho hclock hrate => ?_⟩
  refine ⟨s.renewed, exec_new_of_positive hf ho hclock hrate, ?_, ?_, rfl, rfl, rfl, rfl⟩
  · rw [State.renewed, ← hf]
  · rw [State.renewed, convTest_eq]

end Sys2Proof.Machine
end

section
/-!
PROOFS. The statements of 30_encoding.md: the decoder and the encoder are inverse on well-formed instructions, and
the words outside the format are those the decoder reads nothing in (R80 to R91, R362).
-/

namespace Sys2Proof.Machine

/-! ## Reserved addresses (R88) against the groups (R82, R83) -/

/-- What the dispatch of R89 asks of an address before it takes it for a reserved one. -/
def undispatched (a : Byte) : Prop :=
  (a ≠ 0x01 ∧ a ≠ 0x02 ∧ a ≠ 0x03 ∧ a ≠ 0x04 ∧ a ≠ 0x08 ∧ a ≠ 0xBD)
    ∧ (a.extractLsb' 5 3 ∈ [1#3, 2#3, 3#3, 4#3, 7#3] → slotOf (a.extractLsb' 0 5) = none)
    ∧ (a.extractLsb' 4 4 ∈ [0xA#4, 0xB#4, 0xC#4] → chanOf a = none)

/-- R88's list holds no address the dispatch takes. -/
theorem undispatched_of_reservedAddr : ∀ a : Byte, reservedAddr a = true → undispatched a := by
  unfold undispatched
  decide +kernel

/-- Every address that R88 does not list is that of a row of its own, a slot's or a channel's. -/
theorem address_cases : ∀ a : Byte, reservedAddr a = true
    ∨ a = 0x01 ∨ a = 0x02 ∨ a = 0x03 ∨ a = 0x04 ∨ a = 0x08 ∨ a = 0xBD
    ∨ (∃ s, a = slotAddr 0x20 s) ∨ (∃ s, a = slotAddr 0x40 s) ∨ (∃ s, a = slotAddr 0x60 s)
    ∨ (∃ s, a = slotAddr 0x80 s) ∨ (∃ s, a = slotAddr 0xE0 s)
    ∨ (∃ c, a = chanAddr 0xA0 c) ∨ (∃ c, a = chanAddr 0xB0 c) ∨ ∃ c, a = chanAddr 0xC0 c := by
  decide +kernel

theorem slotWrite_of_none {a : Byte} (h : slotOf (a.extractLsb' 0 5) = none) (mk : SlotId → Byte → Instr) (v : Byte) :
    slotWrite mk a v = .reserved a v := by
  rw [slotWrite, h]

theorem chanWrite_of_none {a : Byte} (h : chanOf a = none) (mk : ChanId → Byte → Instr) (v : Byte) :
    chanWrite mk a v = .reserved a v := by
  rw [chanWrite, h]

/-- The dispatch of a reserved address (R88). -/
theorem decodeWrite_reserved {a : Byte} (h : reservedAddr a = true) (v : Byte) : decodeWrite a v = .reserved a v := by
  obtain ⟨⟨h1, h2, h3, h4, h8, hBD⟩, hslot, hchan⟩ := undispatched_of_reservedAddr a h
  unfold decodeWrite
  rw [if_neg fun h => h4 h.1, if_neg h1, if_neg h2, if_neg h3, if_neg h4, if_neg h8, if_neg hBD]
  split_ifs with g1 g2 g3 g4 g7 gA gB gC
  · exact slotWrite_of_none (hslot (g1 ▸ by decide)) _ v
  · exact slotWrite_of_none (hslot (g2 ▸ by decide)) _ v
  · exact slotWrite_of_none (hslot (g3 ▸ by decide)) _ v
  · exact slotWrite_of_none (hslot (g4 ▸ by decide)) _ v
  · exact slotWrite_of_none (hslot (g7 ▸ by decide)) _ v
  · exact chanWrite_of_none (hchan (gA ▸ by decide)) _ v
  · exact chanWrite_of_none (hchan (gB ▸ by decide)) _ v
  · exact chanWrite_of_none (hchan (gC ▸ by decide)) _ v
  · rfl

/-! ## Register 0x04, whose rows fix the top bit of the value (R124, R125) -/

theorem decodeWrite_timerValue (v : Byte) :
    decodeWrite 0x04 v = if v.msb then .irqReset (v.extractLsb' 0 7) else .timerCtl (v.extractLsb' 0 7) := by
  cases h : v.msb <;> simp [decodeWrite, h]

theorem decodeWrite_irqReset (v : BitVec 7) : decodeWrite 0x04 (1#1 ++ v) = .irqReset v := by
  have hmsb : (1#1 ++ v).msb = true := BitVec.msb_append
  have hlow : (1#1 ++ v).extractLsb' 0 7 = v := BitVec.extractLsb'_append_eq_right
  rw [decodeWrite_timerValue, if_pos hmsb, hlow]

theorem decodeWrite_timerCtl (v : BitVec 7) : decodeWrite 0x04 (0#1 ++ v) = .timerCtl v := by
  have hmsb : (0#1 ++ v).msb = false := BitVec.msb_append
  have hlow : (0#1 ++ v).extractLsb' 0 7 = v := BitVec.extractLsb'_append_eq_right
  rw [decodeWrite_timerValue, if_neg (Bool.eq_false_iff.1 hmsb), hlow]

theorem timerValue_cases (v : Byte) : 0#1 ++ v.extractLsb' 0 7 = v ∨ 1#1 ++ v.extractLsb' 0 7 = v := by
  have hv : v.extractLsb' 7 1 ++ v.extractLsb' 0 7 = v := BitVec.extractLsb'_append_extractLsb' (w := 1) (len := 7)
  obtain htop | htop := BitVec.eq_zero_or_eq_one (v.extractLsb' 7 1)
  · exact .inl (htop ▸ hv)
  · exact .inr (htop ▸ hv)

/-! ## Decoding what the encoder gives -/

theorem decode_setMaskWord (m : BitVec 14) : decode (commandWord 0x06 (0#10 ++ m)) = some (.setMask m) := by
  have hzero : (0#10 ++ m).extractLsb' 14 10 = 0 := BitVec.extractLsb'_append_eq_left
  have hmask : (0#10 ++ m).extractLsb' 0 14 = m := BitVec.extractLsb'_append_eq_right
  have hoperand (start len : Nat) (h : start + len ≤ 24) :
      (commandWord 0x06 (0#10 ++ m)).extractLsb' start len = (0#10 ++ m).extractLsb' start len :=
    BitVec.extractLsb'_append_eq_of_add_le h
  unfold decode
  rw [commandWord_code, hoperand 14 10 (by decide), hoperand 0 14 (by decide), hzero, hmask]
  rfl

theorem decode_encode (i : Instr) (h : i.wellFormed = true) : decode (encode i) = some i := by
  cases i with
  | irqReset v => exact (decode_writeWord _ _).trans (congrArg some (decodeWrite_irqReset v))
  | timerCtl v => exact (decode_writeWord _ _).trans (congrArg some (decodeWrite_timerCtl v))
  | test v | timer1 v | timer2 v | mode v | rhythm v => exact decode_writeWord _ v
  | amVib s v | kslTl s v | arDr s v | slRr s v | ws s v =>
    obtain ⟨h20, h40, h60, h80, hE0⟩ := decodeWrite_slot s v
    simp only [encode, decode_writeWord, h20, h40, h60, h80, hE0]
  | fnumLo c v | keyBlock c v | fbAlg c v =>
    obtain ⟨hA0, hB0, hC0⟩ := decodeWrite_chan c v
    simp only [encode, decode_writeWord, hA0, hB0, hC0]
  | reserved a v => exact (decode_writeWord a v).trans (congrArg some (decodeWrite_reserved h v))
  | calcOne | status | reset | new => rfl
  | calcBuffer n | calcBufferStereo n | setRate r => simp [encode, decode]
  | setMask m => exact decode_setMaskWord m

/-- Settles O1: `decode_encode`, by the row of the instruction. -/
theorem decodeOfEncodeIsTheInstruction : Obligations.DecodeOfEncodeIsTheInstruction := decode_encode

/-! ## Encoding what the decoder reads -/

/-- Every register write is the word of a well-formed instruction. -/
theorem exists_encode_eq_writeWord (a v : Byte) : ∃ j : Instr, j.wellFormed = true ∧ encode j = writeWord a v := by
  obtain h | rfl | rfl | rfl | rfl | rfl | rfl | ⟨s, rfl⟩ | ⟨s, rfl⟩ | ⟨s, rfl⟩ | ⟨s, rfl⟩ | ⟨s, rfl⟩ | ⟨c, rfl⟩ | ⟨c, rfl⟩
    | ⟨c, rfl⟩ := address_cases a
  · exact ⟨.reserved a v, h, rfl⟩
  · exact ⟨.test v, rfl, rfl⟩
  · exact ⟨.timer1 v, rfl, rfl⟩
  · exact ⟨.timer2 v, rfl, rfl⟩
  · obtain hv | hv := timerValue_cases v
    · exact ⟨.timerCtl _, rfl, congrArg (writeWord 0x04) hv⟩
    · exact ⟨.irqReset _, rfl, congrArg (writeWord 0x04) hv⟩
  · exact ⟨.mode v, rfl, rfl⟩
  · exact ⟨.rhythm v, rfl, rfl⟩
  · exact ⟨.amVib s v, rfl, rfl⟩
  · exact ⟨.kslTl s v, rfl, rfl⟩
  · exact ⟨.arDr s v, rfl, rfl⟩
  · exact ⟨.slRr s v, rfl, rfl⟩
  · exact ⟨.ws s v, rfl, rfl⟩
  · exact ⟨.fnumLo c v, rfl, rfl⟩
  · exact ⟨.keyBlock c v, rfl, rfl⟩
  · exact ⟨.fbAlg c v, rfl, rfl⟩

/-- Every word the decoder reads is the word of a well-formed instruction. -/
theorem exists_encode_of_decode {w : Word} {i : Instr} (h : decode w = some i) :
    ∃ j : Instr, j.wellFormed = true ∧ encode j = w := by
  have hw := commandWord_of_fields w
  have hbare {k : Instr} (h : bare k (w.extractLsb' 0 24) = some i) : w.extractLsb' 0 24 = 0 := by
    by_contra hne
    rw [bare, if_neg hne] at h
    cases h
  unfold decode at h
  dsimp only at h
  split_ifs at h with h1 hzero h2 h3 h4 h5 h6 hmask h7 h8 h9
  · exact writeWord_of_fields h1 hzero ▸ exists_encode_eq_writeWord _ _
  · exact ⟨.calcOne, rfl, by rwa [h2, hbare h] at hw⟩
  · exact ⟨.calcBuffer (w.extractLsb' 0 24), rfl, by rwa [h3] at hw⟩
  · exact ⟨.calcBufferStereo (w.extractLsb' 0 24), rfl, by rwa [h4] at hw⟩
  · exact ⟨.status, rfl, by rwa [h5, hbare h] at hw⟩
  · have hoperand : w.extractLsb' 14 10 ++ w.extractLsb' 0 14 = w.extractLsb' 0 24 :=
      BitVec.extractLsb'_append_extractLsb'_eq_extractLsb' rfl
    rw [hmask] at hoperand
    rw [h6, ← hoperand] at hw
    exact ⟨.setMask (w.extractLsb' 0 14), rfl, hw⟩
  · exact ⟨.reset, rfl, by rwa [h7, hbare h] at hw⟩
  · exact ⟨.setRate (w.extractLsb' 0 24), rfl, by rwa [h8] at hw⟩
  · exact ⟨.new, rfl, by rwa [h9, hbare h] at hw⟩

/-- Settles O2: a word that decodes is the word of a well-formed instruction, which is the one it decodes to. -/
theorem encodeOfDecodeIsTheWord : Obligations.EncodeOfDecodeIsTheWord := by
  intro w i h
  obtain ⟨j, hj, rfl⟩ := exists_encode_of_decode h
  obtain rfl : j = i := Option.some.inj ((decode_encode j hj).symm.trans h)
  exact ⟨rfl, hj⟩

/-- Settles O6: `BitVec.ofNat 8` reads its argument modulo 256, and a register write always decodes. -/
theorem registerWritesMaskTheirArguments : Obligations.RegisterWritesMaskTheirArguments := by
  intro reg value
  obtain ⟨hword, -⟩ := encodeOfDecodeIsTheWord _ _ (decode_writeWord (BitVec.ofNat 8 reg) (BitVec.ofNat 8 value))
  have hmask (n : Nat) : BitVec.ofNat 8 (n % 256) = BitVec.ofNat 8 n :=
    BitVec.eq_of_toNat_eq (Nat.mod_mod_of_dvd n (Nat.dvd_refl 256))
  refine ⟨?_, _, decode_writeWord _ _, ?_⟩
  · rw [writeRegCall, writeRegCall, hmask, hmask]
  · rw [hword]
    exact ⟨writeWord_code _ _, writeWord_addr _ _, writeWord_value _ _⟩

/-! ## The words the decoder reads nothing in (R80, R362) -/

theorem bare_eq_none_iff (i : Instr) (operand : BitVec 24) : bare i operand = none ↔ operand.toNat ≠ 0 := by
  have hzero : operand.toNat = 0 ↔ operand = 0 := BitVec.toNat_inj (y := 0#24)
  rw [bare, Ne, hzero]
  split <;> simp_all

theorem decode_eq_none_iff (w : Word) : decode w = none ↔
    let code := w.toNat / 2 ^ 24
    let operand := w.toNat % 2 ^ 24
    code = 0 ∨ 9 < code ∨ (code = 1 ∧ operand / 2 ^ 16 ≠ 0)
      ∨ ((code = 2 ∨ code = 5 ∨ code = 7 ∨ code = 9) ∧ operand ≠ 0) ∨ (code = 6 ∧ operand / 2 ^ 14 ≠ 0) := by
  have hw := w.isLt
  have hbits (start len : Nat) : (w.extractLsb' start len).toNat = w.toNat / 2 ^ start % 2 ^ len := by
    rw [BitVec.extractLsb'_toNat, Nat.shiftRight_eq_div_pow]
  unfold decode
  simp only [← BitVec.toNat_inj, hbits, BitVec.ofNat_eq_ofNat, BitVec.toNat_ofNat, Nat.reducePow, Nat.reduceMod]
  split_ifs
  all_goals simp only [bare_eq_none_iff, hbits, false_iff, true_iff, Nat.reducePow, Nat.pow_zero, Nat.div_one]
  all_goals omega

/-! ## A step on a word (R4, R66, R362, R364) -/

/-- Settles O5: `step` reads the head of the queue and decodes its word. -/
theorem stepRunsTheDecodedCommand : Obligations.StepRunsTheDecodedCommand := by
  refine ⟨fun s h rest i hp hd => ?_, fun s hp => ?_⟩
  · rw [step, hp]
    dsimp only
    rw [hd]
    rfl
  · rw [step, hp]

theorem step_of_decode_none {s : State} {h : HostCall} {rest : List HostCall} (hp : s.pending = h :: rest)
    (hd : decode h.word = none) : step s = rejectWord (s.accept h rest) := by
  rw [step, hp]
  dsimp only
  rw [hd]

/-- Settles O4: the decoder reads nothing exactly in these words, and a step rejects such a word unless an earlier
check stops it. -/
theorem wordsOutsideTheFormatAreRefused : Obligations.WordsOutsideTheFormatAreRefused := by
  refine ⟨decode_eq_none_iff, fun s h rest hp hd hf ho => ?_⟩
  rw [step_of_decode_none hp hd]
  exact issue_of_own (s := s.accept h rest) hf ho .encoding false _

/-- Settles O3: each word is decoded by computation. -/
theorem sampleWordsDecode : Obligations.SampleWordsDecode := by
  unfold Obligations.SampleWordsDecode
  decide

end Sys2Proof.Machine
end

section
/-!
PROOFS. What a tick leaves unchanged (R291), and the direction in which it moves the envelope (R198 to R204).
-/

namespace Sys2Proof.Machine

/-! ## What a tick leaves unchanged (R291) -/

/-- The fields of the chip a tick moves, as another chip has them. -/
def Chip.withTicked (c k : Chip) : Chip :=
  { c with
    tick := k.tick, amPos := k.amPos, pmPos := k.pmPos, noise := k.noise, t1 := k.t1, t2 := k.t2
    csmPulse := k.csmPulse, keyMask := k.keyMask, slot := k.slot, mixOut := k.mixOut }

theorem Chip.withTicked_self (k : Chip) : k.withTicked k = k := rfl

theorem Chip.tick1_eq_withTicked (c : Chip) : c.tick1 = c.withTicked c.tick1 := by
  conv_lhs => rw [← c.tick1.withTicked_self]
  unfold Chip.withTicked
  simp only [Chip.tick1_reg, Chip.tick1_outTime, Chip.tick1_outStep, Chip.tick1_inpStep, Chip.tick1_clockHz,
    Chip.tick1_rateHz, Chip.tick1_wse, Chip.tick1_csm, Chip.tick1_nts, Chip.tick1_dam, Chip.tick1_dvb,
    Chip.tick1_rhythm, Chip.tick1_rkey, Chip.tick1_muteMask, Chip.tick1_chan, Chip.tick1_conv]

theorem commitSlot_patch (nts : Bool) (ch : Channel) {sl old : Slot} (h : samePatchAndHistory sl old) :
    samePatchAndHistory (commitSlot nts ch sl) old := h

theorem Slot.advancePhase_patch (inc : Int) {sl old : Slot} (h : samePatchAndHistory sl old) :
    samePatchAndHistory (sl.advancePhase inc) old := h

theorem Chip.slotTick_patch (c : Chip) (i : SlotId) {sl old : Slot} (h : samePatchAndHistory sl old) :
    samePatchAndHistory (c.slotTick i sl) old :=
  Slot.advancePhase_patch _ (commitSlot_patch _ _ (Slot.egStep_patch _ (commitSlot_patch _ _ h)))

/-- Steps 0 to 4 of a tick change no patch field (R291). -/
theorem Chip.slotAt_atOutputs_patch (c : Chip) (i : SlotId) :
    samePatchAndHistory (c.atOutputs.slotAt i) (c.slotAt i) := by
  rw [Chip.slotAt_atOutputs]
  exact Chip.slotTick_patch _ i (c.slotAt_preTick_patch i)

/-- Settles O21: the chip-wide fields of a tick are its own; its patch fields are those of its steps 0 to 4. -/
theorem tickLeavesTheRegisters : Obligations.TickLeavesTheRegisters := by
  intro c
  obtain ⟨-, -, -, ht1, ht2, -⟩ := c.tick1_eq_preTick
  obtain ⟨hlatch1, hmask1, hrun1⟩ := c.t1.step_kept
  obtain ⟨hlatch2, hmask2, hrun2⟩ := c.t2.step_kept
  rw [← Chip.preTick_t1, ← ht1] at hlatch1 hmask1 hrun1
  rw [← Chip.preTick_t2, ← ht2] at hlatch2 hmask2 hrun2
  refine ⟨c.tick1, rfl, c.tick1_eq_withTicked, hlatch1, hmask1, hrun1, hlatch2, hmask2, hrun2, fun i => ?_⟩
  obtain ⟨ham, hpm, heg, hkr, hml, hkl, htl, har, hdr, hsl, hrr, hws, -⟩ := c.slotAt_atOutputs_patch i
  rw [Chip.slotAt_tick1]
  dsimp only
  exact ⟨ham, hpm, heg, hkr, hml, hkl, htl, har, hdr, hsl, hrr, hws⟩

/-! ## The direction of the envelope (R198 to R204) -/

theorem attackLevel_le (egOut step : Nat) : attackLevel egOut step ≤ egOut := by
  have hfall : (-(egOut : Int) - 1) * step ≤ 0 := Int.mul_nonpos_of_nonpos_of_nonneg (by omega) (by omega)
  have h := attackLevel_eq egOut step
  omega

section Step
variable {sl : Slot} (tick : BitVec 16)

/-- In ATTACK a step lowers the level or keeps it, and DECAY is the one next state (R198, R199). -/
theorem Slot.egStep_of_attack (h : sl.egState = .attack) :
    (sl.egStep tick).egOut ≤ sl.egOut ∧ ((sl.egStep tick).egState = .attack ∨ (sl.egStep tick).egState = .decay) := by
  constructor
  · rw [Slot.egStep_egOut]
    split
    · rw [Slot.updatedLevel_of_attack h]
      exact attackLevel_le _ _
    · exact Nat.le_refl _
  · rw [Slot.egStep_egState, Slot.nextState_of_attack h]
    exact (ite_eq_or_eq _ _ _).symm

/-- Out of ATTACK a step raises the level or keeps it, up to `EG_MUTE` (R200 to R202). -/
theorem Slot.egStep_egOut_of_ne_attack (h : sl.egState ≠ .attack) (hlevel : sl.egOut ≤ 511) :
    sl.egOut ≤ (sl.egStep tick).egOut ∧ (sl.egStep tick).egOut ≤ 511 := by
  rw [Slot.egStep_egOut]
  split
  · rw [Slot.updatedLevel_of_ne_attack h]
    omega
  · exact ⟨Nat.le_refl _, hlevel⟩

/-- The levels stay in 0..511 (R204). -/
theorem Slot.egStep_egOut_le (hlevel : sl.egOut ≤ 511) : (sl.egStep tick).egOut ≤ 511 := by
  by_cases h : sl.egState = .attack
  · exact (Slot.egStep_of_attack tick h).1.trans hlevel
  · exact (Slot.egStep_egOut_of_ne_attack tick h hlevel).2

/-- The next state out of ATTACK (R200 to R202). -/
theorem Slot.egStep_egState_of_ne_attack :
    (sl.egState = .decay → (sl.egStep tick).egState = .decay ∨ (sl.egStep tick).egState = .sustain)
      ∧ (sl.egState = .sustain → (sl.egStep tick).egState = .sustain)
      ∧ (sl.egState = .release → (sl.egStep tick).egState = .release) := by
  rw [Slot.egStep_egState]
  refine ⟨fun h => ?_, fun h => Slot.nextState_of_sustain h _, fun h => Slot.nextState_of_release h _⟩
  rw [Slot.nextState_of_decay h]
  exact (ite_eq_or_eq _ _ _).symm

end Step

/-- `SLOT_ON` keeps the level or sets it to 0 (R205). -/
theorem slotOn_egOut (nts : Bool) (ch : Channel) (sl : Slot) :
    (slotOn nts ch sl).egOut = sl.egOut ∨ (slotOn nts ch sl).egOut = 0 := by
  unfold slotOn
  dsimp only
  split
  · exact .inr rfl
  · exact .inl rfl

/-- A key edge keeps the level or sets it to 0 (R205, R206). -/
theorem Chip.keyEdge_egOut (c : Chip) (i : SlotId) (sl : Slot) :
    (c.keyEdge i sl).egOut = sl.egOut ∨ (c.keyEdge i sl).egOut = 0 := by
  rw [Chip.keyEdge_eq]
  split
  · exact .inl rfl
  · split
    · exact slotOn_egOut _ _ sl
    · exact .inl rfl

theorem Chip.slotAt_preTick_egOut_le {c : Chip} {i : SlotId} (h : (c.slotAt i).egOut ≤ 511) :
    (c.preTick.slotAt i).egOut ≤ 511 := by
  rw [Chip.slotAt_preTick]
  refine Chip.slotEdges_keeps (P := fun sl => sl.egOut ≤ 511) (fun d sl hsl => ?_) c h
  obtain hkept | hzero := d.keyEdge_egOut i sl
  · rwa [hkept]
  · rw [hzero]
    exact Nat.zero_le _

/-- Settles O23: step 4 is one `egStep` of the committed slot, whose state and level are those step 4 begins with. -/
theorem envelopeMovesOneWay : Obligations.EnvelopeMovesOneWay := by
  intro c i hlevel
  have hold := Chip.slotAt_preTick_egOut_le hlevel
  obtain ⟨hout, hstate⟩ := c.tick1_envelope i
  have hstart : (commitSlot c.nts (c.chanFor i) (c.preTick.slotAt i)).egState = (c.preTick.slotAt i).egState
      ∧ (commitSlot c.nts (c.chanFor i) (c.preTick.slotAt i)).egOut = (c.preTick.slotAt i).egOut := ⟨rfl, rfl⟩
  generalize commitSlot c.nts (c.chanFor i) (c.preTick.slotAt i) = start at hout hstate hstart
  obtain ⟨hstartState, hstartLevel⟩ := hstart
  dsimp only
  rw [hout, hstate, ← hstartState, ← hstartLevel]
  rw [← hstartLevel] at hold
  have hrise (h : start.egState ≠ .attack) : start.egOut ≤ (start.egStep (c.tick + 1)).egOut :=
    (Slot.egStep_egOut_of_ne_attack _ h hold).1
  obtain ⟨hdecay, hsustain, hrelease⟩ := Slot.egStep_egState_of_ne_attack (sl := start) (c.tick + 1)
  exact ⟨Slot.egStep_of_attack _, fun h => ⟨hrise (by simp [h]), hdecay h⟩, fun h => ⟨hrise (by simp [h]), hsustain h⟩,
    fun h => ⟨hrise (by simp [h]), hrelease h⟩, hold, Slot.egStep_egOut_le _ hold⟩

end Sys2Proof.Machine
end

section
/-!
PROOFS. The bounds of the phase increment (R160, R161, R167, R170) and the symmetries of the sine (R230, R233, R241).
-/

namespace Sys2Proof.Machine

/-! ## The phase increment (R160, R161, R167, R170) -/

/-- The greatest multiple is 15, held doubled (R160). -/
theorem multiple_le : ∀ ml : BitVec 4, multiple ml ≤ 30 := by decide

/-- The table's entries are at most 7 in size, and those of row 0 are 0 (R167). -/
theorem pmTable_bounds : ∀ r < 8, ∀ p < 8,
    ((pmTable.getD r []).getD p 0).natAbs ≤ 7 ∧ (r = 0 → (pmTable.getD r []).getD p 0 = 0) := by decide

theorem pmEntry_bounds (f : BitVec 10) (p : BitVec 3) :
    (pmEntry f p).natAbs ≤ 7 ∧ (f.toNat < 128 → pmEntry f p = 0) := by
  have hrow : f.toNat >>> 7 = f.toNat / 128 := Nat.shiftRight_eq_div_pow _ 7
  obtain ⟨hsize, hzero⟩ := pmTable_bounds (f.toNat >>> 7) (by omega) p.toNat p.isLt
  exact ⟨hsize, fun h => hzero (by omega)⟩

/-- Halving an entry toward 0 keeps it in the bounds of the table, so both depths have them (R170). -/
theorem pmOffset_bounds (dvb : Bool) (p : BitVec 3) (f : BitVec 10) :
    (pmOffset dvb p f).natAbs ≤ 7 ∧ (f.toNat < 128 → pmOffset dvb p f = 0) := by
  obtain ⟨hsize, hzero⟩ := pmEntry_bounds f p
  rw [pmOffset_eq]
  cases dvb with
  | true => exact ⟨hsize, hzero⟩
  | false =>
    have hhalf : ((pmEntry f p).tdiv 2).natAbs = (pmEntry f p).natAbs / 2 := Int.natAbs_tdiv _ 2
    refine ⟨?_, fun h => ?_⟩
    · exact hhalf.trans_le ((Nat.div_le_self _ 2).trans hsize)
    · rw [hzero h]
      rfl

/-- Settles O25: the offset is 0 below fnum 128 and smaller than fnum from there on, so the sum is in 0..1030; the
multiple is at most 30 and the block factor at most 128. -/
theorem phaseIncrementIsBounded : Obligations.PhaseIncrementIsBounded := by
  intro dvb p ch sl
  obtain ⟨hsize, hzero⟩ := pmOffset_bounds dvb p ch.fnum
  have hsum : 0 ≤ (ch.fnum.toNat : Int) + (if sl.pm then pmOffset dvb p ch.fnum else 0)
      ∧ (ch.fnum.toNat : Int) + (if sl.pm then pmOffset dvb p ch.fnum else 0) ≤ 1030 := by
    split <;> omega
  have hmul : (multiple sl.ml : Int) ≤ 30 := Int.ofNat_le.2 (multiple_le sl.ml)
  have hblock : ((2 ^ ch.block.toNat : Nat) : Int) ≤ 128 :=
    Int.ofNat_le.2 (Nat.pow_le_pow_right Nat.two_pos (i := ch.block.toNat) (j := 7) (by omega))
  refine ⟨?_, ?_, hzero, by omega, by omega⟩
  · exact mul_nonneg (mul_nonneg hsum.1 (Int.natCast_nonneg _)) (Int.natCast_nonneg _)
  · calc phaseInc dvb p ch sl ≤ 1030 * 30 * 128 :=
        mul_le_mul (mul_le_mul hsum.2 hmul (Int.natCast_nonneg _) (by decide)) hblock (Int.natCast_nonneg _) (by decide)
      _ = 3955200 := by decide

/-! ## The symmetries of the sine (R230, R233, R241) -/

/-- The magnitude of an entry does not read its sign bit (R236, R237). -/
theorem decodeWave_sign (m : BitVec 15) (lvl : Nat) : decodeWave (1#1 ++ m) lvl = -decodeWave (0#1 ++ m) lvl := by
  have hlow (b : BitVec 1) : (b ++ m).extractLsb' 0 15 = m := BitVec.extractLsb'_append_eq_right
  have hneg : (1#1 ++ m).msb = true := BitVec.msb_append
  have hpos : (0#1 ++ m).msb = false := BitVec.msb_append
  unfold decodeWave
  rw [hlow, hlow, hneg, hpos]
  rfl

/-- The magnitude of the sine at an index of the half cycle: the quarter's table, read backwards in the second
quarter (R233). -/
def sineMagnitude (n : Nat) : BitVec 15 :=
  BitVec.ofNat 15 (if n / 256 % 2 = 1 then logSin (255 - BitVec.ofNat 8 n) else logSin (BitVec.ofNat 8 n))

theorem fullSin_eq (i : BitVec 10) :
    fullSin i = BitVec.ofBool (decide (i.toNat / 512 % 2 = 1)) ++ sineMagnitude i.toNat := by
  have hbit (k : Nat) : i.getLsbD k = decide (i.toNat / 2 ^ k % 2 = 1) := Nat.testBit_eq_decide_div_mod_eq
  have hlow : i.extractLsb' 0 8 = BitVec.ofNat 8 i.toNat := by
    apply BitVec.eq_of_toNat_eq
    simp
  unfold fullSin sineMagnitude
  simp only [hbit, hlow, decide_eq_true_iff]
  rfl

theorem sineMagnitude_half (n : Nat) : sineMagnitude (n + 512) = sineMagnitude n := by
  have hquarter : (n + 512) / 256 % 2 = n / 256 % 2 := by omega
  have hlow : BitVec.ofNat 8 (n + 512) = BitVec.ofNat 8 n := BitVec.eq_of_toNat_eq (by simp; omega)
  rw [sineMagnitude, hquarter, hlow, ← sineMagnitude]

theorem sineMagnitude_mirror {n : Nat} (h : n < 512) : sineMagnitude (511 - n) = sineMagnitude n := by
  have hlow : BitVec.ofNat 8 (511 - n) = 255 - BitVec.ofNat 8 n :=
    BitVec.eq_of_toNat_eq (by simp; omega)
  have hback : 255 - (255 - BitVec.ofNat 8 n) = BitVec.ofNat 8 n := sub_sub_cancel _ _
  rw [sineMagnitude, sineMagnitude, hlow, hback]
  by_cases hn : n < 256
  · rw [if_pos (by omega), if_neg (by omega)]
  · rw [if_neg (by omega), if_pos (by omega)]

/-- Settles O27: half a cycle on only the sign bit differs; the mirrored index reads the same table entry. -/
theorem sineIsSymmetric : Obligations.SineIsSymmetric := by
  intro i lvl hi
  have hentry (j : BitVec 10) : waveEntry 0 j = fullSin j := rfl
  have hhalf : (i + 512).toNat = i.toNat + 512 := by
    rw [BitVec.toNat_add]
    exact Nat.mod_eq_of_lt (by simp; omega)
  have hmirror : (511 - i).toNat = 511 - i.toNat :=
    BitVec.toNat_sub_of_le (x := 511) (y := i) (BitVec.le_def.2 (by simp; omega))
  simp only [hentry, fullSin_eq, hhalf, hmirror, sineMagnitude_half, sineMagnitude_mirror hi]
  rw [decide_eq_true (by omega), decide_eq_false (by omega), decide_eq_false (by omega)]
  exact ⟨decodeWave_sign _ lvl, rfl⟩

end Sys2Proof.Machine
end

section
/-!
PROOFS. The silence of a reset chip (R301, R401): with every slot released at `EG_MUTE` and no key edge to come, every
term of every mix is 0.
-/

namespace Sys2Proof.Machine

/-! ## Silence is kept by a tick -/

/-- Every slot is released at `EG_MUTE`, and nothing can key one on. -/
def Chip.silent (c : Chip) : Prop :=
  c.csm = false ∧ c.csmPulse = false ∧ ∀ i, (c.slotAt i).egState = .release ∧ (c.slotAt i).egOut = 511

theorem Chip.silent_initial (clock rate : Nat) (p : Bool) : (Chip.initial clock rate p).silent := by
  refine ⟨rfl, rfl, fun i => ?_⟩
  have hi : (Chip.initial clock rate p).slotAt i = Slot.initial := Vector.getElem_replicate _
  rw [hi]
  exact ⟨rfl, rfl⟩

theorem Chip.silent_tick1 {c : Chip} (h : c.silent) : c.tick1.silent := by
  obtain ⟨hcsm, hpulse, hslot⟩ := h
  have hquiet : c.quiet := ⟨hpulse, fun ⟨_, hon⟩ => Bool.false_ne_true (hcsm.symm.trans hon)⟩
  refine ⟨c.tick1_csm.trans hcsm, ?_, fun i => ?_⟩
  · rw [Chip.tick1_csmPulse, hcsm, Bool.and_false]
  · obtain ⟨hrelease, hmute⟩ := hslot i
    obtain ⟨hstate, hlevel⟩ := Chip.tick1_envelope_of_mute hquiet (by simp [hrelease]) hmute
    exact ⟨hstate.trans hrelease, hlevel⟩

/-! ## The mix at `EG_MUTE` (R265, R266) -/

theorem slotOut_of_mute (amVal : Nat) {sl : Slot} (h : sl.egOut = 511) (mod : Int) : slotOut amVal sl mod = 0 := by
  rw [slotOut, levelOf_of_mute _ h]
  exact decodeWave_eq_zero_of_mute _ (Nat.le_refl _)

theorem voiceOut_of_mute (amVal : Nat) {sl : Slot} (h : sl.egOut = 511) (idx : BitVec 10) :
    voiceOut amVal sl idx = 0 := by
  rw [voiceOut, levelOf_of_mute _ h]
  exact decodeWave_eq_zero_of_mute _ (Nat.le_refl _)

section Muted
variable {c : Chip} (h : ∀ i, (c.slotAt i).egOut = 511)
include h

theorem Chip.chOut_of_mute (ch : ChanId) : c.chOut ch = 0 := by
  have hmod : c.modOut ch = 0 := slotOut_of_mute _ (h _) _
  have hcar : c.carOut ch = 0 := slotOut_of_mute _ (h _) _
  rw [Chip.chOut, hmod, hcar, add_zero, ite_self]

theorem Chip.voiceOutput_of_mute (v : Voice) : c.voiceOutput v = 0 := by
  cases v with
  | hh | tc | sd => exact voiceOut_of_mute _ (h _) _
  | tom => exact slotOut_of_mute _ (h _) _
  | bd => exact Chip.chOut_of_mute h 6

/-- With every slot at `EG_MUTE` every term of the mix is 0, muted or not (R265, R266). -/
theorem Chip.mix_of_mute : c.mix = 0 := by
  have hchan (ch : ChanId) : c.chanMix ch = 0 := by
    rw [Chip.chanMix, Chip.chOut_of_mute h, ite_self]
  have hvoice (v : Voice) : c.voiceMix v = 0 := by
    rw [Chip.voiceMix, Chip.voiceOutput_of_mute h, mul_zero, ite_self]
  have hsum : c.mixSum = 0 := by
    simp only [Chip.mixSum, hchan, hvoice, add_zero, ite_self]
  rw [Chip.mix, hsum]
  rfl

end Muted

/-! ## The render -/

theorem Chip.tick1_mixOut_of_silent {c : Chip} (h : c.silent) : c.tick1.mixOut = 0 := by
  obtain ⟨-, -, hslot⟩ := Chip.silent_tick1 h
  rw [Chip.tick1_mixOut]
  refine Chip.mix_of_mute fun i => ?_
  have hlevel := (hslot i).2
  rwa [Chip.slotAt_tick1] at hlevel

/-- A silent chip stays silent, so every tick's sample is 0 (R301). -/
theorem render_of_silent (n : Nat) : ∀ {c : Chip}, c.silent → ∀ x ∈ (render n c).1, x = 0 := by
  induction n with
  | zero => exact fun _ x hx => absurd hx List.not_mem_nil
  | succ n ih =>
    intro c h x hx
    rw [render_succ, List.mem_cons] at hx
    obtain rfl | hx := hx
    · exact Chip.tick1_mixOut_of_silent h
    · exact ih (Chip.silent_tick1 h) x hx

/-- Settles O37: the reset chip is silent. -/
theorem resetInstanceRendersSilence : Obligations.ResetInstanceRendersSilence :=
  fun clock rate n p => render_of_silent n (Chip.silent_initial clock rate p)

end Sys2Proof.Machine
end

section
/-!
PROOFS. The invariants of the chip over one command: what no register write touches (R120 to R136), the bounds of the
state (R29, R37, R39, R278), the pacing (R22, R23, R330, R335), and the commands that change the configuration, the
bank and the mute mask (R9, R23, R24, R32).
-/

namespace Sys2Proof.Machine

/-! ## What no register write touches (R120 to R136) -/

/-- What a register write leaves of a slot: its history stays, and a key-on alone sets its level, to 0. -/
def Slot.WriteFrame (old new : Slot) : Prop :=
  new.out1 = old.out1 ∧ new.out2 = old.out2 ∧ (new.egOut = old.egOut ∨ new.egOut = 0)

/-- What the fields of a register write leave of a chip. -/
structure Chip.WriteFrame (c d : Chip) : Prop where
  reg : d.reg = c.reg
  tick : d.tick = c.tick
  outTime : d.outTime = c.outTime
  outStep : d.outStep = c.outStep
  inpStep : d.inpStep = c.inpStep
  clockHz : d.clockHz = c.clockHz
  rateHz : d.rateHz = c.rateHz
  amPos : d.amPos = c.amPos
  noise : d.noise = c.noise
  muteMask : d.muteMask = c.muteMask
  conv : d.conv = c.conv
  mixOut : d.mixOut = c.mixOut
  slot : ∀ i, (c.slotAt i).WriteFrame (d.slotAt i)

theorem Slot.WriteFrame.refl (sl : Slot) : sl.WriteFrame sl := ⟨rfl, rfl, .inl rfl⟩

theorem Slot.WriteFrame.trans {a b c : Slot} (hab : a.WriteFrame b) (hbc : b.WriteFrame c) : a.WriteFrame c := by
  obtain ⟨h1, h2, hlevel⟩ := hab
  obtain ⟨k1, k2, klevel⟩ := hbc
  exact ⟨k1.trans h1, k2.trans h2, klevel.elim (fun hkept => hkept ▸ hlevel) .inr⟩

theorem Chip.WriteFrame.refl (c : Chip) : c.WriteFrame c :=
  ⟨rfl, rfl, rfl, rfl, rfl, rfl, rfl, rfl, rfl, rfl, rfl, rfl, fun _ => Slot.WriteFrame.refl _⟩

/-- A key edge changes no history, and `SLOT_ON` alone sets a level (R205, R206). -/
theorem Chip.keyEdge_writeFrame (c : Chip) (i : SlotId) (sl : Slot) : sl.WriteFrame (c.keyEdge i sl) := by
  obtain ⟨-, -, -, -, -, -, -, -, -, -, -, -, hout1, hout2⟩ := c.keyEdge_patch i (sl := sl) (old := sl)
    ⟨rfl, rfl, rfl, rfl, rfl, rfl, rfl, rfl, rfl, rfl, rfl, rfl, rfl, rfl⟩
  exact ⟨hout1, hout2, c.keyEdge_egOut i sl⟩

section WriteFrame
variable {c d : Chip} (h : c.WriteFrame d)
include h

theorem Chip.WriteFrame.withSlots {v : Vector Slot 18} (hv : ∀ i : SlotId, (d.slotAt i).WriteFrame v[i.val]) :
    c.WriteFrame { d with slot := v } :=
  { h with slot := fun i => (h.slot i).trans (hv i) }

theorem Chip.WriteFrame.withKeyMask (m : BitVec 18) : c.WriteFrame { d with keyMask := m } := { h with }

theorem Chip.WriteFrame.updChan (ch : ChanId) (f : Channel → Channel) : c.WriteFrame (d.updChan ch f) := { h with }

theorem Chip.WriteFrame.mapSlots {f : SlotId → Slot → Slot} (hf : ∀ i sl, Slot.WriteFrame sl (f i sl)) :
    c.WriteFrame (d.mapSlots f) := by
  refine h.withSlots fun i => ?_
  rw [Vector.getElem_ofFn]
  exact hf i _

theorem Chip.WriteFrame.updSlot (j : SlotId) {f : Slot → Slot} (hf : ∀ sl, Slot.WriteFrame sl (f sl)) :
    c.WriteFrame (d.updSlot j f) := by
  refine h.withSlots fun i => ?_
  rw [Vector.getElem_set]
  split
  next hij => exact Fin.ext hij ▸ hf (d.slotAt j)
  next => exact Slot.WriteFrame.refl _

theorem Chip.WriteFrame.markChanDirty (ch : ChanId) (x : Dirty) : c.WriteFrame (d.markChanDirty ch x) :=
  have hmark (sl : Slot) : sl.WriteFrame (sl.markDirty x) := ⟨rfl, rfl, .inl rfl⟩
  (h.updSlot (modSlot ch) hmark).updSlot (carSlot ch) hmark

theorem Chip.WriteFrame.updateKeys : c.WriteFrame d.updateKeys :=
  (h.mapSlots d.keyEdge_writeFrame).withKeyMask d.wantMask

end WriteFrame

/-- A command with code 0x01 is the register write of its word: the value goes into the bank, and what its fields do
keeps the frame (R120). -/
theorem exec_of_writeCode {i : Instr} (h : (encode i).extractLsb' 24 8 = 0x01) (s : State) :
    ∃ d, Chip.WriteFrame (s.chip.setReg ((encode i).extractLsb' 8 8) ((encode i).extractLsb' 0 8)) d
      ∧ exec i s = issue s none true (.next (s.setChip d)) := by
  have hwrite {a v : Byte} {d : Chip} (hi : encode i = writeWord a v)
      (hexec : exec i s = issue s none true (.next (s.setChip d))) (hd : Chip.WriteFrame (s.chip.setReg a v) d) :
      ∃ d, Chip.WriteFrame (s.chip.setReg ((encode i).extractLsb' 8 8) ((encode i).extractLsb' 0 8)) d
        ∧ exec i s = issue s none true (.next (s.setChip d)) := by
    rw [hi, writeWord_addr, writeWord_value]
    exact ⟨d, hd, hexec⟩
  have hcode {code : Byte} {o : BitVec 24} (hi : encode i = commandWord code o) (hne : code ≠ 0x01) : False :=
    hne (by rw [← h, hi, commandWord_code])
  cases i with
  | irqReset v | test v | timer1 v | timer2 v | timerCtl v | reserved a v =>
    refine hwrite rfl rfl ?_
    exact { Chip.WriteFrame.refl _ with }
  | mode v =>
    refine hwrite rfl rfl ?_
    refine Chip.WriteFrame.mapSlots ?_ fun _ _ => ⟨rfl, rfl, .inl rfl⟩
    exact { Chip.WriteFrame.refl _ with }
  | rhythm v =>
    refine hwrite rfl rfl ?_
    exact Chip.WriteFrame.updateKeys { Chip.WriteFrame.refl _ with }
  | amVib n v | kslTl n v | arDr n v | slRr n v =>
    refine hwrite rfl rfl ?_
    exact (Chip.WriteFrame.refl _).updSlot n fun _ => ⟨rfl, rfl, .inl rfl⟩
  | ws n v =>
    refine hwrite rfl rfl ?_
    dsimp only
    split
    · exact (Chip.WriteFrame.refl _).updSlot n fun _ => ⟨rfl, rfl, .inl rfl⟩
    · exact Chip.WriteFrame.refl _
  | fnumLo ch v =>
    refine hwrite rfl rfl ?_
    exact ((Chip.WriteFrame.refl _).updChan ch _).markChanDirty ch _
  | keyBlock ch v =>
    refine hwrite rfl rfl ?_
    exact (((Chip.WriteFrame.refl _).updChan ch _).markChanDirty ch _).updateKeys
  | fbAlg ch v =>
    refine hwrite rfl rfl ?_
    exact (Chip.WriteFrame.refl _).updChan ch _
  | calcOne | status | reset | new | calcBuffer n | calcBufferStereo n | setRate r | setMask m =>
    exact (hcode rfl (by decide)).elim

/-- Settles O18: on a ready state the write runs; the bank is the one `setReg` leaves, the rest is in the frame. -/
theorem everyRegisterWriteStoresItsValue : Obligations.EveryRegisterWriteStoresItsValue := by
  intro i s hs hcode
  obtain ⟨d, hd, hexec⟩ := exec_of_writeCode hcode s
  refine ⟨s.setChip d, hexec.trans (issue_of_ready hs true _), fun b => ?_, rfl, rfl, rfl, rfl, hd.tick, hd.mixOut,
    hd.muteMask⟩
  rw [← Chip.regAt_setReg, State.setChip_chip, Chip.regAt, hd.reg, ← Chip.regAt]

theorem exec_eq_next_of_writeCode {i : Instr} (h : (encode i).extractLsb' 24 8 = 0x01) {s t : State}
    (ht : exec i s = .next t) :
    ∃ d, Chip.WriteFrame (s.chip.setReg ((encode i).extractLsb' 8 8) ((encode i).extractLsb' 0 8)) d
      ∧ t = s.setChip d := by
  obtain ⟨d, hd, hexec⟩ := exec_of_writeCode h s
  exact ⟨d, hd, issue_next_eq_next (hexec.symm.trans ht)⟩

/-! ## The bounds (R29, R37, R39, R278) -/

theorem Chip.bounded_of_writeFrame {c d : Chip} (h : c.WriteFrame d) (hc : c.bounded) : d.bounded := by
  obtain ⟨hslot, ham, hnoise⟩ := hc
  refine ⟨fun i => ?_, h.amPos ▸ ham, h.noise ▸ hnoise⟩
  obtain ⟨hlevel, hhistory⟩ := hslot i
  obtain ⟨hout1, hout2, hkept⟩ := h.slot i
  rw [Slot.bounded, hout1, hout2]
  exact ⟨hkept.elim (fun he => he ▸ hlevel) (fun h0 => h0 ▸ Nat.zero_le _), hhistory⟩

theorem Chip.bounded_initial (clock rate : Nat) (p : Bool) : (Chip.initial clock rate p).bounded := by
  refine ⟨fun i => ?_, show 0 < 210 by decide, show 1#23 ≠ 0 by decide⟩
  have hi : (Chip.initial clock rate p).slotAt i = Slot.initial := Vector.getElem_replicate _
  rw [hi]
  decide

/-- A tick keeps the level bound (R204); it records a decoded sample and moves the one before (R238, R264). -/
theorem Chip.bounded_tick1 (c : Chip) (h : c.bounded) : c.tick1.bounded := by
  obtain ⟨hslot, ham, hnoise⟩ := h
  obtain ⟨-, hamPos, -, -, hnext⟩ := tickMovesCounterLfosAndNoise c
  refine ⟨fun i => ?_, ?_, hnext hnoise⟩
  · obtain ⟨hlevel, hlow, hhigh, -, -⟩ := hslot i
    obtain ⟨-, -, -, -, -, hnew⟩ := envelopeMovesOneWay c i hlevel
    obtain ⟨w, hout⟩ := c.atOutputs.slotOutput_eq_decodeWave i
    obtain ⟨hlow1, hhigh1⟩ := decodeWave_bounded w (levelOf c.atOutputs.amVal (c.atOutputs.slotAt i))
    rw [← hout, ← Chip.tick1_out1] at hlow1 hhigh1
    rw [← Chip.tick1_out2] at hlow hhigh
    exact ⟨hnew, hlow1, hhigh1, hlow, hhigh⟩
  · rw [hamPos]
    split
    · exact Nat.mod_lt _ (by decide)
    · exact ham

theorem exec_keeps_bounded (i : Instr) (s t : State) (hs : s.chip.bounded) (h : exec i s = .next t) :
    t.chip.bounded := by
  by_cases hcode : (encode i).extractLsb' 24 8 = 0x01
  · obtain ⟨d, hd, rfl⟩ := exec_eq_next_of_writeCode hcode h
    exact Chip.bounded_of_writeFrame hd hs
  cases i with dsimp only [exec] at h
  | calcOne =>
    exact execCalcOne_keeps (P := Chip.bounded) Chip.bounded_tick1 (fun _ _ hc => hc) (fun _ _ hc => hc) hs h
  | calcBuffer n => exact execCalcBuffer_keeps (P := Chip.bounded) Chip.bounded_tick1 hs h
  | calcBufferStereo n => exact execCalcBufferStereo_keeps (P := Chip.bounded) Chip.bounded_tick1 hs h
  | status | setMask m | setRate r => exact issue_keeps (P := Chip.bounded) h hs
  | reset => exact exec_reset_eq_next h ▸ Chip.bounded_initial s.chip.clockHz s.chip.rateHz s.chip.conv.isSome
  | new => exact exec_new_eq_next h ▸ Chip.bounded_initial _ _ _
  | _ => exact absurd (writeWord_code _ _) hcode

/-- Settles O55: a register write keeps the bounds by its frame, a render by its ticks. -/
theorem stepKeepsTheBounds : Obligations.StepKeepsTheBounds :=
  fun _ _ hs h => step_keeps (P := Chip.bounded) exec_keeps_bounded hs h

/-! ## The pacing (R22, R23, R310, R330, R335) -/

theorem Chip.paced_of_writeFrame {c d : Chip} (h : c.WriteFrame d) (hc : c.paced) : d.paced := by
  rw [Chip.paced, h.clockHz, h.rateHz, h.outStep, h.inpStep, h.outTime, h.conv]
  exact hc

/-- No tick touches the pacing (R291). -/
theorem Chip.paced_tick1 (c : Chip) (h : c.paced) : c.tick1.paced := by
  rw [Chip.paced, Chip.tick1_clockHz, Chip.tick1_rateHz, Chip.tick1_outStep, Chip.tick1_inpStep, Chip.tick1_outTime,
    Chip.tick1_conv]
  exact h

/-- The converter `new`, `reset` and `setRate` leave: present by the test, and cleared (R330, R339). -/
theorem freshConverter_isSome (clock rate : Nat) : (freshConverter clock rate).isSome = convTest clock rate := by
  unfold freshConverter
  cases convTest clock rate <;> rfl

theorem freshConverter_timerNum {clock rate : Nat} : ∀ k ∈ freshConverter clock rate, k.timerNum = 0 := by
  unfold freshConverter
  split
  · exact fun k hk => Option.mem_some.1 hk ▸ rfl
  · exact fun k hk => absurd hk (Option.not_mem_none k)

section Fresh
variable {clock rate : Nat} (hclock : 0 < clock) (hrate : 0 < rate)
include hclock hrate

/-- A chip at positive rates, with `out_time` 0 and a fresh converter. -/
theorem Chip.paced_of_fresh {c : Chip} (hclockHz : c.clockHz = clock) (hrateHz : c.rateHz = rate)
    (hout : c.outStep = clock) (hinp : c.inpStep = 72 * rate) (htime : c.outTime = 0)
    (hconv : c.conv = freshConverter clock rate) : c.paced := by
  have hstep : 0 < 72 * rate := Nat.mul_pos (by decide) hrate
  rw [Chip.paced, hclockHz, hrateHz, hout, hinp, htime, hconv]
  exact ⟨hclock, hrate, rfl, rfl, hstep, freshConverter_isSome _ _, fun k hk => freshConverter_timerNum k hk ▸ hstep⟩

theorem Chip.paced_initial : (Chip.initial clock rate (convTest clock rate)).paced :=
  Chip.paced_of_fresh hclock hrate rfl rfl rfl rfl rfl rfl

end Fresh

/-- A reset keeps the rates and clears the rest of the pacing (R401). -/
theorem Chip.paced_resetState {c : Chip} (h : c.paced) : (resetState c).paced := by
  obtain ⟨hclock, hrate, hout, hinp, -, hpresent, -⟩ := h
  refine Chip.paced_of_fresh hclock hrate rfl rfl hout hinp rfl ?_
  rw [freshConverter, ← hpresent]
  rfl

theorem Converter.get_timerNum_lt (c : Nat) {d : Nat} (hd : 0 < d) (k : Converter) : (k.get c d).1.timerNum < d :=
  Nat.mod_lt _ hd

/-- `calcOne` ends its loop with `out_time` below `inp_step`, and its get leaves the timer below 1 (R310, R335). -/
theorem Chip.paced_afterCalcOne {c : Chip} (h : c.paced) : c.afterCalcOne.paced := by
  obtain ⟨hclock, hrate, hout, hinp, htime, hpresent, -⟩ := h
  obtain ⟨hout', hinp', hclock', hrate'⟩ := render_pacing c.paceCount c
  have hclockHz : c.afterCalcOne.clockHz = c.clockHz := hclock'
  have hrateHz : c.afterCalcOne.rateHz = c.rateHz := hrate'
  have hoff : c.afterCalcOne.outTime < c.afterCalcOne.inpStep := Chip.afterCalcOne_outTime_lt (by omega) htime
  refine ⟨hclockHz ▸ hclock, hrateHz ▸ hrate, ?_, ?_, hoff, ?_, fun k hk => ?_⟩
  · rw [hclockHz, ← hout]
    exact hout'
  · rw [hrateHz, ← hinp]
    exact hinp'
  · rw [hclockHz, hrateHz, ← hpresent, Chip.afterCalcOne, Chip.withPacing_conv, Chip.fedConverter, Option.isSome_map,
      Option.isSome_map]
  · rw [Chip.afterCalcOne, Chip.withPacing_conv, Option.mem_map] at hk
    obtain ⟨fed, -, rfl⟩ := hk
    rw [hrateHz]
    exact Converter.get_timerNum_lt _ (by omega) fed

theorem execCalcOne_keeps_paced {s t : State} (hs : s.chip.paced) (h : execCalcOne s = .next t) : t.chip.paced := by
  obtain ⟨hf, ho, -, hc, -⟩ := issue_eq_next h
  have ⟨_, hrate, _, hinp, htime, _⟩ := hs
  have hnext := exec_calcOne_of_ready ⟨hc rfl, hf, ho⟩ (by omega) htime
  obtain rfl := Host.Outcome.next.inj (hnext.symm.trans h)
  exact Chip.paced_afterCalcOne hs

/-- `setRate` needs a rate other than 0, and paces the chip anew at it (R403). -/
theorem execSetRate_keeps_paced {r : BitVec 24} {s t : State} (hs : s.chip.paced) (h : execSetRate r s = .next t) :
    t.chip.paced := by
  obtain ⟨-, -, hown, -⟩ := issue_eq_next h
  obtain rfl := issue_next_eq_next h
  obtain ⟨hclock, -, hout, -⟩ := hs
  have hr : r ≠ 0 := by
    rintro rfl
    cases hown
  have hrate : 0 < r.toNat := Nat.pos_of_ne_zero fun h0 => hr (BitVec.eq_of_toNat_eq h0)
  exact Chip.paced_of_fresh hclock hrate rfl rfl hout rfl rfl rfl

/-- `new` needs positive arguments, and paces the chip it makes at them (R400). -/
theorem execNew_paced {s t : State} (h : execNew s = .next t) : t.chip.paced := by
  obtain ⟨-, -, hown, -⟩ := issue_eq_next h
  obtain rfl := issue_next_eq_next h
  have hzero : ¬ (s.args.clock = 0 ∨ s.args.rate = 0) := by
    intro hzero
    rw [if_pos hzero] at hown
    cases hown
  exact Chip.paced_initial (by omega) (by omega)

theorem exec_keeps_paced (i : Instr) (s t : State) (hs : s.chip.paced) (h : exec i s = .next t) : t.chip.paced := by
  by_cases hcode : (encode i).extractLsb' 24 8 = 0x01
  · obtain ⟨d, hd, rfl⟩ := exec_eq_next_of_writeCode hcode h
    exact Chip.paced_of_writeFrame hd hs
  cases i with dsimp only [exec] at h
  | calcOne => exact execCalcOne_keeps_paced hs h
  | calcBuffer n => exact execCalcBuffer_keeps (P := Chip.paced) Chip.paced_tick1 hs h
  | calcBufferStereo n => exact execCalcBufferStereo_keeps (P := Chip.paced) Chip.paced_tick1 hs h
  | status | setMask m => exact issue_keeps (P := Chip.paced) h hs
  | reset => exact exec_reset_eq_next h ▸ Chip.paced_resetState hs
  | setRate r => exact execSetRate_keeps_paced hs h
  | new => exact execNew_paced h
  | _ => exact absurd (writeWord_code _ _) hcode

/-- Settles O56: the writes and the ticks touch no pacing, and the other commands pace the chip as the rules say. -/
theorem stepKeepsThePacing : Obligations.StepKeepsThePacing :=
  fun _ _ hs h => step_keeps (P := Chip.paced) exec_keeps_paced hs h

/-! ## What changes the configuration, the bank and the mute mask (R9, R23, R24, R32) -/

/-- The clock, the rate, the bank and the mute mask of a chip are those of another. -/
def Chip.sameConfig (c d : Chip) : Prop :=
  d.clockHz = c.clockHz ∧ d.rateHz = c.rateHz ∧ d.reg = c.reg ∧ d.muteMask = c.muteMask

theorem Chip.sameConfig_tick1 {c : Chip} (d : Chip) (h : c.sameConfig d) : c.sameConfig d.tick1 := by
  rw [Chip.sameConfig, Chip.tick1_clockHz, Chip.tick1_rateHz, Chip.tick1_reg, Chip.tick1_muteMask]
  exact h

theorem renderToBuffer_maxBatch (elem : Sample → List Byte) (n : Nat) (w : Word) (s : State) :
    (renderToBuffer elem n w s).maxBatch = s.maxBatch := by
  unfold renderToBuffer
  split
  · rfl
  · split <;> rfl

/-- No command changes `MAX_BATCH` (R9, log 5). -/
theorem exec_maxBatch {i : Instr} {s t : State} (h : exec i s = .next t) : t.maxBatch = s.maxBatch := by
  cases i with dsimp only [exec, execTimerCtl] at h
  | irqReset v | test v | timer1 v | timer2 v | timerCtl v | mode v | rhythm v | amVib n v | kslTl n v | arDr n v
  | slRr n v | ws n v | fnumLo ch v | keyBlock ch v | fbAlg ch v | reserved a v =>
    rw [registerWrite_eq_next h, State.setChip_maxBatch]
  | calcOne =>
    obtain ⟨c, -, rfl⟩ := execCalcOne_eq_next h
    rfl
  | calcBuffer n | calcBufferStereo n => rw [issue_next_eq_next h, renderToBuffer_maxBatch]
  | status | setMask m | reset | setRate r | new =>
    obtain rfl := issue_next_eq_next h
    rfl

/-- A render keeps the configuration, the bank and the mute mask, as its ticks do. -/
theorem exec_sameConfig_of_render {i : Instr} {s t : State} (h : exec i s = .next t)
    (hi : i = .calcOne ∨ (∃ n, i = .calcBuffer n) ∨ ∃ n, i = .calcBufferStereo n) : s.chip.sameConfig t.chip := by
  have hs : s.chip.sameConfig s.chip := ⟨rfl, rfl, rfl, rfl⟩
  obtain rfl | ⟨n, rfl⟩ | ⟨n, rfl⟩ := hi
  · exact execCalcOne_keeps (P := s.chip.sameConfig) Chip.sameConfig_tick1 (fun _ _ hc => hc) (fun _ _ hc => hc) hs h
  · exact execCalcBuffer_keeps (P := s.chip.sameConfig) Chip.sameConfig_tick1 hs h
  · exact execCalcBufferStereo_keeps (P := s.chip.sameConfig) Chip.sameConfig_tick1 hs h

/-- Settles O60: a register write changes the bank and keeps the rest by its frame, a render keeps all of it by its
ticks, and the other commands say what they set. -/
theorem onlyTheseCommandsChangeTheConfiguration : Obligations.OnlyTheseCommandsChangeTheConfiguration := by
  intro i s t h
  refine ⟨exec_maxBatch h, ?_⟩
  by_cases hcode : (encode i).extractLsb' 24 8 = 0x01
  · obtain ⟨d, hd, rfl⟩ := exec_eq_next_of_writeCode hcode h
    exact ⟨absurd hd.clockHz, absurd hd.rateHz, fun _ => .inr (.inr hcode), absurd hd.muteMask⟩
  cases i with
  | calcOne | calcBuffer n | calcBufferStereo n =>
    obtain ⟨hclock, hrate, hreg, hmute⟩ := exec_sameConfig_of_render h (by simp)
    exact ⟨absurd hclock, absurd hrate, absurd hreg, absurd hmute⟩
  | status =>
    obtain rfl := issue_next_eq_next (show execStatus s = _ from h)
    exact ⟨absurd rfl, absurd rfl, absurd rfl, absurd rfl⟩
  | setMask m =>
    obtain rfl := issue_next_eq_next (show execSetMask m s = _ from h)
    exact ⟨absurd rfl, absurd rfl, absurd rfl, fun _ => .inr (.inr ⟨m, rfl⟩)⟩
  | reset =>
    obtain rfl := exec_reset_eq_next h
    exact ⟨absurd rfl, absurd rfl, fun _ => .inr (.inl rfl), fun _ => .inr (.inl rfl)⟩
  | setRate r =>
    obtain rfl := issue_next_eq_next (show execSetRate r s = _ from h)
    exact ⟨absurd rfl, fun _ => .inr ⟨r, rfl⟩, absurd rfl, absurd rfl⟩
  | new => exact ⟨fun _ => rfl, fun _ => .inl rfl, fun _ => .inl rfl, fun _ => .inl rfl⟩
  | _ => exact absurd (writeWord_code _ _) hcode

/-! ## The reset state (R401) -/

/-- The chip of the reset state at the clock and rate of log 2 has no converter, as the test says. -/
theorem convTest_resetRates : convTest Config.resetClockHz Config.resetRateHz = false := by decide

/-- Settles O54: both states hold the initial chip at the rates of log 2 and an empty memory. -/
theorem resetStateIsSafe : Obligations.ResetStateIsSafe := by
  have hpaced : (Chip.initial Config.resetClockHz Config.resetRateHz false).paced :=
    convTest_resetRates ▸ Chip.paced_initial (by decide) (by decide)
  have hsafe : State.reset.safe :=
    ⟨Chip.bounded_initial _ _ _, hpaced, Chip.cacheOk_initial _ _ _, Chip.keysApplied_initial _ _ _, rfl⟩
  exact ⟨hsafe, hsafe⟩

end Sys2Proof.Machine
end
